-- ==== Sys2Proof/Word.lean ====
section
/-! DEFINITION. The word types of the engine (00_scope.md R8 to R10): an octet of MEM, the 64-bit
operand and result, the 32-bit command word, and the one rounding quotient the rules use. -/

namespace Sys2Proof

/-- An octet of MEM (R21). -/
abbrev Byte := BitVec 8

/-- `ARGW` = 64 bits: the operand `arg`, the result register `DOUT`, a field value (R8). -/
abbrev Word := BitVec 64

/-- The command word `cw` (R80). -/
abbrev CmdWord := BitVec 32

/-- `ceil(a/b)`, which R10 defines as `(a + b - 1) div b`. -/
abbrev ceilDiv (a b : Nat) : Nat := (a + b - 1) / b

end Sys2Proof
end

