-- ==== Sys2Proof/Syntax.lean ====
section
/-! DEFINITION. The command set `ccsds-cmd-1` as syntax: one constructor of `Instr` for each row of
the opcode map (30_encoding.md R86), with the operands its format (R82) and its `arg` layout (R83)
give it. Selectors are named things (R84), so a selector outside R84 is no term of this syntax; the
one exception is the pair `tcb`, `ancb` of `HDR.CFGSH`, checked in WellFormed.lean. -/

namespace Sys2Proof

/-- A cursor selector `c` or `s` (R84): 0 = `AW`, 1 = `XR`, 2 = `G2`, 3 = `G3`. -/
inductive CurSel where
  | aw | xr | g2 | g3
deriving DecidableEq, Repr

/-- A header bank selector `u` (R84): 0 = `A`, 1 = `X`, 2 = `D`. -/
inductive BankSel where
  | a | x | d
deriving DecidableEq, Repr

/-- A header field id `f` (R84): 0 to 8, in this order. -/
inductive HdrField where
  | version | type | shf | apid | seqflags | seqcount | length | tc | anc
deriving DecidableEq, Repr

/-- A container size `sz` (R81, R84): `.B`, `.H`, `.W`, `.D` for 0, 1, 2, 3. -/
inductive Size where
  | b | h | w | d
deriving DecidableEq, Repr

/-- The `WIN` layout of `arg` (R83): `base = arg[31:0]`, `size = arg[63:32]`. -/
structure Window where
  /-- First octet of the window. -/
  base : BitVec 32
  /-- Number of octets of the window. -/
  size : BitVec 32
deriving DecidableEq, Repr

/-- The 46 commands of R86. A command without an operand carries no `arg` (R80: it is ignored). -/
inductive Instr where
  /-- `NOP` (R250). -/
  | nop
  /-- `SYS.ESR` (R251). -/
  | sysEsr
  /-- `CUR.ATTACH cur, base, size` (R110). -/
  | curAttach (c : CurSel) (win : Window)
  /-- `CUR.PUT.T[.LE] cur, w, value` (R111). -/
  | curPut (sz : Size) (le : Bool) (w : BitVec 7) (c : CurSel) (v : Word)
  /-- `CUR.GET.T[.LE] cur, w` (R112). -/
  | curGet (sz : Size) (le : Bool) (w : BitVec 7) (c : CurSel)
  /-- `CUR.APPEND dst, src` (R113). -/
  | curAppend (dst src : CurSel)
  /-- `CUR.POS cur` (R114). -/
  | curPos (c : CurSel)
  /-- `CUR.BYTES cur` (R115). -/
  | curBytes (c : CurSel)
  /-- `CUR.BAD cur` (R116). -/
  | curBad (c : CurSel)
  /-- `CUR.CAP cur` (R117). -/
  | curCap (c : CurSel)
  /-- `FLD.CFG.T[.LE] i, w` (R132). -/
  | fldCfg (sz : Size) (le : Bool) (w : BitVec 7) (f : Fin 16)
  /-- `FLD.NFLD n` (R133). -/
  | fldNfld (n : Fin 17)
  /-- `FLD.SET i, value` (R134). -/
  | fldSet (f : Fin 16) (v : Word)
  /-- `FLD.GET i` (R135). -/
  | fldGet (f : Fin 16)
  /-- `FLD.INC i` (R136). -/
  | fldInc (f : Fin 16)
  /-- `FLD.DEC i` (R137). -/
  | fldDec (f : Fin 16)
  /-- `FLD.GETBIT i, b` (R138); the bit index stands in the `w` field. -/
  | fldGetbit (b : BitVec 7) (f : Fin 16)
  /-- `FLD.SETBIT i, b, bit` (R139); `bit` is `arg[0]` (layout BIT). -/
  | fldSetbit (b : BitVec 7) (f : Fin 16) (bit : Bool)
  /-- `FLD.SER i, cur` (R140). -/
  | fldSer (c : CurSel) (f : Fin 16)
  /-- `FLD.DES i, cur` (R141). -/
  | fldDes (c : CurSel) (f : Fin 16)
  /-- `FLD.WIDTH i` (R142). -/
  | fldWidth (f : Fin 16)
  /-- `COL.SER cur` (R143). -/
  | colSer (c : CurSel)
  /-- `COL.DES cur` (R144). -/
  | colDes (c : CurSel)
  /-- `COL.WIDTH` (R145). -/
  | colWidth
  /-- `HDR.CFGSH bank, tcb, ancb` (R166); `idx[3:0] = tcb`, `idx[7:4] = ancb`. -/
  | hdrCfgsh (u : BankSel) (tcb ancb : BitVec 4)
  /-- `HDR.SET bank, field, value` (R167). -/
  | hdrSet (u : BankSel) (fld : HdrField) (v : Word)
  /-- `HDR.GET bank, field` (R168). -/
  | hdrGet (u : BankSel) (fld : HdrField)
  /-- `HDR.LENOCT bank` (R169). -/
  | hdrLenoct (u : BankSel)
  /-- `HDR.SETLENOCT bank, n` (R170). -/
  | hdrSetlenoct (u : BankSel) (v : Word)
  /-- `HDR.ISIDLE bank` (R171). -/
  | hdrIsidle (u : BankSel)
  /-- `HDR.ISVALID bank` (R172). -/
  | hdrIsvalid (u : BankSel)
  /-- `PH.SER bank, cur` (R173). -/
  | phSer (u : BankSel) (c : CurSel)
  /-- `PH.DES bank, cur` (R174). -/
  | phDes (u : BankSel) (c : CurSel)
  /-- `SH.SER bank, cur` (R175). -/
  | shSer (u : BankSel) (c : CurSel)
  /-- `SH.DES bank, cur` (R176). -/
  | shDes (u : BankSel) (c : CurSel)
  /-- `ASM.BEGIN base, size` (R192). -/
  | asmBegin (win : Window)
  /-- `ASM.BEGINIDLE base, size` (R194). -/
  | asmBeginidle (win : Window)
  /-- `ASM.CFGIDLE.T pattern` (R193). -/
  | asmCfgidle (sz : Size) (v : Word)
  /-- `ASM.FINALIZE` (R196). -/
  | asmFinalize
  /-- `ASM.SIZE` (R199). -/
  | asmSize
  /-- `ASM.VALID` (R200). -/
  | asmValid
  /-- `EXT.OPEN base, size` (R221). -/
  | extOpen (win : Window)
  /-- `DIS.FROMBUF base, size` (R233). -/
  | disFrombuf (win : Window)
  /-- `DIS.TOBUF base, size` (R234). -/
  | disTobuf (win : Window)
  /-- `DIS.FINALIZE` (R235). -/
  | disFinalize
  /-- `DIS.SIZE` (R236). -/
  | disSize
deriving DecidableEq, Repr

end Sys2Proof
end

