-- ==== Sys2Proof/WellFormed.lean ====
section
/-! DEFINITION. Which terms of `Instr` are commands. R84 bounds every selector; all of its bounds but
one hold by the types of Syntax.lean. The one left is the pair `{ancb, tcb}` of `HDR.CFGSH`, two
4-bit fields of `idx` that R84 and R166 limit to 0..8 each. -/

namespace Sys2Proof

/-- `tcb` in 0..8 (R84, R166). -/
abbrev tcbInRange (tcb : BitVec 4) : Bool := tcb.toNat ≤ 8

/-- `ancb` in 0..8 (R84, R166). -/
abbrev ancbInRange (ancb : BitVec 4) : Bool := ancb.toNat ≤ 8

/-- The selector check of R88 (3) that the types do not already make. -/
def Instr.wellFormed : Instr → Bool
  | .hdrCfgsh _ tcb ancb => tcbInRange tcb && ancbInRange ancb
  | .nop | .sysEsr | .curAttach .. | .curPut .. | .curGet .. | .curAppend .. | .curPos .. | .curBytes ..
  | .curBad .. | .curCap .. | .fldCfg .. | .fldNfld .. | .fldSet .. | .fldGet .. | .fldInc ..
  | .fldDec .. | .fldGetbit .. | .fldSetbit .. | .fldSer .. | .fldDes .. | .fldWidth .. | .colSer ..
  | .colDes .. | .colWidth | .hdrSet .. | .hdrGet .. | .hdrLenoct .. | .hdrSetlenoct ..
  | .hdrIsidle .. | .hdrIsvalid .. | .phSer .. | .phDes .. | .shSer .. | .shDes .. | .asmBegin ..
  | .asmBeginidle .. | .asmCfgidle .. | .asmFinalize | .asmSize | .asmValid | .extOpen ..
  | .disFrombuf .. | .disTobuf .. | .disFinalize | .disSize => true

end Sys2Proof
end

