-- ==== Sys2Proof/Decode.lean ====
section
/-! DEFINITION. The command encoding (30_encoding.md): the fields of a command word (R81), the formats
(R82), the opcode map (R86), the total decoder in the order of checks of R88, rejecting by name, and
the encoder, written from the same tables. -/

namespace Sys2Proof

/-- The seven fields of a command word (R81). -/
structure CmdFields where
  /-- `cw[31:24]`, the opcode. -/
  op : BitVec 8
  /-- `cw[23:22]`, the container size. -/
  sz : BitVec 2 := 0
  /-- `cw[21]`, little-endian. -/
  le : BitVec 1 := 0
  /-- `cw[20:14]`, a width or a bit index. -/
  w : BitVec 7 := 0
  /-- `cw[13:11]`, a cursor index. -/
  c : BitVec 3 := 0
  /-- `cw[10:8]`, the second selector. -/
  s : BitVec 3 := 0
  /-- `cw[7:0]`, the index. -/
  idx : BitVec 8 := 0
deriving DecidableEq, Repr

/-- The fields of a word, each from the bits R81 gives it. -/
def unpackCmd (cw : CmdWord) : CmdFields :=
  { op := cw.extractLsb' 24 8, sz := cw.extractLsb' 22 2, le := cw.extractLsb' 21 1
    w := cw.extractLsb' 14 7, c := cw.extractLsb' 11 3, s := cw.extractLsb' 8 3
    idx := cw.extractLsb' 0 8 }

/-- The word with these fields (R81), the opcode in the highest bits. -/
def packCmd (f : CmdFields) : CmdWord :=
  f.op ++ f.sz ++ f.le ++ f.w ++ f.c ++ f.s ++ f.idx

/-- The twelve formats of R82. -/
inductive Format where
  | N | C | P | CC | F | FP | FB | FC | U | UF | UC | S
deriving DecidableEq, Repr

/-- R82: the fields a format does not use are zero. -/
def Format.unusedZero (fmt : Format) (f : CmdFields) : Bool :=
  match fmt with
  | .N  => f.sz = 0 && f.le = 0 && f.w = 0 && f.c = 0 && f.s = 0 && f.idx = 0
  | .C  => f.sz = 0 && f.le = 0 && f.w = 0 && f.s = 0 && f.idx = 0
  | .P  => f.s = 0 && f.idx = 0
  | .CC => f.sz = 0 && f.le = 0 && f.w = 0 && f.idx = 0
  | .F  => f.sz = 0 && f.le = 0 && f.w = 0 && f.c = 0 && f.s = 0
  | .FP => f.c = 0 && f.s = 0
  | .FB => f.sz = 0 && f.le = 0 && f.c = 0 && f.s = 0
  | .FC => f.sz = 0 && f.le = 0 && f.w = 0 && f.s = 0
  | .U  => f.sz = 0 && f.le = 0 && f.w = 0 && f.c = 0 && f.idx = 0
  | .UF => f.sz = 0 && f.le = 0 && f.w = 0 && f.c = 0
  | .UC => f.sz = 0 && f.le = 0 && f.w = 0 && f.idx = 0
  | .S  => f.le = 0 && f.w = 0 && f.c = 0 && f.s = 0 && f.idx = 0

/-- R82: the mask column, the bits of `cw` that must equal `op << 24`. -/
def Format.mask : Format → CmdWord
  | .N  => 0xFFFFFFFF
  | .C  => 0xFFFFC7FF
  | .P  => 0xFF0007FF
  | .CC => 0xFFFFC0FF
  | .F  => 0xFFFFFF00
  | .FP => 0xFF003F00
  | .FB => 0xFFE03F00
  | .FC => 0xFFFFC700
  | .U  => 0xFFFFF8FF
  | .UF => 0xFFFFF800
  | .UC => 0xFFFFC0FF
  | .S  => 0xFF3FFFFF

/-- R86: the format of each listed opcode; `none` for an opcode that is not listed (R87). -/
def formatOf (op : BitVec 8) : Option Format :=
  match op.toNat with
  | 0x01 => some .N  | 0x02 => some .N
  | 0x10 => some .C  | 0x11 => some .P  | 0x12 => some .P  | 0x13 => some .CC
  | 0x14 => some .C  | 0x15 => some .C  | 0x16 => some .C  | 0x17 => some .C
  | 0x20 => some .FP | 0x21 => some .F  | 0x22 => some .F  | 0x23 => some .F
  | 0x24 => some .F  | 0x25 => some .F  | 0x26 => some .FB | 0x27 => some .FB
  | 0x28 => some .FC | 0x29 => some .FC | 0x2A => some .F  | 0x2B => some .C
  | 0x2C => some .C  | 0x2D => some .N
  | 0x30 => some .UF | 0x31 => some .UF | 0x32 => some .UF | 0x33 => some .U
  | 0x34 => some .U  | 0x35 => some .U  | 0x36 => some .U  | 0x37 => some .UC
  | 0x38 => some .UC | 0x39 => some .UC | 0x3A => some .UC
  | 0x40 => some .N  | 0x41 => some .N  | 0x42 => some .S  | 0x43 => some .N
  | 0x44 => some .N  | 0x45 => some .N
  | 0x50 => some .N
  | 0x60 => some .N  | 0x61 => some .N  | 0x62 => some .N  | 0x63 => some .N
  | _ => none

/-- Why a pair `(cw, arg)` is no command (R87), in the order of R88; each is answered by the engine
with `ERR_ILLEGAL`. -/
inductive DecodeError where
  /-- R88 (1): the opcode is not listed. -/
  | unlistedOpcode
  /-- R88 (2): a field that the format does not use is not zero. -/
  | unusedField
  /-- R88 (3): a selector is outside R84. -/
  | selectorRange
deriving DecidableEq, Repr

/-- R84, cursor: 0 to 3. -/
def decodeCur (c : BitVec 3) : Option CurSel :=
  match c.toNat with
  | 0 => some .aw | 1 => some .xr | 2 => some .g2 | 3 => some .g3 | _ => none

/-- R84, bank: 0 to 2. -/
def decodeBank (u : BitVec 3) : Option BankSel :=
  match u.toNat with
  | 0 => some .a | 1 => some .x | 2 => some .d | _ => none

/-- R84, header field id: 0 to 8. -/
def decodeHdrField (f : BitVec 8) : Option HdrField :=
  match f.toNat with
  | 0 => some .version | 1 => some .type | 2 => some .shf | 3 => some .apid | 4 => some .seqflags
  | 5 => some .seqcount | 6 => some .length | 7 => some .tc | 8 => some .anc | _ => none

/-- R84, `sz`: all four values are legal. -/
def decodeSize (sz : BitVec 2) : Size :=
  match sz.toNat with
  | 0 => .b | 1 => .h | 2 => .w | _ => .d

/-- R84, field index: 0 to 15. -/
def decodeField (i : BitVec 8) : Option (Fin 16) :=
  if h : i.toNat < 16 then some ⟨i.toNat, h⟩ else none

/-- R84, field count of `FLD.NFLD`: 0 to 16. -/
def decodeCount (n : BitVec 8) : Option (Fin 17) :=
  if h : n.toNat < 17 then some ⟨n.toNat, h⟩ else none

/-- R83, layout WIN: `base = arg[31:0]`, `size = arg[63:32]`. -/
def windowOf (arg : Word) : Window :=
  { base := arg.extractLsb' 0 32, size := arg.extractLsb' 32 32 }

/-- R88 (3) and the operands: the command of a listed opcode whose unused fields are zero; `none`
where a selector is outside R84. The opcode numbers are those of R86. -/
def buildCmd (f : CmdFields) (arg : Word) : Option Instr :=
  match f.op.toNat with
  | 0x01 => some .nop
  | 0x02 => some .sysEsr
  | 0x10 => (decodeCur f.c).map fun c => .curAttach c (windowOf arg)
  | 0x11 => (decodeCur f.c).map fun c => .curPut (decodeSize f.sz) (f.le = 1) f.w c arg
  | 0x12 => (decodeCur f.c).map fun c => .curGet (decodeSize f.sz) (f.le = 1) f.w c
  | 0x13 => (decodeCur f.c).bind fun c => (decodeCur f.s).map fun s => .curAppend c s
  | 0x14 => (decodeCur f.c).map .curPos
  | 0x15 => (decodeCur f.c).map .curBytes
  | 0x16 => (decodeCur f.c).map .curBad
  | 0x17 => (decodeCur f.c).map .curCap
  | 0x20 => (decodeField f.idx).map fun i => .fldCfg (decodeSize f.sz) (f.le = 1) f.w i
  | 0x21 => (decodeCount f.idx).map .fldNfld
  | 0x22 => (decodeField f.idx).map fun i => .fldSet i arg
  | 0x23 => (decodeField f.idx).map .fldGet
  | 0x24 => (decodeField f.idx).map .fldInc
  | 0x25 => (decodeField f.idx).map .fldDec
  | 0x26 => (decodeField f.idx).map fun i => .fldGetbit f.w i
  | 0x27 => (decodeField f.idx).map fun i => .fldSetbit f.w i (arg.getLsbD 0)
  | 0x28 => (decodeCur f.c).bind fun c => (decodeField f.idx).map fun i => .fldSer c i
  | 0x29 => (decodeCur f.c).bind fun c => (decodeField f.idx).map fun i => .fldDes c i
  | 0x2A => (decodeField f.idx).map .fldWidth
  | 0x2B => (decodeCur f.c).map .colSer
  | 0x2C => (decodeCur f.c).map .colDes
  | 0x2D => some .colWidth
  | 0x30 => (decodeBank f.s).bind fun u =>
      let tcb := f.idx.extractLsb' 0 4
      let ancb := f.idx.extractLsb' 4 4
      if tcbInRange tcb && ancbInRange ancb then some (.hdrCfgsh u tcb ancb) else none
  | 0x31 => (decodeBank f.s).bind fun u => (decodeHdrField f.idx).map fun fld => .hdrSet u fld arg
  | 0x32 => (decodeBank f.s).bind fun u => (decodeHdrField f.idx).map fun fld => .hdrGet u fld
  | 0x33 => (decodeBank f.s).map .hdrLenoct
  | 0x34 => (decodeBank f.s).map fun u => .hdrSetlenoct u arg
  | 0x35 => (decodeBank f.s).map .hdrIsidle
  | 0x36 => (decodeBank f.s).map .hdrIsvalid
  | 0x37 => (decodeBank f.s).bind fun u => (decodeCur f.c).map fun c => .phSer u c
  | 0x38 => (decodeBank f.s).bind fun u => (decodeCur f.c).map fun c => .phDes u c
  | 0x39 => (decodeBank f.s).bind fun u => (decodeCur f.c).map fun c => .shSer u c
  | 0x3A => (decodeBank f.s).bind fun u => (decodeCur f.c).map fun c => .shDes u c
  | 0x40 => some (.asmBegin (windowOf arg))
  | 0x41 => some (.asmBeginidle (windowOf arg))
  | 0x42 => some (.asmCfgidle (decodeSize f.sz) arg)
  | 0x43 => some .asmFinalize
  | 0x44 => some .asmSize
  | 0x45 => some .asmValid
  | 0x50 => some (.extOpen (windowOf arg))
  | 0x60 => some (.disFrombuf (windowOf arg))
  | 0x61 => some (.disTobuf (windowOf arg))
  | 0x62 => some .disFinalize
  | 0x63 => some .disSize
  | _ => none

/-- The decoder (R88): total, its three checks in the order R88 gives, each rejecting by name. -/
def decode (cw : CmdWord) (arg : Word) : Except DecodeError Instr :=
  match formatOf (unpackCmd cw).op with
  | none => .error .unlistedOpcode
  | some fmt =>
    if fmt.unusedZero (unpackCmd cw) then
      match buildCmd (unpackCmd cw) arg with
      | some i => .ok i
      | none => .error .selectorRange
    else .error .unusedField

/-- The instruction read from a row of spec/opcode_table.json: `w` holds the `nbits` bits the table
gives the row, every higher bit is 0; `cw` is bits 31..0 and `arg` bits 95..32 (log 13). -/
def decodeTableWord (nbits w : Nat) : Option Instr :=
  let bits := w % 2 ^ nbits
  match decode (BitVec.ofNat 32 bits) (BitVec.ofNat 64 (bits / 2 ^ 32)) with
  | .ok i => some i
  | .error _ => none

/-! The encoder, from the same tables: R81 for the places, R84 for the selectors, R86 for the opcodes,
R83 for `arg`. A command that has no operand is given `arg = 0` (R80: any value is accepted). -/

/-- R84, cursor. -/
def encodeCur : CurSel → BitVec 3
  | .aw => 0 | .xr => 1 | .g2 => 2 | .g3 => 3

/-- R84, bank. -/
def encodeBank : BankSel → BitVec 3
  | .a => 0 | .x => 1 | .d => 2

/-- R84, header field id. -/
def encodeHdrField : HdrField → BitVec 8
  | .version => 0 | .type => 1 | .shf => 2 | .apid => 3 | .seqflags => 4 | .seqcount => 5
  | .length => 6 | .tc => 7 | .anc => 8

/-- R81, `sz`. -/
def encodeSize : Size → BitVec 2
  | .b => 0 | .h => 1 | .w => 2 | .d => 3

/-- R83, layout WIN: `arg = {size, base}`. -/
def encodeWindow (win : Window) : Word := win.size ++ win.base

/-- One bit as a field. -/
def bitOf (b : Bool) : BitVec 1 := if b then 1 else 0

/-- The fields of the command word of an instruction. -/
def encodeFields : Instr → CmdFields
  | .nop => { op := 0x01 }
  | .sysEsr => { op := 0x02 }
  | .curAttach c _ => { op := 0x10, c := encodeCur c }
  | .curPut sz le w c _ => { op := 0x11, sz := encodeSize sz, le := bitOf le, w := w, c := encodeCur c }
  | .curGet sz le w c => { op := 0x12, sz := encodeSize sz, le := bitOf le, w := w, c := encodeCur c }
  | .curAppend dst src => { op := 0x13, c := encodeCur dst, s := encodeCur src }
  | .curPos c => { op := 0x14, c := encodeCur c }
  | .curBytes c => { op := 0x15, c := encodeCur c }
  | .curBad c => { op := 0x16, c := encodeCur c }
  | .curCap c => { op := 0x17, c := encodeCur c }
  | .fldCfg sz le w f => { op := 0x20, sz := encodeSize sz, le := bitOf le, w := w, idx := BitVec.ofNat 8 f }
  | .fldNfld n => { op := 0x21, idx := BitVec.ofNat 8 n }
  | .fldSet f _ => { op := 0x22, idx := BitVec.ofNat 8 f }
  | .fldGet f => { op := 0x23, idx := BitVec.ofNat 8 f }
  | .fldInc f => { op := 0x24, idx := BitVec.ofNat 8 f }
  | .fldDec f => { op := 0x25, idx := BitVec.ofNat 8 f }
  | .fldGetbit b f => { op := 0x26, w := b, idx := BitVec.ofNat 8 f }
  | .fldSetbit b f _ => { op := 0x27, w := b, idx := BitVec.ofNat 8 f }
  | .fldSer c f => { op := 0x28, c := encodeCur c, idx := BitVec.ofNat 8 f }
  | .fldDes c f => { op := 0x29, c := encodeCur c, idx := BitVec.ofNat 8 f }
  | .fldWidth f => { op := 0x2A, idx := BitVec.ofNat 8 f }
  | .colSer c => { op := 0x2B, c := encodeCur c }
  | .colDes c => { op := 0x2C, c := encodeCur c }
  | .colWidth => { op := 0x2D }
  | .hdrCfgsh u tcb ancb => { op := 0x30, s := encodeBank u, idx := ancb ++ tcb }
  | .hdrSet u fld _ => { op := 0x31, s := encodeBank u, idx := encodeHdrField fld }
  | .hdrGet u fld => { op := 0x32, s := encodeBank u, idx := encodeHdrField fld }
  | .hdrLenoct u => { op := 0x33, s := encodeBank u }
  | .hdrSetlenoct u _ => { op := 0x34, s := encodeBank u }
  | .hdrIsidle u => { op := 0x35, s := encodeBank u }
  | .hdrIsvalid u => { op := 0x36, s := encodeBank u }
  | .phSer u c => { op := 0x37, s := encodeBank u, c := encodeCur c }
  | .phDes u c => { op := 0x38, s := encodeBank u, c := encodeCur c }
  | .shSer u c => { op := 0x39, s := encodeBank u, c := encodeCur c }
  | .shDes u c => { op := 0x3A, s := encodeBank u, c := encodeCur c }
  | .asmBegin _ => { op := 0x40 }
  | .asmBeginidle _ => { op := 0x41 }
  | .asmCfgidle sz _ => { op := 0x42, sz := encodeSize sz }
  | .asmFinalize => { op := 0x43 }
  | .asmSize => { op := 0x44 }
  | .asmValid => { op := 0x45 }
  | .extOpen _ => { op := 0x50 }
  | .disFrombuf _ => { op := 0x60 }
  | .disTobuf _ => { op := 0x61 }
  | .disFinalize => { op := 0x62 }
  | .disSize => { op := 0x63 }

/-- The operand `arg` of an instruction (R83). -/
def encodeArg : Instr → Word
  | .curAttach _ win | .asmBegin win | .asmBeginidle win | .extOpen win | .disFrombuf win
  | .disTobuf win => encodeWindow win
  | .curPut _ _ _ _ v | .fldSet _ v | .hdrSet _ _ v | .hdrSetlenoct _ v | .asmCfgidle _ v => v
  | .fldSetbit _ _ bit => if bit then 1 else 0
  | .nop | .sysEsr | .curGet .. | .curAppend .. | .curPos .. | .curBytes .. | .curBad .. | .curCap ..
  | .fldCfg .. | .fldNfld .. | .fldGet .. | .fldInc .. | .fldDec .. | .fldGetbit .. | .fldSer ..
  | .fldDes .. | .fldWidth .. | .colSer .. | .colDes .. | .colWidth | .hdrCfgsh .. | .hdrGet ..
  | .hdrLenoct .. | .hdrIsidle .. | .hdrIsvalid .. | .phSer .. | .phDes .. | .shSer .. | .shDes ..
  | .asmFinalize | .asmSize | .asmValid | .disFinalize | .disSize => 0

/-- The encoder: the pair `(cw, arg)` of a command (R80). -/
def encode (i : Instr) : CmdWord × Word := (packCmd (encodeFields i), encodeArg i)

end Sys2Proof
end

