-- ==== Sys2Proof/Config.lean ====
section
/-! DEFINITION. What one engine fixes (00_scope.md R8) and the free values: constants without a body,
so that nothing can be proved of what they are. -/

namespace Sys2Proof.Config

/-- R8: the largest `MEM_BYTES`. -/
def memBytesMax : Nat := 2 ^ 31

/-- FREE VALUE (log 1), safe: the number that `memBytes` is made of. -/
opaque memBytesChoice : Nat

/-- R8, U10: `MEM_BYTES`, an open parameter of the engine: a free value of which nothing can be proved
but R8's bounds, 1 and 2^31. It is the length of the MEM that `State.reset` holds. -/
def memBytes : Nat := memBytesChoice % memBytesMax + 1

/-- R8: `IDLE_APID`, the APID of an idle packet. -/
def idleApid : BitVec 11 := 0x7FF

/-- R8: `PH_BYTES`, the primary header's size in octets. -/
def phBytes : Nat := 6

/-- R8: `PKT_MIN`, the least permitted packet size in octets. -/
def pktMin : Nat := 7

/-- R8: `PKT_MAX`, the largest permitted packet size in octets. -/
def pktMax : Nat := 65542

/-- FREE VALUE (log 2), safe: what the octet at an address holds before anything has written it.
R45: "an arbitrary launch parameter"; one value per address, since reading twice gives the same
value (R68) and reset does not write MEM. -/
opaque powerOnOctet : Nat → Byte

/-- FREE VALUE (log 3), safe: the `n`-th octet left behind by commands that reset cut short
(R300, U5). -/
opaque cutOctet : Nat → Byte

end Sys2Proof.Config
end

