-- ==== Sys2Proof/Machine/State.lean ====
section
/-! DEFINITION. The architectural state of the engine (10_state.md), the host's side of its ports
(R48, R50), the reasons a step can stop, and the state after reset (R41 to R46). Plain data. -/

namespace Sys2Proof.Machine

/-- Why a step stops. The engine itself never stops (R260, R327): every constructor is an access to
an octet that the spec says does not exist. -/
inductive Fault where
  /-- Raised by `memRead` and `memWrite` for an address at or above `MEM_BYTES`. R60: no access of the
  engine can fall outside MEM; safe: no state that meets the cursor invariant of R24 gets here (log 7). -/
  | outsideMem (addr : Nat)
  /-- Raised by a host write (`HostMove.poke`) to an address at or above `MEM_BYTES`; safe: R60 gives
  the host no such octet (log 7). -/
  | hostOutsideMem (addr : Nat)
deriving DecidableEq, Repr

/-- Why an instruction has no meaning. -/
inductive Refusal where
  /-- Raised by `exec` for an instruction without a meaning; safe. No arm of this model raises it. The
  engine's own refusals (R262) are next states, not this. -/
  | notModelled (mnemonic : String)
deriving DecidableEq, Repr

/-- One bit cursor (R23). -/
structure Cursor where
  /-- First octet of the window. -/
  base : BitVec 32
  /-- Number of octets of the window. -/
  size : BitVec 32
  /-- Bits already written or read, counted from the first bit of `MEM[base]`. -/
  cursor : BitVec 35
  /-- Sticky error flag (R105). -/
  bad : Bool
deriving DecidableEq, Repr

/-- One header bank: the seven primary fields (R27) and the secondary header (R28). -/
structure Bank where
  version : BitVec 3
  type : BitVec 1
  /-- `sec_hdr_flag`. -/
  shf : BitVec 1
  apid : BitVec 11
  /-- `sequence_flags`. -/
  seqflags : BitVec 2
  /-- `sequence_count`. -/
  seqcount : BitVec 14
  length : BitVec 16
  /-- Width of the time-code field in octets, 0 to 8. -/
  tcb : BitVec 4
  /-- Width of the ancillary field in octets, 0 to 8. -/
  ancb : BitVec 4
  /-- Time-code value. -/
  tc : Word
  /-- Ancillary value. -/
  anc : Word
deriving DecidableEq, Repr

/-- The assembler's window registers (R31). -/
structure AsmUnit where
  base : BitVec 32
  size : BitVec 32
  active : Bool
deriving DecidableEq, Repr

/-- The idle fill pattern (R31). -/
structure IdleCfg where
  /-- The pattern `IDLE.pat`. -/
  pat : Word
  /-- `IDLE.ps`: its size is 1, 2, 4 or 8 octets. -/
  ps : Size
deriving DecidableEq, Repr

/-- One field descriptor (R34); `w = 0` is an unconfigured one. -/
structure FieldDesc where
  w : BitVec 7
  sz : Size
  le : Bool
deriving DecidableEq, Repr

/-- MEM (R21): `size` octets at addresses `0 .. size-1`. `cells` lists the octets that have been
written, addresses strictly rising; an octet that is not listed has the free value
`Config.powerOnOctet` of its address (R45, log 2). -/
structure Memory where
  /-- `MEM_BYTES`, the open parameter (R8, log 1). -/
  size : Nat
  /-- The octets written so far. -/
  cells : List Host.Cell
deriving DecidableEq, Repr

/-- The canonical form of MEM: strictly rising addresses, all of them addresses of MEM. A listed octet
never equals "what an unlisted address reads as": an unlisted octet has no value in the data (log 12). -/
abbrev Memory.wf (m : Memory) : Prop :=
  m.cells.Pairwise (fun p q => p.1 < q.1) ∧ ∀ p ∈ m.cells, p.1 < m.size

/-- What the host does next (R20): its side of the ports of R50. -/
inductive HostMove where
  /-- Presents a command on `cmd_word`, `cmd_arg`. -/
  | command (cw : CmdWord) (arg : Word)
  /-- Writes one octet of MEM, between commands (R72). -/
  | poke (addr : BitVec 32) (v : Byte)
  /-- Asserts and releases `rst_n` while no command is in flight (R41). -/
  | reset
  /-- Presents a command and asserts `rst_n` while it executes (R300). -/
  | resetDuring (cw : CmdWord) (arg : Word)
deriving DecidableEq, Repr

/-- One response (R51): `rsp_status` and `rsp_data`. -/
structure Response where
  status : BitVec 4
  data : Word
deriving DecidableEq, Repr

/-- The state of the engine and of the host's side of its ports. -/
structure State where
  /-- `C[0]`, the assembler's data writer (R25). -/
  aw : Cursor
  /-- `C[1]`, the extractor's data reader (R25). -/
  xr : Cursor
  /-- `C[2]`, a general cursor (R25). -/
  g2 : Cursor
  /-- `C[3]`, a general cursor (R25). -/
  g3 : Cursor
  /-- `H[0]`, the assembler's headers (R27). -/
  bankA : Bank
  /-- `H[1]`, the extractor's headers (R27). -/
  bankX : Bank
  /-- `H[2]`, the dissector's headers (R27). -/
  bankD : Bank
  /-- `ASM.base`, `ASM.size`, `ASM.active` (R31). -/
  asm : AsmUnit
  /-- `IDLE.pat`, `IDLE.ps` (R31). -/
  idle : IdleCfg
  /-- `FD[0..15]` (R34). -/
  fd : Vector FieldDesc 16
  /-- `FV[0..15]` (R35). -/
  fv : Vector Word 16
  /-- `NFLD` (R36). -/
  nfld : BitVec 5
  /-- `DOUT` (R37). -/
  dout : Word
  /-- `ESR` (R263). -/
  esr : BitVec 4
  /-- `LAST` (R263). -/
  last : BitVec 4
  /-- MEM (R21). -/
  mem : Memory
  /-- The host's pending moves, the next one first (R48, log 4). -/
  input : List HostMove
  /-- Position in the command stream (R48), which no command reads. -/
  pos : Nat
  /-- The responses given so far, oldest first (R51, log 16). -/
  rsp : List Response
  /-- The model's own: how many free values of `Config.cutOctet` have been drawn (log 3). -/
  freeNext : Nat
deriving DecidableEq, Repr

/-- R42: a cursor after reset is attached to the empty window at address 0. -/
def Cursor.zero : Cursor := { base := 0, size := 0, cursor := 0, bad := false }

/-- R43: a header bank after reset is all zero. -/
def Bank.zero : Bank :=
  { version := 0, type := 0, shf := 0, apid := 0, seqflags := 0, seqcount := 0, length := 0
    tcb := 0, ancb := 0, tc := 0, anc := 0 }

/-- R44: an unconfigured descriptor. -/
def FieldDesc.zero : FieldDesc := { w := 0, sz := .b, le := false }

/-- The registers after reset (R42 to R46), over a memory and the host's side, which reset does not
touch (R45, log 17). -/
def State.afterReset (mem : Memory) (input : List HostMove) (pos : Nat) (rsp : List Response)
    (freeNext : Nat) : State :=
  { aw := Cursor.zero, xr := Cursor.zero, g2 := Cursor.zero, g3 := Cursor.zero
    bankA := Bank.zero, bankX := Bank.zero, bankD := Bank.zero
    asm := { base := 0, size := 0, active := false }
    idle := { pat := 0, ps := .b }
    fd := Vector.replicate 16 FieldDesc.zero
    fv := Vector.replicate 16 0
    nfld := 0, dout := 0, esr := 0, last := 0
    mem := mem, input := input, pos := pos, rsp := rsp, freeNext := freeNext }

/-- The machine right after reset (R46): no octet of MEM written, no move of the host pending, and MEM of
any size that R8 allows (log 1). -/
def State.reset : State :=
  State.afterReset { size := Config.memBytes, cells := [] } [] 0 [] 0

end Sys2Proof.Machine
end

