-- ==== Sys2Proof/Machine/Flags.lean ====
section
/-! DEFINITION. The status codes and the flags of the engine: `LAST` and `ESR` (60_exceptions.md R261 to
R263) and a cursor's sticky `bad` (R105). The engine has no condition codes (R39). -/

namespace Sys2Proof.Machine

/-- The status codes of R261; codes 5 to 15 are never produced. -/
inductive Status where
  | ok | errIllegal | errRange | errShape | errState
deriving DecidableEq, Repr

/-- R261: the 4-bit code, on `rsp_status` and in `LAST`. -/
def statusCode : Status → BitVec 4
  | .ok => 0 | .errIllegal => 1 | .errRange => 2 | .errShape => 3 | .errState => 4

/-- R263: the sticky bit of `ESR` that a status sets: bit 0 `ILL`, 1 `RANGE`, 2 `SHAPE`, 3 `STATE`. -/
def statusBit : Status → BitVec 4
  | .ok => 0 | .errIllegal => 1 | .errRange => 2 | .errShape => 4 | .errState => 8

/-- R263: `LAST` takes the status of every command, `ESR` keeps its bits and gains the status's. -/
def recordStatus (st : Status) (s : State) : State :=
  { s with last := statusCode st, esr := s.esr ||| statusBit st }

/-- R105: the flag is set and stays set. -/
def Cursor.setBad (cu : Cursor) : Cursor := { cu with bad := true }

end Sys2Proof.Machine
end

