-- ==== Sys2Proof/Machine/Operands.lean ====
section
/-! DEFINITION. The operand forms: container sizes (R81), cursors and their roles (R25, R101), header
banks and their fields (R27, R28, R167), windows (R70) and the derived quantities of the rules. Every
register has one home; these accessors are the one way to it. -/

namespace Sys2Proof.Machine

/-- `U = 8 << sz` (R81). -/
def sizeBits : Size → Nat
  | .b => 8 | .h => 16 | .w => 32 | .d => 64

/-- `1 << sz`, the container's size in octets (R194). -/
def sizeOctets : Size → Nat
  | .b => 1 | .h => 2 | .w => 4 | .d => 8

/-- `mask(n) = 2^n - 1` (R11), as a 64-bit value. -/
def mask (n : Nat) : Word := BitVec.ofNat 64 (2 ^ n - 1)

/-- Cursor `C[c]` (R23). -/
def State.cur (s : State) : CurSel → Cursor
  | .aw => s.aw | .xr => s.xr | .g2 => s.g2 | .g3 => s.g3

/-- `C[c] <- cu`. -/
def State.setCur (s : State) (c : CurSel) (cu : Cursor) : State :=
  match c with
  | .aw => { s with aw := cu }
  | .xr => { s with xr := cu }
  | .g2 => { s with g2 := cu }
  | .g3 => { s with g3 := cu }

/-- Header bank `H[u]` (R27). -/
def State.bank (s : State) : BankSel → Bank
  | .a => s.bankA | .x => s.bankX | .d => s.bankD

/-- `H[u] <- b`. -/
def State.setBank (s : State) (u : BankSel) (b : Bank) : State :=
  match u with
  | .a => { s with bankA := b }
  | .x => { s with bankX := b }
  | .d => { s with bankD := b }

/-- `FV[i] <- v`. -/
def State.setFv (s : State) (f : Fin 16) (v : Word) : State := { s with fv := s.fv.set f v }

/-- R25, R101: the stream may be written through every cursor but `XR`. -/
def writable : CurSel → Bool
  | .xr => false | .aw | .g2 | .g3 => true

/-- R25, R101: the stream may be read through every cursor but `AW`. -/
def readable : CurSel → Bool
  | .aw => false | .xr | .g2 | .g3 => true

/-- R25, R101: `CUR.ATTACH` attaches the general cursors only. -/
def attachable : CurSel → Bool
  | .aw | .xr => false | .g2 | .g3 => true

/-- R107: little-endian needs a width of whole octets. -/
def leIllegal (le : Bool) (w : Nat) : Bool := le && w % 8 ≠ 0

/-- A cursor freshly attached to a window: position 0, not bad (R24). -/
def attached (base size : Nat) : Cursor :=
  { base := BitVec.ofNat 32 base, size := BitVec.ofNat 32 size, cursor := 0, bad := false }

/-- R26: `size_bytes(c) = ceil(C[c].cursor / 8)`. -/
def Cursor.sizeBytes (cu : Cursor) : Nat := ceilDiv cu.cursor.toNat 8

/-- R70: the window lies inside MEM, computed without wrap-around. -/
def inMem (s : State) (win : Window) : Bool := win.base.toNat + win.size.toNat ≤ s.mem.size

/-- R29: `sec_size(u) = H[u].tcb + H[u].ancb`. -/
def Bank.secSize (b : Bank) : Nat := b.tcb.toNat + b.ancb.toNat

/-- R167: `width(f)`; for `tc` and `anc` it follows the bank's configuration. -/
def hdrWidth (b : Bank) : HdrField → Nat
  | .version => 3 | .type => 1 | .shf => 1 | .apid => 11 | .seqflags => 2 | .seqcount => 14
  | .length => 16 | .tc => 8 * b.tcb.toNat | .anc => 8 * b.ancb.toNat

/-- R168: the value of a header field, zero-extended. -/
def Bank.get (b : Bank) : HdrField → Word
  | .version => b.version.setWidth 64
  | .type => b.type.setWidth 64
  | .shf => b.shf.setWidth 64
  | .apid => b.apid.setWidth 64
  | .seqflags => b.seqflags.setWidth 64
  | .seqcount => b.seqcount.setWidth 64
  | .length => b.length.setWidth 64
  | .tc => b.tc
  | .anc => b.anc

/-- Write of a header register with a value that fits it: the low bits of `v` (R12). -/
def Bank.put (b : Bank) (fld : HdrField) (v : Word) : Bank :=
  match fld with
  | .version => { b with version := v.setWidth 3 }
  | .type => { b with type := v.setWidth 1 }
  | .shf => { b with shf := v.setWidth 1 }
  | .apid => { b with apid := v.setWidth 11 }
  | .seqflags => { b with seqflags := v.setWidth 2 }
  | .seqcount => { b with seqcount := v.setWidth 14 }
  | .length => { b with length := v.setWidth 16 }
  | .tc => { b with tc := v }
  | .anc => { b with anc := v }

/-- The nine value registers of a bank at 0, the two widths kept (R192) or set (R166). -/
def Bank.cleared (tcb ancb : BitVec 4) : Bank := { Bank.zero with tcb := tcb, ancb := ancb }

/-- R171: `is_idle()`. -/
def Bank.isIdle (b : Bank) : Bool := b.apid = Config.idleApid

/-- R172: `is_valid()` of a primary header. -/
def Bank.isValid (b : Bank) : Bool := !(b.isIdle && b.shf = 1)

/-- R11, `reply`: 1 for a condition that holds, else 0. -/
def boolWord (b : Bool) : Word := if b then 1 else 0

/-- The indices of the schema, `0 .. NFLD-1` in index order (R36, log 15). -/
def State.schema (s : State) : List (Fin 16) := (List.finRange 16).take s.nfld.toNat

/-- R36: `colw`, the sum of the widths of the schema's fields. -/
def State.colw (s : State) : Nat := (s.schema.map fun f => s.fd[f].w.toNat).sum

/-- R191: `user_bits`. -/
def State.userBits (s : State) : Nat := s.aw.cursor.toNat

/-- R191: `user_bytes = ceil(user_bits / 8)`. -/
def State.userBytes (s : State) : Nat := ceilDiv s.userBits 8

/-- R191: `total = 6 + sec + user_bytes`. -/
def State.asmTotal (s : State) : Nat := Config.phBytes + s.bankA.secSize + s.userBytes

/-- R231: the dissector's shape check. -/
def State.shapeOk (s : State) : Bool := s.colw % 8 = 0 && (0 < s.colw || 0 < s.bankD.secSize)

/-- R232: `dsize = 6 + sec_size(D) + colw / 8`. -/
def State.dsize (s : State) : Nat := Config.phBytes + s.bankD.secSize + s.colw / 8

end Sys2Proof.Machine
end

