-- ==== Sys2Proof/Machine/Ops.lean ====
section
/-! DEFINITION. The shared operations: MEM (R11, R21, R60), the codec procedures `put` and `get`
(R102, R106), the multi-put and multi-get procedures (R113, R143, R144, R162 to R165), the ending of a
command, and the REFUSAL of a command (R262), which stands where another machine takes an exception:
the engine has no trap entry (R271) and no trap return (R272). -/

namespace Sys2Proof.Machine

/-! ### Memory -/

/-- The octet listed at an address, if one is. -/
def lookupCell (a : Nat) : List Host.Cell → Option Byte
  | [] => none
  | (b, v) :: rest => if b = a then some v else lookupCell a rest

/-- List an octet at an address, in address order, in place of the one listed there before. -/
def storeCell (a : Nat) (v : Byte) : List Host.Cell → List Host.Cell
  | [] => [(a, v)]
  | (b, w) :: rest =>
    if a < b then (a, v) :: (b, w) :: rest
    else if a = b then (a, v) :: rest
    else (b, w) :: storeCell a v rest

/-- What the octet at an address holds: the last octet written there, or its free value (log 2). -/
def Memory.octet (m : Memory) (a : Nat) : Byte :=
  (lookupCell a m.cells).getD (Config.powerOnOctet a)

/-- `MEM[a] <- v`, for an address of MEM. -/
def Memory.set (m : Memory) (a : Nat) (v : Byte) : Memory :=
  { m with cells := storeCell a v m.cells }

/-- R11: `MemRead(addr, 1)`. -/
def memRead (m : Memory) (a : Nat) : Except Fault Byte :=
  if a < m.size then .ok (m.octet a) else .error (.outsideMem a)

/-- R11: `MemWrite(addr, 1, v)`. -/
def memWrite (m : Memory) (a : Nat) (v : Byte) : Except Fault Memory :=
  if a < m.size then .ok (m.set a v) else .error (.outsideMem a)

/-- Octets written in increasing address order (R68). -/
def memWriteList (m : Memory) (a : Nat) : List Byte → Except Fault Memory
  | [] => .ok m
  | v :: vs => do memWriteList (← memWrite m a v) (a + 1) vs

/-- The big-endian value of `n` octets (R165), the octets read before them being `acc`. -/
def memReadBE (m : Memory) (a : Nat) (acc : Word) : Nat → Except Fault Word
  | 0 => .ok acc
  | n + 1 => do memReadBE m (a + 1) ((acc <<< 8) ||| (← memRead m a).setWidth 64) n

/-- The `n` low octets of a value, most significant first (R165). -/
def octetsBE (v : Word) : Nat → List Byte
  | 0 => []
  | n + 1 => (v >>> (8 * n)).setWidth 8 :: octetsBE v n

/-! ### The codec procedures -/

/-- The `n` low octets of a value in reverse order. -/
def swapOctets (v : Word) : Nat → Word
  | 0 => 0
  | n + 1 => ((v &&& 0xFF) <<< (8 * n)) ||| swapOctets (v >>> 8) n

/-- R11: `bswap(v, W)`: octet `j` of the result is octet `W/8 - 1 - j` of `v`. -/
def bswap (v : Word) (W : Nat) : Word := swapOctets v (W / 8)

/-- R61: the address of the octet under a cursor. -/
def Cursor.addr (cu : Cursor) : Nat := cu.base.toNat + cu.cursor.toNat / 8

/-- R61: the cursor's place in that octet, counted from its most significant bit. -/
def Cursor.phase (cu : Cursor) : Nat := cu.cursor.toNat % 8

/-- The cursor one bit further. -/
def Cursor.advance (cu : Cursor) : Cursor := { cu with cursor := cu.cursor + 1 }

/-- One turn of the loop of `put` (R102): the octet is cleared when it is entered at its first bit,
and the bit is ORed in at `7 - p` (R67). -/
def putBit (bit : Bool) (mc : Memory × Cursor) : Except Fault (Memory × Cursor) := do
  let a := mc.2.addr
  let m ← if mc.2.phase = 0 then memWrite mc.1 a 0 else pure mc.1
  let old ← memRead m a
  let m ← memWrite m a (old ||| ((bitOf bit).setWidth 8 <<< (7 - mc.2.phase)))
  pure (m, mc.2.advance)

/-- The loop of `put` (R102): bits `k-1` downto 0 of `x`. -/
def putBits (x : Word) : Nat → Memory × Cursor → Except Fault (Memory × Cursor)
  | 0, mc => .ok mc
  | k + 1, mc => do putBits x k (← putBit (x.getLsbD k) mc)

/-- R103: a precondition of `put` or `get` is violated. -/
def violates (cu : Cursor) (W U : Nat) : Bool :=
  U < W || 8 * cu.size.toNat < cu.cursor.toNat + W

/-- R102: `put(c, v, W, U, le)` through a cursor. -/
def putProc (v : Word) (W U : Nat) (le : Bool) (mc : Memory × Cursor) :
    Except Fault (Memory × Cursor) :=
  if mc.2.bad then .ok mc
  else if W = 0 then .ok mc
  else if violates mc.2 W U then .ok (mc.1, mc.2.setBad)
  else putBits (if le then bswap (v &&& mask W) W else v &&& mask W) W mc

/-- The loop of `get` (R106), `k` bits to go, the bits read so far in `x`. -/
def getBits (m : Memory) : Nat → Word × Cursor → Except Fault (Word × Cursor)
  | 0, xc => .ok xc
  | k + 1, xc => do
    let o ← memRead m xc.2.addr
    getBits m k ((xc.1 <<< 1) ||| (bitOf (o.getLsbD (7 - xc.2.phase))).setWidth 64, xc.2.advance)

/-- R106: `get(c, W, U, le)` through a cursor: `none` or a value, and the cursor afterwards. -/
def getProc (m : Memory) (W U : Nat) (le : Bool) (cu : Cursor) : Except Fault (Option Word × Cursor) :=
  if cu.bad then .ok (none, cu)
  else if W = 0 then .ok (none, cu)
  else if violates cu W U then .ok (none, cu.setBad)
  else do
    let (x, cu) ← getBits m W (0, cu)
    pure (some (if le then bswap x W else x), cu)

/-! ### Procedures made of several puts or gets -/

/-- The whole octets of `CUR.APPEND` (R113): octets `j, j+1, …` of the source's window, each read just
before it is put. -/
def appendOctets (src : Cursor) : Nat → Nat → Memory × Cursor → Except Fault (Memory × Cursor)
  | 0, _, mc => .ok mc
  | k + 1, j, mc => do
    let o ← memRead mc.1 (src.base.toNat + j)
    appendOctets src k (j + 1) (← putProc (o.setWidth 64) 8 8 false mc)

/-- R113: the copy of `CUR.APPEND`, whole octets and then the residue, the high bits of the last
octet. -/
def appendStream (src : Cursor) (mc : Memory × Cursor) : Except Fault (Memory × Cursor) := do
  let n := src.cursor.toNat
  let mc ← appendOctets src (n / 8) 0 mc
  if n % 8 = 0 then pure mc
  else
    let o ← memRead mc.1 (src.base.toNat + n / 8)
    putProc ((o >>> (8 - n % 8)).setWidth 64) (n % 8) 8 false mc

/-- One put of a field (R140). -/
def putField (fd : FieldDesc) (v : Word) (mc : Memory × Cursor) : Except Fault (Memory × Cursor) :=
  putProc v fd.w.toNat (sizeBits fd.sz) fd.le mc

/-- One get of a field (R141). -/
def getField (fd : FieldDesc) (m : Memory) (cu : Cursor) : Except Fault (Option Word × Cursor) :=
  getProc m fd.w.toNat (sizeBits fd.sz) fd.le cu

/-- R143: the fields of a schema, put in order. -/
def serFields (fd : Vector FieldDesc 16) (fv : Vector Word 16) :
    List (Fin 16) → Memory × Cursor → Except Fault (Memory × Cursor)
  | [], mc => .ok mc
  | f :: rest, mc => do serFields fd fv rest (← putField fd[f] fv[f] mc)

/-- R144: the fields of a schema, got in order; a get that returns nothing leaves its field. -/
def desFields (fd : Vector FieldDesc 16) (m : Memory) :
    List (Fin 16) → Vector Word 16 × Cursor → Except Fault (Vector Word 16 × Cursor)
  | [], vc => .ok vc
  | f :: rest, vc => do
    let (r, cu) ← getField fd[f] m vc.2
    desFields fd m rest ((match r with | some v => vc.1.set f v | none => vc.1), cu)

/-- R162: the fields of the primary header in order, with their containers. -/
def phLayout : List (HdrField × Nat × Nat) :=
  [(.version, 3, 8), (.type, 1, 8), (.shf, 1, 8), (.apid, 11, 16), (.seqflags, 2, 8),
   (.seqcount, 14, 16), (.length, 16, 16)]

/-- R164: the secondary header, time code first, each as one 64-bit container. -/
def shLayout (b : Bank) : List (HdrField × Nat × Nat) :=
  [(.tc, hdrWidth b .tc, 64), (.anc, hdrWidth b .anc, 64)]

/-- `ph_ser`, `sh_ser` (R162, R164): the fields of a layout, put in order, big-endian. -/
def serHeader (b : Bank) :
    List (HdrField × Nat × Nat) → Memory × Cursor → Except Fault (Memory × Cursor)
  | [], mc => .ok mc
  | (fld, W, U) :: rest, mc => do serHeader b rest (← putProc (b.get fld) W U false mc)

/-- `ph_des`, `sh_des` (R163, R164): the fields of a layout, got in order; a get that returns nothing
leaves its register. -/
def desHeader (m : Memory) :
    List (HdrField × Nat × Nat) → Bank × Cursor → Except Fault (Bank × Cursor)
  | [], bc => .ok bc
  | (fld, W, U) :: rest, bc => do
    let (r, cu) ← getProc m W U false bc.2
    desHeader m rest ((match r with | some v => bc.1.put fld v | none => bc.1), cu)

/-- R161: `pack48(u)`. -/
def pack48 (b : Bank) : BitVec 48 :=
  b.version ++ b.type ++ b.shf ++ b.apid ++ b.seqflags ++ b.seqcount ++ b.length

/-- R161: `unpack48(u, p)`, the seven registers from the slices of `p`. -/
def unpack48 (b : Bank) (p : BitVec 48) : Bank :=
  { b with
    version := p.extractLsb' 45 3, type := p.extractLsb' 44 1, shf := p.extractLsb' 43 1
    apid := p.extractLsb' 32 11, seqflags := p.extractLsb' 30 2, seqcount := p.extractLsb' 16 14
    length := p.extractLsb' 0 16 }

/-- The octets of a bank's headers (R165): six of the primary header, then the time code, then the
ancillary value. -/
def headerOctets (b : Bank) : List Byte :=
  octetsBE ((pack48 b).setWidth 64) 6 ++ octetsBE b.tc b.tcb.toNat ++ octetsBE b.anc b.ancb.toNat

/-- R165: `hdr_store(u, base)`. -/
def hdrStore (b : Bank) (base : Nat) (m : Memory) : Except Fault Memory :=
  memWriteList m base (headerOctets b)

/-- R165: `hdr_load(u, base)`. -/
def hdrLoad (b : Bank) (base : Nat) (m : Memory) : Except Fault Bank := do
  let p ← memReadBE m base 0 6
  let tc ← memReadBE m (base + 6) 0 b.tcb.toNat
  let anc ← memReadBE m (base + 6 + b.tcb.toNat) 0 b.ancb.toNat
  pure { unpack48 b (p.setWidth 48) with tc := tc, anc := anc }

/-- R194: octet `j` of the idle fill, octet `j mod P` of the pattern counted from its most significant
octet. -/
def idleOctet (idle : IdleCfg) (j : Nat) : Word :=
  (idle.pat >>> (8 * (sizeOctets idle.ps - 1 - j % sizeOctets idle.ps))) &&& 0xFF

/-- R194: the fill loop of `ASM.BEGINIDLE`, `k` octets from octet `j` on. -/
def fillIdle (idle : IdleCfg) : Nat → Nat → Memory × Cursor → Except Fault (Memory × Cursor)
  | 0, _, mc => .ok mc
  | k + 1, j, mc => do fillIdle idle k (j + 1) (← putProc (idleOctet idle j) 8 8 false mc)

/-! ### How a command ends -/

/-- What `exec` answers. -/
abbrev Result := Host.Outcome State Fault Refusal

/-- R262: `raise Refuse(code)`: `LAST` takes the code and `ESR` its bit, nothing else changes, and the
next command executes normally (R271: nothing is saved and control goes nowhere else). -/
def refuse (st : Status) (s : State) : Result := .next (recordStatus st s)

/-- R260: the command did what its rule says; status OK. -/
def complete (s : State) : Result := .next (recordStatus .ok s)

/-- R11: `reply(v)`, and the command completes. -/
def reply (v : Word) (s : State) : Result := complete { s with dout := v }

/-- A command whose procedure reached MEM: it completes with what `k` makes of the result. -/
def completeWith {α : Type} (r : Except Fault α) (k : α → State) : Result :=
  match r with
  | .ok x => complete (k x)
  | .error f => .fault f

/-- A command that writes the stream through cursor `c`: MEM and the cursor take the result. -/
def throughWriter (s : State) (c : CurSel)
    (proc : Memory × Cursor → Except Fault (Memory × Cursor)) : Result :=
  completeWith (proc (s.mem, s.cur c)) fun mc => { s with mem := mc.1 }.setCur c mc.2

end Sys2Proof.Machine
end

