-- ==== Sys2Proof/Machine/BitCursor.lean ====
section
/-! DEFINITION. The bit cursor commands (41_bitcursor.md). -/

namespace Sys2Proof.Machine

/-- `CUR.ATTACH` (R110). -/
def execCurAttach (c : CurSel) (win : Window) (s : State) : Result :=
  if !attachable c then refuse .errIllegal s
  else if !inMem s win then refuse .errRange s
  else complete (s.setCur c (attached win.base.toNat win.size.toNat))

/-- `CUR.PUT` (R111): status OK whether or not the put succeeded. -/
def execCurPut (sz : Size) (le : Bool) (w : BitVec 7) (c : CurSel) (v : Word) (s : State) : Result :=
  if !writable c then refuse .errIllegal s
  else if leIllegal le w.toNat then refuse .errIllegal s
  else throughWriter s c (putProc v w.toNat (sizeBits sz) le)

/-- `CUR.GET` (R112): a get that returns nothing leaves `DOUT`. -/
def execCurGet (sz : Size) (le : Bool) (w : BitVec 7) (c : CurSel) (s : State) : Result :=
  if !readable c then refuse .errIllegal s
  else if leIllegal le w.toNat then refuse .errIllegal s
  else completeWith (getProc s.mem w.toNat (sizeBits sz) le (s.cur c)) fun rc =>
    { s with dout := rc.1.getD s.dout }.setCur c rc.2

/-- `CUR.APPEND` (R113): a self-append sets `bad` and copies nothing. -/
def execCurAppend (dst src : CurSel) (s : State) : Result :=
  if !writable dst then refuse .errIllegal s
  else if dst = src then complete (s.setCur dst (s.cur dst).setBad)
  else throughWriter s dst (appendStream (s.cur src))

/-- `CUR.POS` (R114). -/
def execCurPos (c : CurSel) (s : State) : Result := reply ((s.cur c).cursor.setWidth 64) s

/-- `CUR.BYTES` (R115). -/
def execCurBytes (c : CurSel) (s : State) : Result := reply (BitVec.ofNat 64 (s.cur c).sizeBytes) s

/-- `CUR.BAD` (R116): the flag is not cleared. -/
def execCurBad (c : CurSel) (s : State) : Result := reply (boolWord (s.cur c).bad) s

/-- `CUR.CAP` (R117). -/
def execCurCap (c : CurSel) (s : State) : Result := reply ((s.cur c).size.setWidth 64) s

end Sys2Proof.Machine
end

