-- ==== Sys2Proof/Machine/FieldFile.lean ====
section
/-! DEFINITION. The field and collection commands (42_field.md). -/

namespace Sys2Proof.Machine

/-- R131: field `f` was never configured. -/
def unconfigured (s : State) (f : Fin 16) : Bool := s.fd[f].w = 0

/-- R132: the shapes `FLD.CFG` refuses. -/
def badShape (sz : Size) (le : Bool) (w : BitVec 7) : Bool :=
  w = 0 || sizeBits sz < w.toNat || leIllegal le w.toNat

/-- `FLD.CFG` (R132): a new shape, value 0. -/
def execFldCfg (sz : Size) (le : Bool) (w : BitVec 7) (f : Fin 16) (s : State) : Result :=
  if badShape sz le w then refuse .errShape s
  else complete ({ s with fd := s.fd.set f { w := w, sz := sz, le := le } }.setFv f 0)

/-- `FLD.NFLD` (R133): every field below the count must be configured. -/
def execFldNfld (n : Fin 17) (s : State) : Result :=
  if ((List.finRange 16).take n).any (unconfigured s) then refuse .errShape s
  else complete { s with nfld := BitVec.ofNat 5 n }

/-- `FLD.SET` (R134). -/
def execFldSet (f : Fin 16) (v : Word) (s : State) : Result :=
  if unconfigured s f then refuse .errShape s
  else complete (s.setFv f (v &&& mask s.fd[f].w.toNat))

/-- `FLD.GET` (R135). -/
def execFldGet (f : Fin 16) (s : State) : Result :=
  if unconfigured s f then refuse .errShape s else reply s.fv[f] s

/-- `FLD.INC` (R136): modulo `2^w`. -/
def execFldInc (f : Fin 16) (s : State) : Result :=
  if unconfigured s f then refuse .errShape s
  else complete (s.setFv f ((s.fv[f] + 1) &&& mask s.fd[f].w.toNat))

/-- `FLD.DEC` (R137): `(FV + 2^w - 1) mod 2^w`. -/
def execFldDec (f : Fin 16) (s : State) : Result :=
  if unconfigured s f then refuse .errShape s
  else complete (s.setFv f ((s.fv[f] + mask s.fd[f].w.toNat) &&& mask s.fd[f].w.toNat))

/-- `FLD.GETBIT` (R138): the shape check comes before the bit-index check (R266). -/
def execFldGetbit (b : BitVec 7) (f : Fin 16) (s : State) : Result :=
  if unconfigured s f then refuse .errShape s
  else if s.fd[f].w.toNat ≤ b.toNat then refuse .errIllegal s
  else reply (boolWord (s.fv[f].getLsbD b.toNat)) s

/-- `FLD.SETBIT` (R139). -/
def execFldSetbit (b : BitVec 7) (f : Fin 16) (bit : Bool) (s : State) : Result :=
  if unconfigured s f then refuse .errShape s
  else if s.fd[f].w.toNat ≤ b.toNat then refuse .errIllegal s
  else complete
    (s.setFv f ((s.fv[f] &&& ~~~((1 : Word) <<< b.toNat)) ||| (boolWord bit <<< b.toNat)))

/-- `FLD.SER` (R140). -/
def execFldSer (c : CurSel) (f : Fin 16) (s : State) : Result :=
  if !writable c then refuse .errIllegal s
  else if unconfigured s f then refuse .errShape s
  else throughWriter s c (putField s.fd[f] s.fv[f])

/-- `FLD.DES` (R141): a get that returns nothing leaves the field. -/
def execFldDes (c : CurSel) (f : Fin 16) (s : State) : Result :=
  if !readable c then refuse .errIllegal s
  else if unconfigured s f then refuse .errShape s
  else completeWith (getField s.fd[f] s.mem (s.cur c)) fun rc =>
    (s.setFv f (rc.1.getD s.fv[f])).setCur c rc.2

/-- `FLD.WIDTH` (R142): 0 for an unconfigured descriptor. -/
def execFldWidth (f : Fin 16) (s : State) : Result := reply (s.fd[f].w.setWidth 64) s

/-- `COL.SER` (R143). -/
def execColSer (c : CurSel) (s : State) : Result :=
  if !writable c then refuse .errIllegal s
  else throughWriter s c (serFields s.fd s.fv s.schema)

/-- `COL.DES` (R144). -/
def execColDes (c : CurSel) (s : State) : Result :=
  if !readable c then refuse .errIllegal s
  else completeWith (desFields s.fd s.mem s.schema (s.fv, s.cur c)) fun vc =>
    { s with fv := vc.1 }.setCur c vc.2

/-- `COL.WIDTH` (R145). -/
def execColWidth (s : State) : Result := reply (BitVec.ofNat 64 s.colw) s

end Sys2Proof.Machine
end

