-- ==== Sys2Proof/Machine/Header.lean ====
section
/-! DEFINITION. The header commands (43_header.md). -/

namespace Sys2Proof.Machine

/-- R166: what `HDR.CFGSH` returns to reset beside the bank: the assembler's window and `AW` for bank A,
`XR` for bank X, nothing for bank D. -/
def resetUnit (s : State) : BankSel → State
  | .a => { s with asm := { base := 0, size := 0, active := false }, aw := Cursor.zero }
  | .x => { s with xr := Cursor.zero }
  | .d => s

/-- `HDR.CFGSH` (R166). -/
def execHdrCfgsh (u : BankSel) (tcb ancb : BitVec 4) (s : State) : Result :=
  if 8 < tcb.toNat || 8 < ancb.toNat then refuse .errIllegal s
  else complete (resetUnit (s.setBank u (Bank.cleared tcb ancb)) u)

/-- `HDR.SET` (R167): the value is masked to the field's width. -/
def execHdrSet (u : BankSel) (fld : HdrField) (v : Word) (s : State) : Result :=
  complete (s.setBank u ((s.bank u).put fld (v &&& mask (hdrWidth (s.bank u) fld))))

/-- `HDR.GET` (R168). -/
def execHdrGet (u : BankSel) (fld : HdrField) (s : State) : Result := reply ((s.bank u).get fld) s

/-- `HDR.LENOCT` (R169): 1 to 65536, not reduced to 16 bits. -/
def execHdrLenoct (u : BankSel) (s : State) : Result :=
  reply ((s.bank u).length.setWidth 64 + 1) s

/-- `HDR.SETLENOCT` (R170). -/
def execHdrSetlenoct (u : BankSel) (v : Word) (s : State) : Result :=
  if v = 0 then refuse .errIllegal s
  else complete (s.setBank u { s.bank u with length := (v - 1).setWidth 16 })

/-- `HDR.ISIDLE` (R171). -/
def execHdrIsidle (u : BankSel) (s : State) : Result := reply (boolWord (s.bank u).isIdle) s

/-- `HDR.ISVALID` (R172). -/
def execHdrIsvalid (u : BankSel) (s : State) : Result := reply (boolWord (s.bank u).isValid) s

/-- `PH.SER` (R173, R162). -/
def execPhSer (u : BankSel) (c : CurSel) (s : State) : Result :=
  if !writable c then refuse .errIllegal s
  else throughWriter s c (serHeader (s.bank u) phLayout)

/-- `PH.DES` (R174, R163). -/
def execPhDes (u : BankSel) (c : CurSel) (s : State) : Result :=
  if !readable c then refuse .errIllegal s
  else completeWith (desHeader s.mem phLayout (s.bank u, s.cur c)) fun bc =>
    (s.setBank u bc.1).setCur c bc.2

/-- `SH.SER` (R175, R164). -/
def execShSer (u : BankSel) (c : CurSel) (s : State) : Result :=
  if !writable c then refuse .errIllegal s
  else throughWriter s c (serHeader (s.bank u) (shLayout (s.bank u)))

/-- `SH.DES` (R176, R164). -/
def execShDes (u : BankSel) (c : CurSel) (s : State) : Result :=
  if !readable c then refuse .errIllegal s
  else completeWith (desHeader s.mem (shLayout (s.bank u)) (s.bank u, s.cur c)) fun bc =>
    (s.setBank u bc.1).setCur c bc.2

end Sys2Proof.Machine
end

