-- ==== Sys2Proof/Machine/Packet.lean ====
section
/-! DEFINITION. The packet commands: assembler (44_assembler.md), extractor (45_extractor.md) and
dissector (46_dissector.md). -/

namespace Sys2Proof.Machine

/-- R192, R194: the window is carved into the headers and the user data, and `AW` is attached to the
user data. -/
def carve (win : Window) (b : Bank) (s : State) : State :=
  { s with
    bankA := b
    asm := { base := win.base, size := win.size, active := true }
    aw := attached (win.base.toNat + Config.phBytes + b.secSize)
      (win.size.toNat - Config.phBytes - b.secSize) }

/-- `ASM.BEGIN` (R192). -/
def execAsmBegin (win : Window) (s : State) : Result :=
  if !inMem s win then refuse .errRange s
  else if win.size.toNat < Config.phBytes + s.bankA.secSize then refuse .errRange s
  else complete (carve win (Bank.cleared s.bankA.tcb s.bankA.ancb) s)

/-- `ASM.CFGIDLE` (R193). -/
def execAsmCfgidle (sz : Size) (v : Word) (s : State) : Result :=
  complete { s with idle := { pat := v &&& mask (sizeBits sz), ps := sz } }

/-- `ASM.BEGINIDLE` (R194): an empty secondary header, the idle APID, and the fill through `AW`. -/
def execAsmBeginidle (win : Window) (s : State) : Result :=
  if !inMem s win then refuse .errRange s
  else if win.size.toNat < Config.phBytes then refuse .errRange s
  else
    let s := carve win { Bank.cleared 0 0 with apid := Config.idleApid } s
    throughWriter s .aw (fillIdle s.idle (win.size.toNat - Config.phBytes) 0)

/-- R196: the two registers a finalize assigns, for `octets` octets of packet data field; the
subtraction is done in naturals and then reduced to 16 bits (-1 gives `0xFFFF`). -/
def finalizedBank (b : Bank) (octets : Nat) : Bank :=
  { b with
    shf := bitOf (0 < b.secSize)
    length := BitVec.ofNat 16 octets - 1 }

/-- `ASM.FINALIZE` (R196). -/
def execAsmFinalize (s : State) : Result :=
  if !s.asm.active then refuse .errState s
  else
    let b := finalizedBank s.bankA (s.bankA.secSize + s.userBytes)
    completeWith (hdrStore b s.asm.base.toNat s.mem) fun m => { s with bankA := b, mem := m }

/-- `ASM.SIZE` (R199). -/
def execAsmSize (s : State) : Result := reply (BitVec.ofNat 64 s.asmTotal) s

/-- R200: the seven conditions, v1 to v7 in order. -/
def asmValid (s : State) : Bool :=
  let sec := s.bankA.secSize
  let idle := s.bankA.isIdle
  (0 < sec || 0 < s.userBits)
  && s.userBits % 8 = 0
  && (Config.pktMin ≤ s.asmTotal && s.asmTotal ≤ Config.pktMax)
  && decide (s.bankA.shf = 1) = decide (0 < sec)
  && !(idle && 0 < sec)
  && s.bankA.length.toNat + 1 = sec + s.userBytes
  && !(idle && s.bankA.shf = 1)

/-- `ASM.VALID` (R200). -/
def execAsmValid (s : State) : Result := reply (boolWord (asmValid s)) s

/-- `EXT.OPEN` (R221). -/
def execExtOpen (win : Window) (s : State) : Result :=
  if !inMem s win then refuse .errRange s
  else if win.size.toNat < Config.phBytes + s.bankX.secSize then refuse .errRange s
  else completeWith (hdrLoad s.bankX win.base.toNat s.mem) fun b =>
    { s with
      bankX := b
      xr := attached (win.base.toNat + Config.phBytes + s.bankX.secSize)
        (win.size.toNat - Config.phBytes - s.bankX.secSize) }

/-- R233, R234: the private cursor `T` over the user data of the dissector's window. -/
def userCursor (s : State) (win : Window) : Cursor :=
  attached (win.base.toNat + Config.phBytes + s.bankD.secSize) (s.colw / 8)

/-- `DIS.FROMBUF` (R233). -/
def execDisFrombuf (win : Window) (s : State) : Result :=
  if !s.shapeOk then refuse .errShape s
  else if !inMem s win then refuse .errRange s
  else if win.size.toNat < s.dsize then refuse .errRange s
  else
    completeWith
      (do
        let b ← hdrLoad s.bankD win.base.toNat s.mem
        let vc ← desFields s.fd s.mem s.schema (s.fv, userCursor s win)
        pure (b, vc.1))
      fun bv => { s with bankD := bv.1, fv := bv.2 }

/-- `DIS.TOBUF` (R234): the header registers as they stand, then the fields. -/
def execDisTobuf (win : Window) (s : State) : Result :=
  if !s.shapeOk then refuse .errShape s
  else if !inMem s win then refuse .errRange s
  else if win.size.toNat < s.dsize then refuse .errRange s
  else
    completeWith
      (do
        let m ← hdrStore s.bankD win.base.toNat s.mem
        serFields s.fd s.fv s.schema (m, userCursor s win))
      fun mc => { s with mem := mc.1 }

/-- `DIS.FINALIZE` (R235): the two registers only. -/
def execDisFinalize (s : State) : Result :=
  if !s.shapeOk then refuse .errShape s
  else complete { s with bankD := finalizedBank s.bankD (s.bankD.secSize + s.colw / 8) }

/-- `DIS.SIZE` (R236). -/
def execDisSize (s : State) : Result :=
  if !s.shapeOk then refuse .errShape s else reply (BitVec.ofNat 64 s.dsize) s

end Sys2Proof.Machine
end

