-- ==== Sys2Proof/Machine/System.lean ====
section
/-! DEFINITION. The system commands (47_system.md). -/

namespace Sys2Proof.Machine

/-- `NOP` (R250): no register and no octet changes except `LAST <- OK`. -/
def execNop (s : State) : Result := complete s

/-- `SYS.ESR` (R251): reply `{LAST, ESR}`, `LAST` read before this command overwrites it. -/
def execSysEsr (s : State) : Result := reply ((s.last ++ s.esr).setWidth 64) s

end Sys2Proof.Machine
end

