-- ==== Sys2Proof/Machine/Dispatch.lean ====
section
/-! DEFINITION. One arm per command of R86. -/

namespace Sys2Proof.Machine

def exec (i : Instr) (s : State) : Host.Outcome State Fault Refusal :=
  match i with
  | .nop => Sys2Proof.Machine.execNop s
  | .sysEsr => Sys2Proof.Machine.execSysEsr s
  | .curAttach c win => Sys2Proof.Machine.execCurAttach c win s
  | .curPut sz le w c v => Sys2Proof.Machine.execCurPut sz le w c v s
  | .curGet sz le w c => Sys2Proof.Machine.execCurGet sz le w c s
  | .curAppend dst src => Sys2Proof.Machine.execCurAppend dst src s
  | .curPos c => Sys2Proof.Machine.execCurPos c s
  | .curBytes c => Sys2Proof.Machine.execCurBytes c s
  | .curBad c => Sys2Proof.Machine.execCurBad c s
  | .curCap c => Sys2Proof.Machine.execCurCap c s
  | .fldCfg sz le w f => Sys2Proof.Machine.execFldCfg sz le w f s
  | .fldNfld n => Sys2Proof.Machine.execFldNfld n s
  | .fldSet f v => Sys2Proof.Machine.execFldSet f v s
  | .fldGet f => Sys2Proof.Machine.execFldGet f s
  | .fldInc f => Sys2Proof.Machine.execFldInc f s
  | .fldDec f => Sys2Proof.Machine.execFldDec f s
  | .fldGetbit b f => Sys2Proof.Machine.execFldGetbit b f s
  | .fldSetbit b f bit => Sys2Proof.Machine.execFldSetbit b f bit s
  | .fldSer c f => Sys2Proof.Machine.execFldSer c f s
  | .fldDes c f => Sys2Proof.Machine.execFldDes c f s
  | .fldWidth f => Sys2Proof.Machine.execFldWidth f s
  | .colSer c => Sys2Proof.Machine.execColSer c s
  | .colDes c => Sys2Proof.Machine.execColDes c s
  | .colWidth => Sys2Proof.Machine.execColWidth s
  | .hdrCfgsh u tcb ancb => Sys2Proof.Machine.execHdrCfgsh u tcb ancb s
  | .hdrSet u fld v => Sys2Proof.Machine.execHdrSet u fld v s
  | .hdrGet u fld => Sys2Proof.Machine.execHdrGet u fld s
  | .hdrLenoct u => Sys2Proof.Machine.execHdrLenoct u s
  | .hdrSetlenoct u v => Sys2Proof.Machine.execHdrSetlenoct u v s
  | .hdrIsidle u => Sys2Proof.Machine.execHdrIsidle u s
  | .hdrIsvalid u => Sys2Proof.Machine.execHdrIsvalid u s
  | .phSer u c => Sys2Proof.Machine.execPhSer u c s
  | .phDes u c => Sys2Proof.Machine.execPhDes u c s
  | .shSer u c => Sys2Proof.Machine.execShSer u c s
  | .shDes u c => Sys2Proof.Machine.execShDes u c s
  | .asmBegin win => Sys2Proof.Machine.execAsmBegin win s
  | .asmBeginidle win => Sys2Proof.Machine.execAsmBeginidle win s
  | .asmCfgidle sz v => Sys2Proof.Machine.execAsmCfgidle sz v s
  | .asmFinalize => Sys2Proof.Machine.execAsmFinalize s
  | .asmSize => Sys2Proof.Machine.execAsmSize s
  | .asmValid => Sys2Proof.Machine.execAsmValid s
  | .extOpen win => Sys2Proof.Machine.execExtOpen win s
  | .disFrombuf win => Sys2Proof.Machine.execDisFrombuf win s
  | .disTobuf win => Sys2Proof.Machine.execDisTobuf win s
  | .disFinalize => Sys2Proof.Machine.execDisFinalize s
  | .disSize => Sys2Proof.Machine.execDisSize s

end Sys2Proof.Machine
end

