-- ==== Sys2Proof/Machine/Port.lean ====
section
/-! DEFINITION. The ports (R50): how a move of the host meets the engine. A command is decoded (R88),
executed atomically (R20) and answered with one response (R51); the host writes MEM between commands
(R72); `rst_n` resets the registers and not MEM (R41, R45), and a command it cuts short leaves
unspecified octets (R300, U5). -/

namespace Sys2Proof.Machine

/-- R87, R88: a pair that is no command is refused with `ERR_ILLEGAL`; a command is executed. -/
def runCommand (cw : CmdWord) (arg : Word) (s : State) : Result :=
  match decode cw arg with
  | .ok i => exec i s
  | .error _ => refuse .errIllegal s

/-- R51: one response, the command's status and `DOUT` after it. -/
def respond (s : State) : State :=
  { s with rsp := s.rsp ++ [{ status := s.last, data := s.dout }] }

/-- R48, R50: the next pending move is taken. -/
def takeMove (rest : List HostMove) (s : State) : State := { s with input := rest }

/-- R48: the position in the command stream advances by one for each command. -/
def countCommand (s : State) : State := { s with pos := s.pos + 1 }

/-- A command is accepted, runs to completion and is answered. -/
def acceptCommand (cw : CmdWord) (arg : Word) (s : State) : Result :=
  match runCommand cw arg (countCommand s) with
  | .next t => .next (respond t)
  | .fault f => .fault f
  | .refused r => .refused r

/-- R72: the host writes one octet of MEM; outside MEM there is no octet (R60). -/
def hostPoke (a : Nat) (v : Byte) (s : State) : Result :=
  match memWrite s.mem a v with
  | .ok m => .next { s with mem := m }
  | .error _ => .fault (.hostOutsideMem a)

/-- R41, R300: every register takes its reset value, MEM keeps its content. -/
def assertReset (s : State) : State := State.afterReset s.mem s.input s.pos s.rsp s.freeNext

/-- R66: the octets between two positions of one cursor. -/
def cursorSpan (before after : Cursor) : List Nat :=
  if after.cursor = before.cursor then []
  else List.range' before.addr (after.sizeBytes - before.cursor.toNat / 8)

/-- R66: the octets command `i` writes, from the state before it and the state after it. A refused
command writes none (R262). -/
def writtenOctets (i : Instr) (s t : State) : List Nat :=
  if t.last ≠ 0 then []
  else match i with
  | .curPut _ _ _ c _ | .curAppend c _ | .fldSer c _ | .colSer c | .phSer _ c | .shSer _ c =>
      cursorSpan (s.cur c) (t.cur c)
  | .asmBeginidle win => List.range' (win.base.toNat + Config.phBytes) (win.size.toNat - Config.phBytes)
  | .asmFinalize => List.range' s.asm.base.toNat (Config.phBytes + s.bankA.secSize)
  | .disTobuf win => List.range' win.base.toNat s.dsize
  | .nop | .sysEsr | .curAttach .. | .curGet .. | .curPos .. | .curBytes .. | .curBad .. | .curCap ..
  | .fldCfg .. | .fldNfld .. | .fldSet .. | .fldGet .. | .fldInc .. | .fldDec .. | .fldGetbit ..
  | .fldSetbit .. | .fldDes .. | .fldWidth .. | .colDes .. | .colWidth | .hdrCfgsh .. | .hdrSet ..
  | .hdrGet .. | .hdrLenoct .. | .hdrSetlenoct .. | .hdrIsidle .. | .hdrIsvalid .. | .phDes ..
  | .shDes .. | .asmBegin .. | .asmCfgidle .. | .asmSize | .asmValid | .extOpen .. | .disFrombuf ..
  | .disFinalize | .disSize => []

/-- U5: each of these octets takes a free value, a fresh one each (log 3). -/
def scramble : List Nat → Nat → Memory → Memory
  | [], _, m => m
  | a :: rest, n, m => scramble rest (n + 1) (m.set a (Config.cutOctet n))

/-- R300, U5: reset cuts a command short: no response, every register at its reset value, every octet
the command writes at a free value. -/
def cutByReset (cw : CmdWord) (arg : Word) (s : State) : Result :=
  match runCommand cw arg s with
  | .next t =>
    let octets := match decode cw arg with
      | .ok i => writtenOctets i s t
      | .error _ => []
    .next (State.afterReset (scramble octets s.freeNext s.mem) s.input (s.pos + 1) s.rsp
      (s.freeNext + octets.length))
  | .fault f => .fault f
  | .refused r => .refused r

/-- One move of the host, already taken off the pending ones. -/
def hostMove (mv : HostMove) (s : State) : Result :=
  match mv with
  | .command cw arg => acceptCommand cw arg s
  | .poke addr v => hostPoke addr.toNat v s
  | .reset => .next (assertReset s)
  | .resetDuring cw arg => cutByReset cw arg s

/-- The command pair of a row of the opcode table: `cw` is bits 31..0 and `arg` bits 95..32, the bits
above `nbits` zero (log 13). -/
def tableCommand (nbits w : Nat) : HostMove :=
  .command (BitVec.ofNat 32 (w % 2 ^ nbits)) (BitVec.ofNat 64 (w % 2 ^ nbits / 2 ^ 32))

end Sys2Proof.Machine
end

