-- ==== Sys2Proof/Machine/Step.lean ====
section
/-! DEFINITION. One step: the next pending move of the host. With none pending the engine is idle with
all state held (R276, R327, log 5). -/

namespace Sys2Proof.Machine

/-- One step of the machine. -/
def step (s : State) : Host.Outcome State Fault Refusal :=
  match s.input with
  | [] => .next s
  | mv :: rest => hostMove mv (takeMove rest s)

/-- The host presents the command of an opcode-table row next (log 4). -/
def State.withFetchWord (s : State) (nbits w : Nat) : State :=
  { s with input := tableCommand nbits w :: s.input }

end Sys2Proof.Machine
end

