-- ==== Sys2Proof/Safety.lean ====
section
/-! DEFINITION. The terms statements are made in: the invariants of 10_state.md, the bits of MEM as a
stream (R61, R67), and the tables that say which command writes what (R24, R52, R66, R86). -/

namespace Sys2Proof.Machine

/-! ### The invariants of the state -/

/-- R24: the window lies in MEM and the position in the window. -/
def cursorOk (size : Nat) (cu : Cursor) : Prop :=
  cu.base.toNat + cu.size.toNat ≤ size ∧ cu.cursor.toNat ≤ 8 * cu.size.toNat

/-- R28: the widths are 0 to 8 and the two values fit them. -/
def bankOk (b : Bank) : Prop :=
  b.tcb.toNat ≤ 8 ∧ b.ancb.toNat ≤ 8 ∧ b.tc.toNat < 2 ^ (8 * b.tcb.toNat) ∧
    b.anc.toNat < 2 ^ (8 * b.ancb.toNat)

/-- R34: a descriptor is unconfigured or has a shape the source allows. -/
def descOk (fd : FieldDesc) : Prop :=
  fd.w.toNat ≤ sizeBits fd.sz ∧ (fd.le = true → fd.w.toNat % 8 = 0)

/-- R31: while a packet is in progress its window lies in MEM and is carved into headers and user data. -/
def asmOk (s : State) : Prop :=
  s.asm.active = true →
    s.asm.base.toNat + s.asm.size.toNat ≤ s.mem.size ∧
    s.aw.base.toNat = s.asm.base.toNat + 6 + s.bankA.secSize ∧
    s.asm.size.toNat = 6 + s.bankA.secSize + s.aw.size.toNat

/-- R261, R263: `LAST` holds a code that is produced, and the bit of `ESR` of an error it holds is set. -/
def statusOk (s : State) : Prop :=
  ∃ st : Status, s.last = statusCode st ∧ s.esr &&& statusBit st = statusBit st

/-- The invariants the spec gives the state: R8, R21, R24, R28, R31, R34 to R36, R261. -/
structure State.Inv (s : State) : Prop where
  memWf : s.mem.wf
  memSize : 1 ≤ s.mem.size ∧ s.mem.size ≤ Config.memBytesMax
  cursors : ∀ c, cursorOk s.mem.size (s.cur c)
  banks : ∀ u, bankOk (s.bank u)
  asm : asmOk s
  idle : s.idle.pat.toNat < 2 ^ sizeBits s.idle.ps
  descs : ∀ f : Fin 16, descOk s.fd[f]
  values : ∀ f : Fin 16, s.fv[f].toNat < 2 ^ s.fd[f].w.toNat
  count : s.nfld.toNat ≤ 16
  schema : ∀ f ∈ s.schema, s.fd[f].w ≠ 0
  status : statusOk s

/-- The host's pending writes of MEM name octets of MEM (R60, R72). -/
def hostInMem (s : State) : Prop :=
  ∀ a v, HostMove.poke a v ∈ s.input → a.toNat < s.mem.size

/-! ### MEM as a stream of bits -/

/-- R61: bit `n` of MEM as one stream from address 0: bit `7 - n mod 8` of octet `n div 8`. Stream bit
`n` of a window at `base` is bit `8 * base + n` here. -/
def Memory.bit (m : Memory) (n : Nat) : Bool := (m.octet (n / 8)).getLsbD (7 - n % 8)

/-- The number, in `Memory.bit`, of the next bit a cursor writes or reads. -/
def Cursor.bitPos (cu : Cursor) : Nat := 8 * cu.base.toNat + cu.cursor.toNat

/-- `n` bits of MEM from bit `p` on. -/
def Memory.stream (m : Memory) (p n : Nat) : List Bool := (List.range n).map fun k => m.bit (p + k)

/-- R61, R62: the `w` low bits of a value in stream order. Big-endian: the most significant bit first.
Little-endian: octet 0 first, each octet from its most significant bit. -/
def wordStream (v : Word) (w : Nat) (le : Bool) : List Bool :=
  (List.range w).map fun k => v.getLsbD (if le then 8 * (k / 8) + (7 - k % 8) else w - 1 - k)

/-- R67: what bit `n` of MEM becomes when `bits` are put at bit `p`, `old` being what it was. A bit put
into an octet that the stream entered earlier is ORed in; an octet that is entered at its first bit
ends in zeros beyond the last bit put. -/
def bitAfter (p : Nat) (bits : List Bool) (n : Nat) (old : Bool) : Bool :=
  if n < p then old
  else if h : n - p < bits.length then bits[n - p] || (p % 8 != 0 && n / 8 == p / 8 && old)
  else if n < 8 * ceilDiv (p + bits.length) 8 then p % 8 != 0 && n / 8 == p / 8 && old
  else old

/-- R67: `bits` have been put at bit `p`; every octet outside those they reach reads as before. -/
structure wroteStream (m m' : Memory) (p : Nat) (bits : List Bool) : Prop where
  size : m'.size = m.size
  bit : ∀ n, m'.bit n = bitAfter p bits n (m.bit n)
  octet : ∀ a, a < p / 8 ∨ ceilDiv (p + bits.length) 8 ≤ a → m'.octet a = m.octet a

/-- `bits` more bits fit into a cursor's window, which lies in MEM, and the cursor is not bad (R103). -/
def hasRoom (s : State) (cu : Cursor) (bits : Nat) : Prop :=
  cu.bad = false ∧ cu.base.toNat + cu.size.toNat ≤ s.mem.size ∧
    cu.cursor.toNat + bits ≤ 8 * cu.size.toNat

/-- A cursor `n` bits further (R102). -/
def Cursor.moved (cu : Cursor) (n : Nat) : Cursor :=
  { cu with cursor := cu.cursor + BitVec.ofNat 35 n }

/-- The bits left in a cursor's window. -/
def Cursor.room (cu : Cursor) : Nat := 8 * cu.size.toNat - cu.cursor.toNat

/-- How many of `n` bits `CUR.APPEND` copies into `room` bits: all of them, or the whole octets that
fit. -/
def appendFit (n room : Nat) : Nat := if n ≤ room then n else 8 * min (n / 8) (room / 8)

/-- The bits of one field in stream order (R140). -/
def fieldStream (s : State) (f : Fin 16) : List Bool :=
  wordStream s.fv[f] s.fd[f].w.toNat s.fd[f].le

/-- R161, R162: the 48 bits of the primary header, octet 0 and the most significant bit first. -/
def primaryStream (b : Bank) : List Bool :=
  (List.range 48).map fun k => (pack48 b).getLsbD (47 - k)

/-- R164: the bits of the secondary header, time code first. -/
def secondaryStream (b : Bank) : List Bool :=
  wordStream b.tc (8 * b.tcb.toNat) false ++ wordStream b.anc (8 * b.ancb.toNat) false

/-- R113, R143, R144, R162 to R164: how many bits a sequence of puts or gets of these widths moves when
`room` bits are left: the widths of the leading ones that fit. -/
def fitBits : List Nat → Nat → Nat
  | [], _ => 0
  | w :: ws, room => if room < w then 0 else w + fitBits ws (room - w)

/-- R161: the widths of the primary header's fields, in order. -/
def primaryWidths : List Nat := [3, 1, 1, 11, 2, 14, 16]

/-- R164: the widths of the secondary header's members, in order. -/
def secondaryWidths (b : Bank) : List Nat := [8 * b.tcb.toNat, 8 * b.ancb.toNat]

/-- R36: the widths of the schema's fields, in order. -/
def schemaWidths (s : State) : List Nat := s.schema.map fun f => s.fd[f].w.toNat

/-- A cursor after a sequence of puts or gets of these widths (R103, R105): the bits that fit have
moved, and it is bad if one did not fit. -/
def Cursor.after (cu : Cursor) (widths : List Nat) : Cursor :=
  { cu.moved (fitBits widths cu.room) with bad := decide (cu.room < widths.sum) }

/-- R165: the octets of MEM from `base` on are the headers of bank `b`: six octets of the primary
header, then the time code and the ancillary value, each most significant octet first. -/
structure headerAt (m : Memory) (b : Bank) (base : Nat) : Prop where
  primary : ∀ k, k < 6 → m.octet (base + k) = (pack48 b).extractLsb' (40 - 8 * k) 8
  tc : ∀ k, k < b.tcb.toNat →
    m.octet (base + 6 + k) = (b.tc >>> (8 * (b.tcb.toNat - 1 - k))).setWidth 8
  anc : ∀ k, k < b.ancb.toNat →
    m.octet (base + 6 + b.tcb.toNat + k) = (b.anc >>> (8 * (b.ancb.toNat - 1 - k))).setWidth 8

/-- The bits of the schema's fields, were their values `fv` (R143, R144). -/
def valuesStream (s : State) (fv : Vector Word 16) : List Bool :=
  s.schema.flatMap fun f => wordStream fv[f] s.fd[f].w.toNat s.fd[f].le

/-- Two octet ranges have no octet in common. -/
def disjoint (a n b k : Nat) : Prop := a + n ≤ b ∨ b + k ≤ a

/-! ### Commands and reset -/

/-- R86: the 46 listed opcodes. -/
def listedOpcodes : List (BitVec 8) :=
  [0x01, 0x02, 0x10, 0x11, 0x12, 0x13, 0x14, 0x15, 0x16, 0x17, 0x20, 0x21, 0x22, 0x23, 0x24, 0x25, 0x26,
   0x27, 0x28, 0x29, 0x2A, 0x2B, 0x2C, 0x2D, 0x30, 0x31, 0x32, 0x33, 0x34, 0x35, 0x36, 0x37, 0x38, 0x39,
   0x3A, 0x40, 0x41, 0x42, 0x43, 0x44, 0x45, 0x50, 0x60, 0x61, 0x62, 0x63]

/-- R84: the selectors of a command word of this opcode and format are in range. -/
def selectorsLegal (fmt : Format) (f : CmdFields) : Prop :=
  match fmt with
  | .N | .S => True
  | .C | .P => f.c.toNat < 4
  | .CC => f.c.toNat < 4 ∧ f.s.toNat < 4
  | .F => f.idx.toNat < if f.op = 0x21 then 17 else 16
  | .FP | .FB => f.idx.toNat < 16
  | .FC => f.c.toNat < 4 ∧ f.idx.toNat < 16
  | .U => f.s.toNat < 3
  | .UF => f.s.toNat < 3 ∧
      if f.op = 0x30 then f.idx.toNat % 16 ≤ 8 ∧ f.idx.toNat / 16 ≤ 8 else f.idx.toNat < 9
  | .UC => f.s.toNat < 3 ∧ f.c.toNat < 4

/-- R87: a command word that is a command: its opcode is listed, it equals `op << 24` under the mask of
its format (R82), and its selectors are in range. -/
def legalCommand (cw : CmdWord) : Prop :=
  ∃ fmt, formatOf (cw.extractLsb' 24 8) = some fmt ∧
    cw &&& fmt.mask = (cw.extractLsb' 24 8 ++ 0#24 : BitVec 32) ∧ selectorsLegal fmt (unpackCmd cw)

/-- The command word with these fields is the command that `i` makes of the operand, whatever `arg` it
comes with (R80, R81, R86). -/
def encodes (f : CmdFields) (i : Word → Instr) : Prop :=
  ∀ arg, decode (packCmd f) arg = .ok (i arg)

/-- R261 to R263: refused with `ERR_ILLEGAL`; nothing changes but `LAST` and bit 0 of `ESR`. -/
def refusedIllegal (s : State) : Result := .next { s with last := 1, esr := s.esr ||| 1 }

/-- R261 to R263: refused with `ERR_RANGE`; nothing changes but `LAST` and bit 1 of `ESR`. -/
def refusedRange (s : State) : Result := .next { s with last := 2, esr := s.esr ||| 2 }

/-- R261 to R263: refused with `ERR_SHAPE`; nothing changes but `LAST` and bit 2 of `ESR`. -/
def refusedShape (s : State) : Result := .next { s with last := 3, esr := s.esr ||| 4 }

/-- R261 to R263: refused with `ERR_STATE`; nothing changes but `LAST` and bit 3 of `ESR`. -/
def refusedState (s : State) : Result := .next { s with last := 4, esr := s.esr ||| 8 }

/-- R42 to R44: every register of the engine has its reset value. -/
structure resetRegisters (s : State) : Prop where
  cursors : ∀ c, s.cur c = { base := 0, size := 0, cursor := 0, bad := false }
  banks : ∀ u, s.bank u = { version := 0, type := 0, shf := 0, apid := 0, seqflags := 0, seqcount := 0
                            length := 0, tcb := 0, ancb := 0, tc := 0, anc := 0 }
  asm : s.asm = { base := 0, size := 0, active := false }
  idle : s.idle = { pat := 0, ps := .b }
  descs : ∀ f : Fin 16, s.fd[f] = { w := 0, sz := .b, le := false }
  values : ∀ f : Fin 16, s.fv[f] = 0
  count : s.nfld = 0
  dout : s.dout = 0
  esr : s.esr = 0
  last : s.last = 0

/-! ### Which command writes what -/

/-- R24: the commands that re-attach cursor `c`. -/
def reattaches (c : CurSel) : Instr → Bool
  | .curAttach d _ => d = c
  | .asmBegin _ | .asmBeginidle _ => c = .aw
  | .extOpen _ => c = .xr
  | .hdrCfgsh u _ _ => (u = .a && c = .aw) || (u = .x && c = .xr)
  | _ => false

/-- R66: the commands that may write MEM. -/
def writesMem : Instr → Bool
  | .curPut .. | .curAppend .. | .fldSer .. | .colSer .. | .phSer .. | .shSer .. | .asmBeginidle ..
  | .asmFinalize | .disTobuf .. => true
  | _ => false

/-- R86, column "replies": the commands that write `DOUT`. -/
def replies : Instr → Bool
  | .sysEsr | .curGet .. | .curPos .. | .curBytes .. | .curBad .. | .curCap .. | .fldGet ..
  | .fldGetbit .. | .fldWidth .. | .colWidth | .hdrGet .. | .hdrLenoct .. | .hdrIsidle ..
  | .hdrIsvalid .. | .asmSize | .asmValid | .disSize => true
  | _ => false

/-- R52: the commands that write `FV`. -/
def writesFv : Instr → Bool
  | .fldCfg .. | .fldSet .. | .fldInc .. | .fldDec .. | .fldSetbit .. | .fldDes .. | .colDes ..
  | .disFrombuf .. => true
  | _ => false

/-- R52: the commands that write bank `u`. -/
def writesBank (u : BankSel) : Instr → Bool
  | .hdrCfgsh v _ _ | .hdrSet v _ _ | .hdrSetlenoct v _ | .phDes v _ | .shDes v _ => v = u
  | .asmBegin _ | .asmBeginidle _ | .asmFinalize => u = .a
  | .extOpen _ => u = .x
  | .disFrombuf _ | .disFinalize => u = .d
  | _ => false

/-- R52: the commands that write cursor `c`. -/
def writesCur (c : CurSel) : Instr → Bool
  | .curAttach d _ | .curPut _ _ _ d _ | .curGet _ _ _ d | .curAppend d _ | .fldSer d _ | .fldDes d _
  | .colSer d | .colDes d | .phSer _ d | .phDes _ d | .shSer _ d | .shDes _ d => d = c
  | .asmBegin _ | .asmBeginidle _ => c = .aw
  | .extOpen _ => c = .xr
  | .hdrCfgsh u _ _ => (u = .a && c = .aw) || (u = .x && c = .xr)
  | _ => false

/-- R52: the commands that write a bank's widths. -/
def writesWidths (u : BankSel) : Instr → Bool
  | .hdrCfgsh v _ _ => v = u
  | .asmBeginidle _ => u = .a
  | _ => false

/-- R52: the commands that write a descriptor. -/
def writesFd : Instr → Bool
  | .fldCfg .. => true
  | _ => false

/-- R52: the commands that write `NFLD`. -/
def writesNfld : Instr → Bool
  | .fldNfld _ => true
  | _ => false

/-- R52: the commands that write `ASM.*`. -/
def writesAsm : Instr → Bool
  | .asmBegin _ | .asmBeginidle _ => true
  | .hdrCfgsh u _ _ => u = .a
  | _ => false

/-- R52: the commands that write `IDLE.*`. -/
def writesIdle : Instr → Bool
  | .asmCfgidle .. => true
  | _ => false

/-- A list of commands in issue order (R48), up to the first that does not complete. -/
def execAll : List Instr → State → Result
  | [], s => .next s
  | i :: rest, s =>
    match exec i s with
    | .next t => execAll rest t
    | .fault f => .fault f
    | .refused r => .refused r

end Sys2Proof.Machine
end

