-- ==== Sys2Proof/Certificates/Slice0/Obligations.lean ====
section
/-! DEFINITION. The statements for the provers, in the order of spec/. Terms are those of Safety.lean.
A statement whose conclusion is `exec … = .next …` says where the command completes, what it changes, and
by the record update what it leaves alone. -/

open Sys2Proof Sys2Proof.Machine

/-! ### Ports and encoding -/

/-- R48, R50, R51: a command that decodes is executed in the state that has taken it off the port, and is
answered with one response, its status and `DOUT` after it. -/
def Obligations.StepRunsDecodedCommand : Prop :=
  ∀ (s : State) (cw : CmdWord) (arg : Word) (rest : List HostMove) (i : Instr),
    s.input = .command cw arg :: rest → decode cw arg = .ok i →
      step s = match exec i { s with input := rest, pos := s.pos + 1 } with
        | .next t => .next { t with rsp := t.rsp ++ [{ status := t.last, data := t.dout }] }
        | .fault f => .fault f
        | .refused r => .refused r

/-- R80, R82, R84, R86 to R88: the decoder accepts exactly the command words of the opcode map, whatever
`arg` is, and every other word is refused with `ERR_ILLEGAL` and answered. -/
def Obligations.IllegalCommandsRefused : Prop :=
  (∀ op : BitVec 8, (formatOf op).isSome = true ↔ op ∈ listedOpcodes) ∧
  (∀ (cw : CmdWord) (arg : Word), (∃ i, decode cw arg = .ok i) ↔ legalCommand cw) ∧
  ∀ (s : State) (cw : CmdWord) (arg : Word) (rest : List HostMove),
    s.input = .command cw arg :: rest → ¬ legalCommand cw →
      step s = .next { s with
        input := rest, pos := s.pos + 1, last := 1, esr := s.esr ||| 1
        rsp := s.rsp ++ [{ status := 1, data := s.dout }] }

/-- R91: the worked encodings, read and written. -/
def Obligations.WorkedEncodings : Prop :=
  (∀ v, decode 0x01000000 v = .ok .nop) ∧
  (∀ v, decode 0x11020000 v = .ok (.curPut .b false 8 .aw v)) ∧
  (∀ v, decode 0x11F01000 v = .ok (.curPut .d true 64 .g2 v)) ∧
  (∀ v, decode 0x1242C800 v = .ok (.curGet .h false 11 .xr)) ∧
  (∀ v, decode 0x13000200 v = .ok (.curAppend .aw .g2)) ∧
  (∀ v, decode 0x31000003 v = .ok (.hdrSet .a .apid v)) ∧
  (∀ v, decode 0x30000040 v = .ok (.hdrCfgsh .a 0 4)) ∧
  (∀ v, decode 0x37001A00 v = .ok (.phSer .d .g3)) ∧
  (∀ v, decode 0x20860006 v = .ok (.fldCfg .w false 24 6)) ∧
  decode 0x27014003 1 = .ok (.fldSetbit 5 3 true)

/-- R81 to R86: decoding the encoding of a well-formed instruction gives it back, every operand at every
value. -/
def Obligations.DecodeOfEncode : Prop :=
  ∀ i : Instr, i.wellFormed = true → decode (encode i).1 (encode i).2 = .ok i

/-- R81 to R86: the only word of a decoded instruction is the one it was decoded from, and the instruction
is well formed. -/
def Obligations.EncodeOfDecode : Prop :=
  ∀ (cw : CmdWord) (arg : Word) (i : Instr), decode cw arg = .ok i →
    i.wellFormed = true ∧ (encode i).1 = cw

/-! ### The whole machine -/

/-- R42 to R45: reset gives every register its reset value and does not write MEM. -/
def Obligations.ResetValues : Prop :=
  resetRegisters State.reset ∧
  ∀ (s : State) (rest : List HostMove), s.input = .reset :: rest →
    ∃ t, step s = .next t ∧ resetRegisters t ∧ t.mem = s.mem

/-- R302: what a just-reset engine answers. -/
def Obligations.ResetAnswers : Prop :=
  ∀ s : State, resetRegisters s →
    exec .asmSize s = .next { s with dout := 6, last := 0 } ∧
    exec .asmValid s = .next { s with dout := 0, last := 0 } ∧
    exec .colWidth s = .next { s with dout := 0, last := 0 } ∧
    (∀ c, exec (.curPos c) s = .next { s with dout := 0, last := 0 }) ∧
    exec .disSize s = refusedShape s ∧
    exec .asmFinalize s = refusedState s

/-- The invariants of the state hold after reset (R24, R28, R31, R34 to R36), whatever `MEM_BYTES` is in
the range of R8. -/
def Obligations.ResetInv : Prop := State.reset.Inv

/-- Every step keeps the invariants of the state (R24, R28, R31, R34 to R36, R60), from every state that
meets them. -/
def Obligations.StepKeepsInv : Prop :=
  ∀ s t : State, s.Inv → step s = .next t → t.Inv

/-- R60, R88, R260, R331: in a state that meets the invariants every command ends in a next state, with
one of the five status codes of R261. -/
def Obligations.EveryCommandEnds : Prop :=
  ∀ (i : Instr) (s : State), s.Inv → ∃ t st, exec i s = .next t ∧ t.last = statusCode st

/-- R327: the engine never stops on its own account; a run of any length goes on, and ends in a state that
meets the invariants. -/
def Obligations.RunsNeverStop : Prop :=
  ∀ (k : Nat) (s : State), s.Inv → hostInMem s →
    ∃ t : State, Host.Core.run core k s = .next t ∧ t.Inv ∧ hostInMem t

/-- R261 to R263: `LAST` takes the status of every command; no command clears a bit of `ESR`; a command
that is refused changes `LAST` and its one bit of `ESR` and nothing else. -/
def Obligations.HowCommandsEnd : Prop :=
  ∀ (i : Instr) (s t : State), exec i s = .next t →
    ∃ st, t.last = statusCode st ∧ t.esr = s.esr ||| statusBit st ∧
      (st ≠ .ok → t = { s with last := statusCode st, esr := s.esr ||| statusBit st })

/-- R24, R105: a command that does not re-attach a cursor leaves its window, never moves it back, and
leaves a bad cursor as it is. -/
def Obligations.CursorsOnlyAdvance : Prop :=
  ∀ (i : Instr) (s t : State) (c : CurSel), s.Inv → exec i s = .next t → reattaches c i = false →
    (t.cur c).base = (s.cur c).base ∧ (t.cur c).size = (s.cur c).size ∧
    (s.cur c).cursor.toNat ≤ (t.cur c).cursor.toNat ∧
    (t.cur c).cursor.toNat ≤ 8 * (t.cur c).size.toNat ∧
    ((s.cur c).bad = true → t.cur c = s.cur c)

/-- R60, R66: a command writes no octet of MEM but those of its footprint, and they are octets of MEM. -/
def Obligations.MemoryFootprint : Prop :=
  ∀ (i : Instr) (s t : State), s.Inv → exec i s = .next t →
    t.mem.size = s.mem.size ∧
    (∀ a, a ∈ writtenOctets i s t → a < s.mem.size) ∧
    (∀ a, a ∉ writtenOctets i s t → t.mem.octet a = s.mem.octet a)

/-- R37, R52, R66: every register, and MEM, is written by the commands the tables name and by no other; no
command touches the host's side of the ports (R48, R51). -/
def Obligations.RegisterWriters : Prop :=
  ∀ (i : Instr) (s t : State), exec i s = .next t →
    (writesMem i = false → t.mem = s.mem) ∧
    (replies i = false ∨ t.last ≠ 0 → t.dout = s.dout) ∧
    (writesFv i = false → t.fv = s.fv) ∧
    (writesFd i = false → t.fd = s.fd) ∧
    (writesNfld i = false → t.nfld = s.nfld) ∧
    (∀ u, writesBank u i = false → t.bank u = s.bank u) ∧
    (∀ u, writesWidths u i = false →
      (t.bank u).tcb = (s.bank u).tcb ∧ (t.bank u).ancb = (s.bank u).ancb) ∧
    (∀ c, writesCur c i = false → t.cur c = s.cur c) ∧
    (writesAsm i = false → t.asm = s.asm) ∧
    (writesIdle i = false → t.idle = s.idle) ∧
    t.input = s.input ∧ t.pos = s.pos ∧ t.rsp = s.rsp ∧ t.freeNext = s.freeNext

/-- R72: the host writes one octet of MEM between commands; the model's form of that move is log 6. -/
def Obligations.HostWritesOctet : Prop :=
  ∀ (s : State) (a : BitVec 32) (v : Byte) (rest : List HostMove),
    s.input = .poke a v :: rest → a.toNat < s.mem.size →
      ∃ m, step s = .next { s with input := rest, mem := m } ∧ m.size = s.mem.size ∧
        m.octet a.toNat = v ∧ ∀ b, b ≠ a.toNat → m.octet b = s.mem.octet b

/-- R300, R45: reset abandons the command in flight, and every register has its reset value. Two clauses
are the model's choice beside R51 and U5: that no response is given (log 18), and that only the octets
which the command writes in a run to its end may differ (log 3, its extent). -/
def Obligations.ResetCutsCommand : Prop :=
  ∀ (s : State) (cw : CmdWord) (arg : Word) (rest : List HostMove), s.Inv →
    s.input = .resetDuring cw arg :: rest →
      ∃ t, step s = .next t ∧ resetRegisters t ∧ t.rsp = s.rsp ∧ t.input = rest ∧
        t.mem.size = s.mem.size ∧
        ∀ a, (∀ i u, decode cw arg = .ok i → exec i { s with input := rest } = .next u →
          a ∉ writtenOctets i { s with input := rest } u) → t.mem.octet a = s.mem.octet a

/-! ### System commands -/

/-- R250, R251: `NOP` and `SYS.ESR`, and what the host sees of a `NOP`. -/
def Obligations.SystemCommands : Prop :=
  (∀ arg, decode 0x01000000 arg = .ok .nop ∧ decode 0x02000000 arg = .ok .sysEsr) ∧
  (∀ s : State, exec .nop s = .next { s with last := 0 } ∧
    exec .sysEsr s = .next { s with dout := 0#56 ++ s.last ++ s.esr, last := 0 }) ∧
  ∀ (s : State) (arg : Word) (rest : List HostMove), s.input = .command 0x01000000 arg :: rest →
    step s = .next { s with
      input := rest, pos := s.pos + 1, last := 0
      rsp := s.rsp ++ [{ status := 0, data := s.dout }] }

/-! ### The bit cursors -/

/-- R110: `CUR.ATTACH`. -/
def Obligations.AttachResult : Prop :=
  (∀ c, encodes { op := 0x10, c := encodeCur c } fun arg =>
    .curAttach c { base := arg.extractLsb' 0 32, size := arg.extractLsb' 32 32 }) ∧
  ∀ (win : Window) (s : State),
    exec (.curAttach .aw win) s = refusedIllegal s ∧ exec (.curAttach .xr win) s = refusedIllegal s ∧
    ∀ c, c = .g2 ∨ c = .g3 →
      (s.mem.size < win.base.toNat + win.size.toNat → exec (.curAttach c win) s = refusedRange s) ∧
      (win.base.toNat + win.size.toNat ≤ s.mem.size → exec (.curAttach c win) s =
        .next { s.setCur c { base := win.base, size := win.size, cursor := 0, bad := false } with
          last := 0 })

/-- R114 to R117: the four commands that reply a cursor's registers, on every cursor. -/
def Obligations.CursorReplies : Prop :=
  (∀ c, encodes { op := 0x14, c := encodeCur c } (fun _ => .curPos c) ∧
    encodes { op := 0x15, c := encodeCur c } (fun _ => .curBytes c) ∧
    encodes { op := 0x16, c := encodeCur c } (fun _ => .curBad c) ∧
    encodes { op := 0x17, c := encodeCur c } (fun _ => .curCap c)) ∧
  ∀ (c : CurSel) (s : State),
    exec (.curPos c) s =
      .next { s with dout := BitVec.ofNat 64 (s.cur c).cursor.toNat, last := 0 } ∧
    exec (.curBytes c) s =
      .next { s with dout := BitVec.ofNat 64 (((s.cur c).cursor.toNat + 7) / 8), last := 0 } ∧
    exec (.curBad c) s = .next { s with dout := if (s.cur c).bad = true then 1 else 0, last := 0 } ∧
    exec (.curCap c) s = .next { s with dout := BitVec.ofNat 64 (s.cur c).size.toNat, last := 0 }

/-- R25, R101: a command that uses a cursor against its role is refused. -/
def Obligations.RoleRefusals : Prop :=
  ∀ s : State,
    (∀ win, exec (.curAttach .aw win) s = refusedIllegal s ∧
      exec (.curAttach .xr win) s = refusedIllegal s) ∧
    (∀ sz le w v, exec (.curPut sz le w .xr v) s = refusedIllegal s) ∧
    (∀ sz le w, exec (.curGet sz le w .aw) s = refusedIllegal s) ∧
    (∀ src, exec (.curAppend .xr src) s = refusedIllegal s) ∧
    (∀ f, exec (.fldSer .xr f) s = refusedIllegal s ∧ exec (.fldDes .aw f) s = refusedIllegal s) ∧
    exec (.colSer .xr) s = refusedIllegal s ∧ exec (.colDes .aw) s = refusedIllegal s ∧
    (∀ u, exec (.phSer u .xr) s = refusedIllegal s ∧ exec (.phDes u .aw) s = refusedIllegal s ∧
      exec (.shSer u .xr) s = refusedIllegal s ∧ exec (.shDes u .aw) s = refusedIllegal s)

/-- R107: little-endian with a width that is not whole octets is refused before any state is read. -/
def Obligations.LittleEndianRefused : Prop :=
  ∀ (sz : Size) (w : BitVec 7) (s : State), w.toNat % 8 ≠ 0 →
    (∀ c v, exec (.curPut sz true w c v) s = refusedIllegal s) ∧
    (∀ c, exec (.curGet sz true w c) s = refusedIllegal s) ∧
    (∀ f, exec (.fldCfg sz true w f) s = refusedShape s)

/-- R104: a put or a get of zero bits does nothing, on every cursor its role allows. -/
def Obligations.ZeroBitsDoNothing : Prop :=
  ∀ (sz : Size) (le : Bool) (c : CurSel) (s : State),
    (∀ v, writable c = true → exec (.curPut sz le 0 c v) s = .next { s with last := 0 }) ∧
    (readable c = true → exec (.curGet sz le 0 c) s = .next { s with last := 0 })

/-- R103: a violated precondition sets `bad`, moves no bit, and is no refusal. -/
def Obligations.ViolationSetsBad : Prop :=
  ∀ (sz : Size) (le : Bool) (w : BitVec 7) (c : CurSel) (s : State),
    (le = true → w.toNat % 8 = 0) → (s.cur c).bad = false → w ≠ 0 →
    sizeBits sz < w.toNat ∨ 8 * (s.cur c).size.toNat < (s.cur c).cursor.toNat + w.toNat →
      (∀ v, writable c = true → exec (.curPut sz le w c v) s =
        .next { s.setCur c { s.cur c with bad := true } with last := 0 }) ∧
      (readable c = true → exec (.curGet sz le w c) s =
        .next { s.setCur c { s.cur c with bad := true } with last := 0 })

/-- R105: on a bad cursor no command moves anything, and its status is OK. -/
def Obligations.BadCursorMovesNothing : Prop :=
  ∀ (s : State) (c : CurSel), (s.cur c).bad = true →
    (writable c = true →
      (∀ sz le w v, (le = true → BitVec.toNat w % 8 = 0) →
        exec (.curPut sz le w c v) s = .next { s with last := 0 }) ∧
      (∀ src, src ≠ c → cursorOk s.mem.size (s.cur src) →
        exec (.curAppend c src) s = .next { s with last := 0 }) ∧
      (∀ f : Fin 16, s.fd[f].w ≠ 0 → exec (.fldSer c f) s = .next { s with last := 0 }) ∧
      exec (.colSer c) s = .next { s with last := 0 } ∧
      (∀ u, exec (.phSer u c) s = .next { s with last := 0 } ∧
        exec (.shSer u c) s = .next { s with last := 0 })) ∧
    (readable c = true →
      (∀ sz le w, (le = true → BitVec.toNat w % 8 = 0) →
        exec (.curGet sz le w c) s = .next { s with last := 0 }) ∧
      (∀ f : Fin 16, s.fd[f].w ≠ 0 → exec (.fldDes c f) s = .next { s with last := 0 }) ∧
      exec (.colDes c) s = .next { s with last := 0 } ∧
      (∀ u, exec (.phDes u c) s = .next { s with last := 0 } ∧
        exec (.shDes u c) s = .next { s with last := 0 }))

/-- R61, R62, R67, R102, R111: a put with room for its bits writes them, moves the cursor by as many, and
changes nothing else. -/
def Obligations.PutWritesBits : Prop :=
  ∀ (sz : Size) (le : Bool) (w : BitVec 7) (c : CurSel) (v : Word) (s : State),
    writable c = true → (le = true → w.toNat % 8 = 0) → w.toNat ≤ sizeBits sz →
    hasRoom s (s.cur c) w.toNat →
      ∃ m, exec (.curPut sz le w c v) s =
          .next { ({ s with mem := m } : State).setCur c ((s.cur c).moved w.toNat) with last := 0 } ∧
        wroteStream s.mem m (s.cur c).bitPos (wordStream v w.toNat le)

/-- R61, R62, R106, R112: a get with its bits in the window replies the value they spell, moves the cursor
by as many, and changes nothing else. -/
def Obligations.GetReadsBits : Prop :=
  ∀ (sz : Size) (le : Bool) (w : BitVec 7) (c : CurSel) (s : State),
    readable c = true → (le = true → w.toNat % 8 = 0) → w.toNat ≤ sizeBits sz → w ≠ 0 →
    hasRoom s (s.cur c) w.toNat →
      ∃ r : Word, exec (.curGet sz le w c) s =
          .next { s.setCur c ((s.cur c).moved w.toNat) with dout := r, last := 0 } ∧
        r.toNat < 2 ^ w.toNat ∧
        wordStream r w.toNat le = s.mem.stream (s.cur c).bitPos w.toNat

/-- R108 with R312: what was put is got back, through any readable cursor at the same bit of MEM, if the
bits below the put's place in its first octet were 0 (log 11). -/
def Obligations.PutThenGet : Prop :=
  ∀ (sz sz' : Size) (le : Bool) (w : BitVec 7) (c d : CurSel) (v : Word) (s t t' : State),
    writable c = true → readable d = true → (le = true → w.toNat % 8 = 0) → w ≠ 0 →
    w.toNat ≤ sizeBits sz → w.toNat ≤ sizeBits sz' →
    hasRoom s (s.cur c) w.toNat →
    ((s.cur c).bitPos % 8 ≠ 0 → ∀ n, (s.cur c).bitPos ≤ n → n / 8 = (s.cur c).bitPos / 8 →
      s.mem.bit n = false) →
    exec (.curPut sz le w c v) s = .next t →
    (∀ a, (s.cur c).bitPos / 8 ≤ a → a < ceilDiv ((s.cur c).bitPos + w.toNat) 8 →
      t'.mem.octet a = t.mem.octet a) →
    hasRoom t' (t'.cur d) w.toNat → (t'.cur d).bitPos = (s.cur c).bitPos →
      exec (.curGet sz' le w d) t' =
        .next { t'.setCur d ((t'.cur d).moved w.toNat) with
          dout := BitVec.ofNat 64 (v.toNat % 2 ^ w.toNat), last := 0 }

/-- R109: what a sequence of successful puts leaves depends only on the bits put in a row; in particular
two big-endian puts leave what one put of the two values joined leaves. -/
def Obligations.PutsAreOneStream : Prop :=
  (∀ (c : CurSel) (s : State) (ps qs : List (Size × Bool × BitVec 7 × Word)),
    writable c = true →
    (∀ p ∈ ps ++ qs, p.2.2.1.toNat ≤ sizeBits p.1 ∧ (p.2.1 = true → p.2.2.1.toNat % 8 = 0)) →
    hasRoom s (s.cur c) (ps.map fun p => p.2.2.1.toNat).sum →
    (ps.flatMap fun p => wordStream p.2.2.2 p.2.2.1.toNat p.2.1) =
      (qs.flatMap fun p => wordStream p.2.2.2 p.2.2.1.toNat p.2.1) →
      ∃ t t', execAll (ps.map fun p => .curPut p.1 p.2.1 p.2.2.1 c p.2.2.2) s = .next t ∧
        execAll (qs.map fun p => .curPut p.1 p.2.1 p.2.2.1 c p.2.2.2) s = .next t' ∧
        t.cur c = t'.cur c ∧ ∀ a, t.mem.octet a = t'.mem.octet a) ∧
  (∀ (v1 v2 : Word) (W1 W2 : Nat), W1 + W2 ≤ 64 →
    wordStream v1 W1 false ++ wordStream v2 W2 false =
      wordStream (((v1 &&& mask W1) <<< W2) ||| (v2 &&& mask W2)) (W1 + W2) false)

/-- R113: `CUR.APPEND` copies the source's bits to a good destination: all of them, or the whole octets
that fit and then sets `bad`; where the source does not overlap the destination's window, the bits copied
are those the source held. A self-append sets `bad` and copies nothing. -/
def Obligations.AppendCopies : Prop :=
  (∀ (c : CurSel) (s : State), writable c = true → exec (.curAppend c c) s =
    .next { s.setCur c { s.cur c with bad := true } with last := 0 }) ∧
  ∀ (dst src : CurSel) (s : State), writable dst = true → dst ≠ src → (s.cur dst).bad = false →
    cursorOk s.mem.size (s.cur dst) → cursorOk s.mem.size (s.cur src) →
      ∃ m, exec (.curAppend dst src) s =
          .next { ({ s with mem := m } : State).setCur dst
            { (s.cur dst).moved (appendFit (s.cur src).cursor.toNat (s.cur dst).room) with
              bad := decide ((s.cur dst).room < (s.cur src).cursor.toNat) } with last := 0 } ∧
        m.size = s.mem.size ∧
        (∀ a, a < (s.cur dst).addr ∨
            ceilDiv ((s.cur dst).bitPos + appendFit (s.cur src).cursor.toNat (s.cur dst).room) 8 ≤ a →
          m.octet a = s.mem.octet a) ∧
        (disjoint (s.cur dst).base.toNat (s.cur dst).size.toNat (s.cur src).base.toNat
            (ceilDiv (s.cur src).cursor.toNat 8) →
          wroteStream s.mem m (s.cur dst).bitPos
            (s.mem.stream (8 * (s.cur src).base.toNat)
              (appendFit (s.cur src).cursor.toNat (s.cur dst).room)))

/-! ### The field file -/

/-- R131: the eight commands that use an unconfigured field are refused; `FLD.WIDTH` is not. -/
def Obligations.UnconfiguredRefused : Prop :=
  ∀ (f : Fin 16) (s : State), s.fd[f].w = 0 →
    (∀ v, exec (.fldSet f v) s = refusedShape s) ∧ exec (.fldGet f) s = refusedShape s ∧
    exec (.fldInc f) s = refusedShape s ∧ exec (.fldDec f) s = refusedShape s ∧
    (∀ b, exec (.fldGetbit b f) s = refusedShape s) ∧
    (∀ b bit, exec (.fldSetbit b f bit) s = refusedShape s) ∧
    (∀ c, writable c = true → exec (.fldSer c f) s = refusedShape s) ∧
    (∀ c, readable c = true → exec (.fldDes c f) s = refusedShape s) ∧
    exec (.fldWidth f) s = .next { s with dout := 0, last := 0 }

/-- R132, R133: `FLD.CFG` and `FLD.NFLD`. -/
def Obligations.FieldShapes : Prop :=
  (∀ sz le w (f : Fin 16), encodes
    { op := 0x20, sz := encodeSize sz, le := if le = true then 1 else 0, w := w, idx := BitVec.ofNat 8 f }
    (fun _ => .fldCfg sz le w f)) ∧
  (∀ n : Fin 17, encodes { op := 0x21, idx := BitVec.ofNat 8 n } (fun _ => .fldNfld n)) ∧
  (∀ (sz : Size) (le : Bool) (w : BitVec 7) (f : Fin 16) (s : State),
    (w = 0 ∨ sizeBits sz < w.toNat ∨ (le = true ∧ w.toNat % 8 ≠ 0) →
      exec (.fldCfg sz le w f) s = refusedShape s) ∧
    (w ≠ 0 → w.toNat ≤ sizeBits sz → (le = true → w.toNat % 8 = 0) →
      exec (.fldCfg sz le w f) s = .next { s with
        fd := s.fd.set f { w := w, sz := sz, le := le }, fv := s.fv.set f 0, last := 0 })) ∧
  ∀ (n : Fin 17) (s : State),
    ((∃ f : Fin 16, f.val < n.val ∧ s.fd[f].w = 0) → exec (.fldNfld n) s = refusedShape s) ∧
    ((∀ f : Fin 16, f.val < n.val → s.fd[f].w ≠ 0) →
      exec (.fldNfld n) s = .next { s with nfld := BitVec.ofNat 5 n.val, last := 0 })

/-- R134, R135, R142, R145: a field's value set and read, its width, and the width of the collection. -/
def Obligations.FieldRegisters : Prop :=
  (∀ f : Fin 16, encodes { op := 0x22, idx := BitVec.ofNat 8 f } (fun arg => .fldSet f arg) ∧
    encodes { op := 0x23, idx := BitVec.ofNat 8 f } (fun _ => .fldGet f) ∧
    encodes { op := 0x2A, idx := BitVec.ofNat 8 f } (fun _ => .fldWidth f)) ∧
  encodes { op := 0x2D } (fun _ => .colWidth) ∧
  (∀ s : State, exec .colWidth s = .next { s with
    dout := BitVec.ofNat 64
      (((List.finRange 16).filter fun f => f.val < s.nfld.toNat).map fun f => s.fd[f].w.toNat).sum
    last := 0 }) ∧
  ∀ (f : Fin 16) (s : State),
    exec (.fldWidth f) s = .next { s with dout := BitVec.ofNat 64 s.fd[f].w.toNat, last := 0 } ∧
    (s.fd[f].w = 0 → (∀ v, exec (.fldSet f v) s = refusedShape s) ∧
      exec (.fldGet f) s = refusedShape s) ∧
    (s.fd[f].w ≠ 0 →
      (∀ v, exec (.fldSet f v) s = .next { s with
        fv := s.fv.set f (BitVec.ofNat 64 (v.toNat % 2 ^ s.fd[f].w.toNat)), last := 0 }) ∧
      exec (.fldGet f) s = .next { s with dout := s.fv[f], last := 0 })

/-- R136 to R139: increment and decrement wrap modulo `2^w`; one bit of a field's value read and
written. -/
def Obligations.FieldArithmetic : Prop :=
  (∀ f : Fin 16, encodes { op := 0x24, idx := BitVec.ofNat 8 f } (fun _ => .fldInc f) ∧
    encodes { op := 0x25, idx := BitVec.ofNat 8 f } (fun _ => .fldDec f) ∧
    ∀ b, encodes { op := 0x26, w := b, idx := BitVec.ofNat 8 f } (fun _ => .fldGetbit b f) ∧
      encodes { op := 0x27, w := b, idx := BitVec.ofNat 8 f }
        (fun arg => .fldSetbit b f (arg.getLsbD 0))) ∧
  (∀ (f : Fin 16) (s : State),
    (s.fd[f].w = 0 → exec (.fldInc f) s = refusedShape s ∧ exec (.fldDec f) s = refusedShape s) ∧
    (s.fd[f].w ≠ 0 →
      exec (.fldInc f) s = .next { s with
        fv := s.fv.set f (BitVec.ofNat 64 ((s.fv[f].toNat + 1) % 2 ^ s.fd[f].w.toNat)), last := 0 } ∧
      exec (.fldDec f) s = .next { s with
        fv := s.fv.set f (BitVec.ofNat 64
          ((s.fv[f].toNat + 2 ^ s.fd[f].w.toNat - 1) % 2 ^ s.fd[f].w.toNat)), last := 0 })) ∧
  ∀ (b : BitVec 7) (f : Fin 16) (bit : Bool) (s : State),
    (s.fd[f].w = 0 → exec (.fldGetbit b f) s = refusedShape s ∧
      exec (.fldSetbit b f bit) s = refusedShape s) ∧
    (s.fd[f].w ≠ 0 → s.fd[f].w.toNat ≤ b.toNat → exec (.fldGetbit b f) s = refusedIllegal s ∧
      exec (.fldSetbit b f bit) s = refusedIllegal s) ∧
    (b.toNat < s.fd[f].w.toNat →
      exec (.fldGetbit b f) s = .next { s with
        dout := if s.fv[f].getLsbD b.toNat = true then 1 else 0, last := 0 } ∧
      ∃ v : Word, exec (.fldSetbit b f bit) s = .next { s with fv := s.fv.set f v, last := 0 } ∧
        ∀ k, k < 64 → v.getLsbD k = if k = b.toNat then bit else s.fv[f].getLsbD k)

/-- R140: `FLD.SER` through a good cursor writes the field's bits, or none of them and sets `bad`. -/
def Obligations.FieldSerializes : Prop :=
  ∀ (c : CurSel) (f : Fin 16) (s : State), writable c = true → s.fd[f].w ≠ 0 → descOk s.fd[f] →
    (s.cur c).bad = false → cursorOk s.mem.size (s.cur c) →
      ∃ m, exec (.fldSer c f) s = .next { ({ s with mem := m } : State).setCur c
          ((s.cur c).after [s.fd[f].w.toNat]) with last := 0 } ∧
        wroteStream s.mem m (s.cur c).bitPos
          ((fieldStream s f).take (fitBits [s.fd[f].w.toNat] (s.cur c).room))

/-- R141: `FLD.DES` through a good cursor takes the field's bits, or keeps its value and sets `bad`. -/
def Obligations.FieldDeserializes : Prop :=
  ∀ (c : CurSel) (f : Fin 16) (s : State), readable c = true → s.fd[f].w ≠ 0 → descOk s.fd[f] →
    (s.cur c).bad = false → cursorOk s.mem.size (s.cur c) →
      ∃ v, exec (.fldDes c f) s = .next { ({ s with fv := s.fv.set f v } : State).setCur c
          ((s.cur c).after [s.fd[f].w.toNat]) with last := 0 } ∧
        (s.fd[f].w.toNat ≤ (s.cur c).room → v.toNat < 2 ^ s.fd[f].w.toNat ∧
          wordStream v s.fd[f].w.toNat s.fd[f].le = s.mem.stream (s.cur c).bitPos s.fd[f].w.toNat) ∧
        ((s.cur c).room < s.fd[f].w.toNat → v = s.fv[f])

/-- R143: `COL.SER` through a good cursor writes the bits of the leading fields that fit. -/
def Obligations.CollectionSerializes : Prop :=
  ∀ (c : CurSel) (s : State), writable c = true → (∀ f ∈ s.schema, descOk s.fd[f]) →
    (s.cur c).bad = false → cursorOk s.mem.size (s.cur c) →
      ∃ m, exec (.colSer c) s = .next { ({ s with mem := m } : State).setCur c
          ((s.cur c).after (schemaWidths s)) with last := 0 } ∧
        wroteStream s.mem m (s.cur c).bitPos
          ((valuesStream s s.fv).take (fitBits (schemaWidths s) (s.cur c).room))

/-- R144: `COL.DES` through a good cursor reads the leading fields that fit; the others keep their
values. -/
def Obligations.CollectionDeserializes : Prop :=
  ∀ (c : CurSel) (s : State), readable c = true → (∀ f ∈ s.schema, descOk s.fd[f]) →
    (∀ f : Fin 16, s.fv[f].toNat < 2 ^ s.fd[f].w.toNat) →
    (s.cur c).bad = false → cursorOk s.mem.size (s.cur c) →
      ∃ fv, exec (.colDes c) s = .next { ({ s with fv := fv } : State).setCur c
          ((s.cur c).after (schemaWidths s)) with last := 0 } ∧
        valuesStream s fv =
          s.mem.stream (s.cur c).bitPos (fitBits (schemaWidths s) (s.cur c).room) ++
            (valuesStream s s.fv).drop (fitBits (schemaWidths s) (s.cur c).room) ∧
        (∀ f : Fin 16, f ∉ s.schema → fv[f] = s.fv[f]) ∧
        (∀ f : Fin 16, fv[f].toNat < 2 ^ s.fd[f].w.toNat)

/-- R143, R144: a collection command is its members' commands in index order. -/
def Obligations.CollectionIsItsFields : Prop :=
  ∀ (c : CurSel) (s : State), (∀ f ∈ s.schema, s.fd[f].w ≠ 0) →
    (writable c = true → exec (.colSer c) s =
      execAll (s.schema.map fun f => .fldSer c f) { s with last := 0 }) ∧
    (readable c = true → exec (.colDes c) s =
      execAll (s.schema.map fun f => .fldDes c f) { s with last := 0 })

/-! ### The header banks -/

/-- R161: the layout of the primary header, and that `unpack48` is its inverse. -/
def Obligations.PrimaryHeaderLayout : Prop :=
  ∀ (b : Bank) (p : BitVec 48),
    (pack48 b).extractLsb' 45 3 = b.version ∧ (pack48 b).extractLsb' 44 1 = b.type ∧
    (pack48 b).extractLsb' 43 1 = b.shf ∧ (pack48 b).extractLsb' 32 11 = b.apid ∧
    (pack48 b).extractLsb' 30 2 = b.seqflags ∧ (pack48 b).extractLsb' 16 14 = b.seqcount ∧
    (pack48 b).extractLsb' 0 16 = b.length ∧
    (pack48 b).extractLsb' 40 8 = b.version ++ b.type ++ b.shf ++ b.apid.extractLsb' 8 3 ∧
    (pack48 b).extractLsb' 32 8 = b.apid.extractLsb' 0 8 ∧
    (pack48 b).extractLsb' 24 8 = b.seqflags ++ b.seqcount.extractLsb' 8 6 ∧
    (pack48 b).extractLsb' 16 8 = b.seqcount.extractLsb' 0 8 ∧
    (pack48 b).extractLsb' 8 8 = b.length.extractLsb' 8 8 ∧
    (pack48 b).extractLsb' 0 8 = b.length.extractLsb' 0 8 ∧
    pack48 (unpack48 b p) = p ∧ unpack48 b (pack48 b) = b

/-- R166: `HDR.CFGSH`. -/
def Obligations.SecondaryConfigures : Prop :=
  (∀ (u : BankSel) (tcb ancb : BitVec 4), tcb.toNat ≤ 8 → ancb.toNat ≤ 8 →
    encodes { op := 0x30, s := encodeBank u, idx := ancb ++ tcb } (fun _ => .hdrCfgsh u tcb ancb)) ∧
  ∀ (u : BankSel) (tcb ancb : BitVec 4) (s : State),
    (8 < tcb.toNat ∨ 8 < ancb.toNat → exec (.hdrCfgsh u tcb ancb) s = refusedIllegal s) ∧
    (tcb.toNat ≤ 8 → ancb.toNat ≤ 8 →
      let b : Bank := { version := 0, type := 0, shf := 0, apid := 0, seqflags := 0, seqcount := 0
                        length := 0, tcb := tcb, ancb := ancb, tc := 0, anc := 0 }
      let cu : Cursor := { base := 0, size := 0, cursor := 0, bad := false }
      exec (.hdrCfgsh u tcb ancb) s = .next (match u with
        | .a => { s with
            bankA := b, asm := { base := 0, size := 0, active := false }, aw := cu, last := 0 }
        | .x => { s with bankX := b, xr := cu, last := 0 }
        | .d => { s with bankD := b, last := 0 }))

/-- R167, R170: `HDR.SET` stores the value masked to the field's width, in that one register;
`HDR.SETLENOCT` stores an octet count less one. -/
def Obligations.HeaderWrites : Prop :=
  (∀ u fld, encodes { op := 0x31, s := encodeBank u, idx := encodeHdrField fld }
    (fun arg => .hdrSet u fld arg)) ∧
  (∀ u, encodes { op := 0x34, s := encodeBank u } (fun arg => .hdrSetlenoct u arg)) ∧
  (∀ (u : BankSel) (fld : HdrField) (v : Word) (s : State),
    ∃ b, exec (.hdrSet u fld v) s = .next { s.setBank u b with last := 0 } ∧
      b.get fld = BitVec.ofNat 64 (v.toNat % 2 ^ hdrWidth (s.bank u) fld) ∧
      (∀ g, g ≠ fld → b.get g = (s.bank u).get g) ∧
      b.tcb = (s.bank u).tcb ∧ b.ancb = (s.bank u).ancb) ∧
  ∀ (u : BankSel) (n : Word) (s : State),
    (n = 0 → exec (.hdrSetlenoct u n) s = refusedIllegal s) ∧
    (n ≠ 0 → exec (.hdrSetlenoct u n) s = .next { s.setBank u { s.bank u with
      length := BitVec.ofNat 16 (n.toNat - 1) } with last := 0 })

/-- R168, R169, R171, R172: the four commands that reply what a bank holds. -/
def Obligations.HeaderReplies : Prop :=
  (∀ u, (∀ fld, encodes { op := 0x32, s := encodeBank u, idx := encodeHdrField fld }
      (fun _ => .hdrGet u fld)) ∧
    encodes { op := 0x33, s := encodeBank u } (fun _ => .hdrLenoct u) ∧
    encodes { op := 0x35, s := encodeBank u } (fun _ => .hdrIsidle u) ∧
    encodes { op := 0x36, s := encodeBank u } (fun _ => .hdrIsvalid u)) ∧
  ∀ (u : BankSel) (s : State),
    exec (.hdrGet u .version) s =
      .next { s with dout := BitVec.ofNat 64 (s.bank u).version.toNat, last := 0 } ∧
    exec (.hdrGet u .type) s = .next { s with dout := BitVec.ofNat 64 (s.bank u).type.toNat, last := 0 } ∧
    exec (.hdrGet u .shf) s = .next { s with dout := BitVec.ofNat 64 (s.bank u).shf.toNat, last := 0 } ∧
    exec (.hdrGet u .apid) s = .next { s with dout := BitVec.ofNat 64 (s.bank u).apid.toNat, last := 0 } ∧
    exec (.hdrGet u .seqflags) s =
      .next { s with dout := BitVec.ofNat 64 (s.bank u).seqflags.toNat, last := 0 } ∧
    exec (.hdrGet u .seqcount) s =
      .next { s with dout := BitVec.ofNat 64 (s.bank u).seqcount.toNat, last := 0 } ∧
    exec (.hdrGet u .length) s =
      .next { s with dout := BitVec.ofNat 64 (s.bank u).length.toNat, last := 0 } ∧
    exec (.hdrGet u .tc) s = .next { s with dout := (s.bank u).tc, last := 0 } ∧
    exec (.hdrGet u .anc) s = .next { s with dout := (s.bank u).anc, last := 0 } ∧
    exec (.hdrLenoct u) s =
      .next { s with dout := BitVec.ofNat 64 ((s.bank u).length.toNat + 1), last := 0 } ∧
    exec (.hdrIsidle u) s =
      .next { s with dout := if (s.bank u).apid = 0x7FF then 1 else 0, last := 0 } ∧
    exec (.hdrIsvalid u) s = .next { s with
      dout := if (s.bank u).apid = 0x7FF ∧ (s.bank u).shf = 1 then 0 else 1, last := 0 }

/-- R162, R164, R173, R175: the serializing header commands through a good cursor write the leading fields
that fit, bit for bit those of `pack48`, or of the time code and then the ancillary value. -/
def Obligations.HeaderSerializes : Prop :=
  ∀ (u : BankSel) (c : CurSel) (s : State), writable c = true → bankOk (s.bank u) →
    (s.cur c).bad = false → cursorOk s.mem.size (s.cur c) →
      (∃ m, exec (.phSer u c) s = .next { ({ s with mem := m } : State).setCur c
          ((s.cur c).after primaryWidths) with last := 0 } ∧
        wroteStream s.mem m (s.cur c).bitPos
          ((primaryStream (s.bank u)).take (fitBits primaryWidths (s.cur c).room))) ∧
      (∃ m, exec (.shSer u c) s = .next { ({ s with mem := m } : State).setCur c
          ((s.cur c).after (secondaryWidths (s.bank u))) with last := 0 } ∧
        wroteStream s.mem m (s.cur c).bitPos
          ((secondaryStream (s.bank u)).take (fitBits (secondaryWidths (s.bank u)) (s.cur c).room)))

/-- R163, R164, R174, R176: the deserializing header commands through a good cursor read the leading fields
that fit; the others keep their values. -/
def Obligations.HeaderDeserializes : Prop :=
  ∀ (u : BankSel) (c : CurSel) (s : State), readable c = true → bankOk (s.bank u) →
    (s.cur c).bad = false → cursorOk s.mem.size (s.cur c) →
      (∃ b, exec (.phDes u c) s = .next { (s.setBank u b).setCur c
          ((s.cur c).after primaryWidths) with last := 0 } ∧
        primaryStream b = s.mem.stream (s.cur c).bitPos (fitBits primaryWidths (s.cur c).room) ++
          (primaryStream (s.bank u)).drop (fitBits primaryWidths (s.cur c).room) ∧
        b.tcb = (s.bank u).tcb ∧ b.ancb = (s.bank u).ancb ∧ b.tc = (s.bank u).tc ∧
        b.anc = (s.bank u).anc) ∧
      (∃ b, exec (.shDes u c) s = .next { (s.setBank u b).setCur c
          ((s.cur c).after (secondaryWidths (s.bank u))) with last := 0 } ∧
        secondaryStream b = s.mem.stream (s.cur c).bitPos
            (fitBits (secondaryWidths (s.bank u)) (s.cur c).room) ++
          (secondaryStream (s.bank u)).drop (fitBits (secondaryWidths (s.bank u)) (s.cur c).room) ∧
        b.tcb = (s.bank u).tcb ∧ b.ancb = (s.bank u).ancb ∧ pack48 b = pack48 (s.bank u) ∧ bankOk b)

/-- R162, R164: a serializing header command is its puts in order, from every state. -/
def Obligations.HeaderIsItsPuts : Prop :=
  ∀ (u : BankSel) (c : CurSel) (s : State), writable c = true →
    exec (.phSer u c) s = execAll
      [.curPut .b false 3 c ((s.bank u).version.setWidth 64),
       .curPut .b false 1 c ((s.bank u).type.setWidth 64),
       .curPut .b false 1 c ((s.bank u).shf.setWidth 64),
       .curPut .h false 11 c ((s.bank u).apid.setWidth 64),
       .curPut .b false 2 c ((s.bank u).seqflags.setWidth 64),
       .curPut .h false 14 c ((s.bank u).seqcount.setWidth 64),
       .curPut .h false 16 c ((s.bank u).length.setWidth 64)] s ∧
    exec (.shSer u c) s = execAll
      [.curPut .d false (BitVec.ofNat 7 (8 * (s.bank u).tcb.toNat)) c (s.bank u).tc,
       .curPut .d false (BitVec.ofNat 7 (8 * (s.bank u).ancb.toNat)) c (s.bank u).anc] s

/-! ### The packet units -/

/-- R70: a command that sets a window is refused where the window is not inside MEM. -/
def Obligations.WindowOutsideRefused : Prop :=
  ∀ (win : Window) (s : State), s.mem.size < win.base.toNat + win.size.toNat →
    (∀ c, attachable c = true → exec (.curAttach c win) s = refusedRange s) ∧
    exec (.asmBegin win) s = refusedRange s ∧ exec (.asmBeginidle win) s = refusedRange s ∧
    exec (.extOpen win) s = refusedRange s ∧
    (s.colw % 8 = 0 ∧ (0 < s.colw ∨ 0 < s.bankD.secSize) →
      exec (.disFrombuf win) s = refusedRange s ∧ exec (.disTobuf win) s = refusedRange s)

/-- R192, R193: `ASM.BEGIN` and `ASM.CFGIDLE`. -/
def Obligations.AssemblerBegins : Prop :=
  encodes { op := 0x40 } (fun arg =>
    .asmBegin { base := arg.extractLsb' 0 32, size := arg.extractLsb' 32 32 }) ∧
  (∀ sz, encodes { op := 0x42, sz := encodeSize sz } (fun arg => .asmCfgidle sz arg)) ∧
  (∀ (sz : Size) (v : Word) (s : State), exec (.asmCfgidle sz v) s = .next { s with
    idle := { pat := BitVec.ofNat 64 (v.toNat % 2 ^ sizeBits sz), ps := sz }, last := 0 }) ∧
  ∀ (win : Window) (s : State),
    let sec := s.bankA.tcb.toNat + s.bankA.ancb.toNat
    (s.mem.size < win.base.toNat + win.size.toNat ∨ win.size.toNat < 6 + sec →
      exec (.asmBegin win) s = refusedRange s) ∧
    (win.base.toNat + win.size.toNat ≤ s.mem.size → 6 + sec ≤ win.size.toNat →
      exec (.asmBegin win) s = .next { s with
        bankA := { version := 0, type := 0, shf := 0, apid := 0, seqflags := 0, seqcount := 0, length := 0
                   tcb := s.bankA.tcb, ancb := s.bankA.ancb, tc := 0, anc := 0 }
        asm := { base := win.base, size := win.size, active := true }
        aw := { base := BitVec.ofNat 32 (win.base.toNat + 6 + sec)
                size := BitVec.ofNat 32 (win.size.toNat - 6 - sec), cursor := 0, bad := false }
        last := 0 })

/-- R194: `ASM.BEGINIDLE`, refused where R194 says, else the idle packet begun and its user data filled
with the pattern, most significant octet first, repeated and cut off at the end. -/
def Obligations.IdlePacketBegins : Prop :=
  encodes { op := 0x41 } (fun arg =>
    .asmBeginidle { base := arg.extractLsb' 0 32, size := arg.extractLsb' 32 32 }) ∧
  ∀ (win : Window) (s : State),
    (s.mem.size < win.base.toNat + win.size.toNat ∨ win.size.toNat < 6 →
      exec (.asmBeginidle win) s = refusedRange s) ∧
    (s.mem.size ≤ Config.memBytesMax → win.base.toNat + win.size.toNat ≤ s.mem.size →
      6 ≤ win.size.toNat →
      ∃ m, exec (.asmBeginidle win) s = .next { s with
          mem := m
          bankA := { version := 0, type := 0, shf := 0, apid := 0x7FF, seqflags := 0, seqcount := 0
                     length := 0, tcb := 0, ancb := 0, tc := 0, anc := 0 }
          asm := { base := win.base, size := win.size, active := true }
          aw := { base := BitVec.ofNat 32 (win.base.toNat + 6), size := BitVec.ofNat 32 (win.size.toNat - 6)
                  cursor := BitVec.ofNat 35 (8 * (win.size.toNat - 6)), bad := false }
          last := 0 } ∧
        m.size = s.mem.size ∧
        (∀ j, j < win.size.toNat - 6 → m.octet (win.base.toNat + 6 + j) =
          (s.idle.pat >>> (8 * (sizeOctets s.idle.ps - 1 - j % sizeOctets s.idle.ps))).setWidth 8) ∧
        (∀ a, a < win.base.toNat + 6 ∨ win.base.toNat + win.size.toNat ≤ a →
          m.octet a = s.mem.octet a))

/-- R196: `ASM.FINALIZE`: the flag, the length, and the header octets at the start of the window. -/
def Obligations.AssemblerFinalizes : Prop :=
  encodes { op := 0x43 } (fun _ => .asmFinalize) ∧
  ∀ s : State,
    let sec := s.bankA.tcb.toNat + s.bankA.ancb.toNat
    let b : Bank := { s.bankA with
      shf := if 0 < sec then 1 else 0
      length := BitVec.ofNat 16 (sec + (s.aw.cursor.toNat + 7) / 8 + 0xFFFF) }
    (s.asm.active = false → exec .asmFinalize s = refusedState s) ∧
    (s.asm.active = true → s.asm.base.toNat + 6 + sec ≤ s.mem.size →
      ∃ m, exec .asmFinalize s = .next { s with bankA := b, mem := m, last := 0 } ∧
        headerAt m b s.asm.base.toNat ∧ m.size = s.mem.size ∧
        ∀ a, a < s.asm.base.toNat ∨ s.asm.base.toNat + 6 + sec ≤ a → m.octet a = s.mem.octet a)

/-- R197: after a finalize the length field says the octets of the secondary header and of the user data,
from 1 to 65536 of them. -/
def Obligations.LengthLaw : Prop :=
  ∀ s : State, s.Inv → s.asm.active = true →
    1 ≤ s.bankA.secSize + s.userBytes → s.bankA.secSize + s.userBytes ≤ 65536 →
      ∃ t, exec .asmFinalize s = .next t ∧
        exec (.hdrLenoct .a) t = .next { t with
          dout := BitVec.ofNat 64 (s.bankA.secSize + s.userBytes), last := 0 }

/-- R198: a second finalize leaves every register and every octet as the first left it. -/
def Obligations.FinalizeIdempotent : Prop :=
  ∀ s t : State, s.Inv → s.asm.active = true → exec .asmFinalize s = .next t →
    exec .asmFinalize t = .next t

/-- R199, R200: `ASM.SIZE` and `ASM.VALID`. -/
def Obligations.AssemblerReplies : Prop :=
  encodes { op := 0x44 } (fun _ => .asmSize) ∧ encodes { op := 0x45 } (fun _ => .asmValid) ∧
  ∀ s : State,
    let sec := s.bankA.tcb.toNat + s.bankA.ancb.toNat
    let bits := s.aw.cursor.toNat
    let bytes := (bits + 7) / 8
    let total := 6 + sec + bytes
    let idle := s.bankA.apid = 0x7FF
    exec .asmSize s = .next { s with dout := BitVec.ofNat 64 total, last := 0 } ∧
    exec .asmValid s = .next { s with
      dout := if (0 < sec ∨ 0 < bits) ∧ bits % 8 = 0 ∧ (7 ≤ total ∧ total ≤ 65542) ∧
          (s.bankA.shf = 1 ↔ 0 < sec) ∧ ¬ (idle ∧ 0 < sec) ∧ s.bankA.length.toNat + 1 = sec + bytes ∧
          ¬ (idle ∧ s.bankA.shf = 1) then 1 else 0
      last := 0 }

/-- R221: `EXT.OPEN`: the headers read into bank X, `XR` over the user data, MEM read only. -/
def Obligations.ExtractorOpens : Prop :=
  encodes { op := 0x50 } (fun arg =>
    .extOpen { base := arg.extractLsb' 0 32, size := arg.extractLsb' 32 32 }) ∧
  ∀ (win : Window) (s : State),
    let sec := s.bankX.tcb.toNat + s.bankX.ancb.toNat
    (s.mem.size < win.base.toNat + win.size.toNat ∨ win.size.toNat < 6 + sec →
      exec (.extOpen win) s = refusedRange s) ∧
    (win.base.toNat + win.size.toNat ≤ s.mem.size → 6 + sec ≤ win.size.toNat → bankOk s.bankX →
      ∃ b, exec (.extOpen win) s = .next { s with
          bankX := b
          xr := { base := BitVec.ofNat 32 (win.base.toNat + 6 + sec)
                  size := BitVec.ofNat 32 (win.size.toNat - 6 - sec), cursor := 0, bad := false }
          last := 0 } ∧
        b.tcb = s.bankX.tcb ∧ b.ancb = s.bankX.ancb ∧ headerAt s.mem b win.base.toNat ∧ bankOk b)

/-- R196, R221: what the assembler finalized, an extractor configured alike opens: the same header
registers, and `XR` over the octets that `AW` was over. -/
def Obligations.AssembleThenExtract : Prop :=
  ∀ s : State, s.Inv → s.asm.active = true → s.bankX.tcb = s.bankA.tcb → s.bankX.ancb = s.bankA.ancb →
    ∃ t, exec .asmFinalize s = .next t ∧
      exec (.extOpen { base := s.asm.base, size := s.asm.size }) t = .next { t with
        bankX := t.bankA, xr := { t.aw with cursor := 0, bad := false }, last := 0 }

/-- R231, R235, R236: the dissector's commands are refused where its shape is not legal; `DIS.FINALIZE` and
`DIS.SIZE` where it is. -/
def Obligations.DissectorShapeAndSize : Prop :=
  encodes { op := 0x62 } (fun _ => .disFinalize) ∧ encodes { op := 0x63 } (fun _ => .disSize) ∧
  ∀ s : State,
    let sec := s.bankD.tcb.toNat + s.bankD.ancb.toNat
    (s.colw % 8 ≠ 0 ∨ (s.colw = 0 ∧ sec = 0) →
      (∀ win, exec (.disFrombuf win) s = refusedShape s ∧ exec (.disTobuf win) s = refusedShape s) ∧
      exec .disFinalize s = refusedShape s ∧ exec .disSize s = refusedShape s) ∧
    (s.colw % 8 = 0 → 0 < s.colw ∨ 0 < sec →
      exec .disFinalize s = .next { s with
        bankD := { s.bankD with
          shf := if 0 < sec then 1 else 0, length := BitVec.ofNat 16 (sec + s.colw / 8 - 1) }
        last := 0 } ∧
      exec .disSize s = .next { s with dout := BitVec.ofNat 64 (6 + sec + s.colw / 8), last := 0 })

/-- R233: `DIS.FROMBUF` reads the headers into bank D and the user data into the fields. -/
def Obligations.DissectorReads : Prop :=
  ∀ (win : Window) (s : State), s.Inv → s.colw % 8 = 0 → 0 < s.colw ∨ 0 < s.bankD.secSize →
    (s.mem.size < win.base.toNat + win.size.toNat ∨ win.size.toNat < 6 + s.bankD.secSize + s.colw / 8 →
      exec (.disFrombuf win) s = refusedRange s) ∧
    (win.base.toNat + win.size.toNat ≤ s.mem.size → 6 + s.bankD.secSize + s.colw / 8 ≤ win.size.toNat →
      ∃ b fv, exec (.disFrombuf win) s = .next { s with bankD := b, fv := fv, last := 0 } ∧
        b.tcb = s.bankD.tcb ∧ b.ancb = s.bankD.ancb ∧ headerAt s.mem b win.base.toNat ∧ bankOk b ∧
        valuesStream s fv = s.mem.stream (8 * (win.base.toNat + 6 + s.bankD.secSize)) s.colw ∧
        (∀ f : Fin 16, f ∉ s.schema → fv[f] = s.fv[f]) ∧
        (∀ f : Fin 16, fv[f].toNat < 2 ^ s.fd[f].w.toNat))

/-- R234: `DIS.TOBUF` writes bank D's headers and the fields, `dsize` octets and no other. -/
def Obligations.DissectorWrites : Prop :=
  ∀ (win : Window) (s : State), s.Inv → s.colw % 8 = 0 → 0 < s.colw ∨ 0 < s.bankD.secSize →
    (s.mem.size < win.base.toNat + win.size.toNat ∨ win.size.toNat < 6 + s.bankD.secSize + s.colw / 8 →
      exec (.disTobuf win) s = refusedRange s) ∧
    (win.base.toNat + win.size.toNat ≤ s.mem.size → 6 + s.bankD.secSize + s.colw / 8 ≤ win.size.toNat →
      ∃ m, exec (.disTobuf win) s = .next { s with mem := m, last := 0 } ∧
        headerAt m s.bankD win.base.toNat ∧
        m.stream (8 * (win.base.toNat + 6 + s.bankD.secSize)) s.colw = valuesStream s s.fv ∧
        m.size = s.mem.size ∧
        ∀ a, a < win.base.toNat ∨ win.base.toNat + 6 + s.bankD.secSize + s.colw / 8 ≤ a →
          m.octet a = s.mem.octet a)

/-- R237: after `DIS.TOBUF`, whatever bank D's values and the schema's values have become, `DIS.FROMBUF` of
the same window restores them, and a second `DIS.TOBUF` writes the same octets. -/
def Obligations.DissectorRoundTrip : Prop :=
  ∀ (win win' : Window) (s t s' : State), s.Inv → exec (.disTobuf win) s = .next t → t.last = 0 →
    s'.Inv → s'.mem = t.mem → s'.fd = s.fd → s'.nfld = s.nfld →
    s'.bankD.tcb = s.bankD.tcb → s'.bankD.ancb = s.bankD.ancb →
    (∀ f : Fin 16, f ∉ s.schema → s'.fv[f] = s.fv[f]) →
    win'.base.toNat + win'.size.toNat ≤ s.mem.size → s.dsize ≤ win'.size.toNat →
      ∃ t' u, exec (.disFrombuf win) s' = .next t' ∧ t'.bankD = s.bankD ∧ t'.fv = s.fv ∧
        exec (.disTobuf win') t' = .next u ∧
        ∀ k, k < s.dsize → u.mem.octet (win'.base.toNat + k) = t.mem.octet (win.base.toNat + k)
end

