-- ==== Sys2Proof/Laws/State.lean ====
section
/-! SUPPORT. One lemma per field per update of the state, true by `rfl`, so that no later proof unfolds
a record update; the cursor and bank files as registers; how a command ends. -/

namespace Sys2Proof.Machine

/-! ### `recordStatus` -/

section
variable (st : Status) (s : State)
@[simp] theorem recordStatus_last : (recordStatus st s).last = statusCode st := rfl
@[simp] theorem recordStatus_esr : (recordStatus st s).esr = s.esr ||| statusBit st := rfl
@[simp] theorem recordStatus_mem : (recordStatus st s).mem = s.mem := rfl
@[simp] theorem recordStatus_cur (c : CurSel) : (recordStatus st s).cur c = s.cur c := by cases c <;> rfl
@[simp] theorem recordStatus_bank (u : BankSel) : (recordStatus st s).bank u = s.bank u := by
  cases u <;> rfl
@[simp] theorem recordStatus_aw : (recordStatus st s).aw = s.aw := rfl
@[simp] theorem recordStatus_xr : (recordStatus st s).xr = s.xr := rfl
@[simp] theorem recordStatus_g2 : (recordStatus st s).g2 = s.g2 := rfl
@[simp] theorem recordStatus_g3 : (recordStatus st s).g3 = s.g3 := rfl
@[simp] theorem recordStatus_bankA : (recordStatus st s).bankA = s.bankA := rfl
@[simp] theorem recordStatus_bankX : (recordStatus st s).bankX = s.bankX := rfl
@[simp] theorem recordStatus_bankD : (recordStatus st s).bankD = s.bankD := rfl
@[simp] theorem recordStatus_asm : (recordStatus st s).asm = s.asm := rfl
@[simp] theorem recordStatus_idle : (recordStatus st s).idle = s.idle := rfl
@[simp] theorem recordStatus_fd : (recordStatus st s).fd = s.fd := rfl
@[simp] theorem recordStatus_fv : (recordStatus st s).fv = s.fv := rfl
@[simp] theorem recordStatus_nfld : (recordStatus st s).nfld = s.nfld := rfl
@[simp] theorem recordStatus_dout : (recordStatus st s).dout = s.dout := rfl
@[simp] theorem recordStatus_input : (recordStatus st s).input = s.input := rfl
@[simp] theorem recordStatus_pos : (recordStatus st s).pos = s.pos := rfl
@[simp] theorem recordStatus_rsp : (recordStatus st s).rsp = s.rsp := rfl
@[simp] theorem recordStatus_freeNext : (recordStatus st s).freeNext = s.freeNext := rfl
@[simp] theorem recordStatus_schema : (recordStatus st s).schema = s.schema := rfl
end

/-- An OK status keeps `ESR` (R263). -/
@[simp] theorem recordStatus_ok (s : State) : recordStatus .ok s = { s with last := 0 } := by
  simp [recordStatus, statusCode, statusBit]

/-! ### `setCur`, `setBank`, `setFv` -/

section
variable (s : State) (c : CurSel) (cu : Cursor)
@[simp] theorem setCur_mem : (s.setCur c cu).mem = s.mem := by cases c <;> rfl
@[simp] theorem setCur_bank (u : BankSel) : (s.setCur c cu).bank u = s.bank u := by
  cases c <;> cases u <;> rfl
@[simp] theorem setCur_bankA : (s.setCur c cu).bankA = s.bankA := by cases c <;> rfl
@[simp] theorem setCur_bankX : (s.setCur c cu).bankX = s.bankX := by cases c <;> rfl
@[simp] theorem setCur_bankD : (s.setCur c cu).bankD = s.bankD := by cases c <;> rfl
@[simp] theorem setCur_asm : (s.setCur c cu).asm = s.asm := by cases c <;> rfl
@[simp] theorem setCur_idle : (s.setCur c cu).idle = s.idle := by cases c <;> rfl
@[simp] theorem setCur_fd : (s.setCur c cu).fd = s.fd := by cases c <;> rfl
@[simp] theorem setCur_fv : (s.setCur c cu).fv = s.fv := by cases c <;> rfl
@[simp] theorem setCur_nfld : (s.setCur c cu).nfld = s.nfld := by cases c <;> rfl
@[simp] theorem setCur_dout : (s.setCur c cu).dout = s.dout := by cases c <;> rfl
@[simp] theorem setCur_esr : (s.setCur c cu).esr = s.esr := by cases c <;> rfl
@[simp] theorem setCur_last : (s.setCur c cu).last = s.last := by cases c <;> rfl
@[simp] theorem setCur_input : (s.setCur c cu).input = s.input := by cases c <;> rfl
@[simp] theorem setCur_pos : (s.setCur c cu).pos = s.pos := by cases c <;> rfl
@[simp] theorem setCur_rsp : (s.setCur c cu).rsp = s.rsp := by cases c <;> rfl
@[simp] theorem setCur_freeNext : (s.setCur c cu).freeNext = s.freeNext := by cases c <;> rfl
@[simp] theorem setCur_schema : (s.setCur c cu).schema = s.schema := by cases c <;> rfl
@[simp] theorem setCur_cur_same : (s.setCur c cu).cur c = cu := by cases c <;> rfl
theorem setCur_cur_other {d : CurSel} (h : d ≠ c) : (s.setCur c cu).cur d = s.cur d := by
  cases c <;> cases d <;> first | rfl | exact absurd rfl h
theorem setCur_cur (d : CurSel) : (s.setCur c cu).cur d = if d = c then cu else s.cur d := by
  cases c <;> cases d <;> rfl
@[simp] theorem setCur_setCur (cv : Cursor) : (s.setCur c cu).setCur c cv = s.setCur c cv := by
  cases c <;> rfl
@[simp] theorem setCur_self : s.setCur c (s.cur c) = s := by cases c <;> rfl
end

section
variable (s : State) (u : BankSel) (b : Bank)
@[simp] theorem setBank_mem : (s.setBank u b).mem = s.mem := by cases u <;> rfl
@[simp] theorem setBank_cur (c : CurSel) : (s.setBank u b).cur c = s.cur c := by
  cases c <;> cases u <;> rfl
@[simp] theorem setBank_aw : (s.setBank u b).aw = s.aw := by cases u <;> rfl
@[simp] theorem setBank_asm : (s.setBank u b).asm = s.asm := by cases u <;> rfl
@[simp] theorem setBank_idle : (s.setBank u b).idle = s.idle := by cases u <;> rfl
@[simp] theorem setBank_fd : (s.setBank u b).fd = s.fd := by cases u <;> rfl
@[simp] theorem setBank_fv : (s.setBank u b).fv = s.fv := by cases u <;> rfl
@[simp] theorem setBank_nfld : (s.setBank u b).nfld = s.nfld := by cases u <;> rfl
@[simp] theorem setBank_dout : (s.setBank u b).dout = s.dout := by cases u <;> rfl
@[simp] theorem setBank_esr : (s.setBank u b).esr = s.esr := by cases u <;> rfl
@[simp] theorem setBank_last : (s.setBank u b).last = s.last := by cases u <;> rfl
@[simp] theorem setBank_input : (s.setBank u b).input = s.input := by cases u <;> rfl
@[simp] theorem setBank_pos : (s.setBank u b).pos = s.pos := by cases u <;> rfl
@[simp] theorem setBank_rsp : (s.setBank u b).rsp = s.rsp := by cases u <;> rfl
@[simp] theorem setBank_freeNext : (s.setBank u b).freeNext = s.freeNext := by cases u <;> rfl
@[simp] theorem setBank_schema : (s.setBank u b).schema = s.schema := by cases u <;> rfl
@[simp] theorem setBank_bank_same : (s.setBank u b).bank u = b := by cases u <;> rfl
@[simp] theorem setBank_self : s.setBank u (s.bank u) = s := by cases u <;> rfl
theorem setBank_bank (v : BankSel) : (s.setBank u b).bank v = if v = u then b else s.bank v := by
  cases u <;> cases v <;> rfl
end

section
variable (s : State) (f : Fin 16) (v : Word)
@[simp] theorem setFv_mem : (s.setFv f v).mem = s.mem := rfl
@[simp] theorem setFv_cur (c : CurSel) : (s.setFv f v).cur c = s.cur c := by cases c <;> rfl
@[simp] theorem setFv_bank (u : BankSel) : (s.setFv f v).bank u = s.bank u := by cases u <;> rfl
@[simp] theorem setFv_asm : (s.setFv f v).asm = s.asm := rfl
@[simp] theorem setFv_idle : (s.setFv f v).idle = s.idle := rfl
@[simp] theorem setFv_fd : (s.setFv f v).fd = s.fd := rfl
@[simp] theorem setFv_fv : (s.setFv f v).fv = s.fv.set f v := rfl
@[simp] theorem setFv_nfld : (s.setFv f v).nfld = s.nfld := rfl
@[simp] theorem setFv_dout : (s.setFv f v).dout = s.dout := rfl
@[simp] theorem setFv_esr : (s.setFv f v).esr = s.esr := rfl
@[simp] theorem setFv_self : s.setFv f s.fv[f] = s := by simp [State.setFv]
@[simp] theorem setFv_last : (s.setFv f v).last = s.last := rfl
@[simp] theorem setFv_schema : (s.setFv f v).schema = s.schema := rfl
end

/-! ### `afterReset` -/

section
variable (m : Memory) (inp : List HostMove) (p : Nat) (r : List Response) (n : Nat)
@[simp] theorem afterReset_mem : (State.afterReset m inp p r n).mem = m := rfl
@[simp] theorem afterReset_input : (State.afterReset m inp p r n).input = inp := rfl
@[simp] theorem afterReset_cur (c : CurSel) : (State.afterReset m inp p r n).cur c = Cursor.zero := by
  cases c <;> rfl
@[simp] theorem afterReset_bank (u : BankSel) : (State.afterReset m inp p r n).bank u = Bank.zero := by
  cases u <;> rfl
@[simp] theorem afterReset_schema : (State.afterReset m inp p r n).schema = [] := rfl
end

/-! ### How a command ends -/

theorem complete_eq (s : State) : complete s = .next { s with last := 0 } := by simp [complete]

theorem reply_eq (v : Word) (s : State) : reply v s = .next { s with dout := v, last := 0 } := by
  simp [reply, complete]

theorem refuse_eq (st : Status) (s : State) :
    refuse st s = .next { s with last := statusCode st, esr := s.esr ||| statusBit st } := rfl

/-- A command that reached MEM answers a next state exactly when its procedure did not fault. -/
theorem completeWith_next {α : Type} {r : Except Fault α} {k : α → State} {t : State} :
    completeWith r k = .next t ↔ ∃ x, r = .ok x ∧ t = { k x with last := 0 } := by
  cases r with
  | ok x => simp [completeWith, complete, eq_comm]
  | error f => simp [completeWith]

@[simp] theorem completeWith_ok {α : Type} (x : α) (k : α → State) :
    completeWith (.ok x) k = .next { k x with last := 0 } := by
  simp [completeWith, complete]

/-- The state after a command that writes the stream: MEM and one cursor. -/
theorem throughWriter_next {s t : State} {c : CurSel}
    {proc : Memory × Cursor → Except Fault (Memory × Cursor)} :
    throughWriter s c proc = .next t ↔
      ∃ m cu, proc (s.mem, s.cur c) = .ok (m, cu) ∧
        t = { ({ s with mem := m } : State).setCur c cu with last := 0 } := by
  simp [throughWriter, completeWith_next]

theorem throughWriter_ok {s : State} {c : CurSel}
    {proc : Memory × Cursor → Except Fault (Memory × Cursor)} {m : Memory} {cu : Cursor}
    (h : proc (s.mem, s.cur c) = .ok (m, cu)) :
    throughWriter s c proc = .next { ({ s with mem := m } : State).setCur c cu with last := 0 } := by
  simp [throughWriter, h]

/-! ### Sequencing of procedures that may reach MEM -/

theorem bind_ok {α β : Type} {x : Except Fault α} {f : α → Except Fault β} {b : β} :
    (x >>= f) = .ok b ↔ ∃ a, x = .ok a ∧ f a = .ok b := by
  cases x with
  | ok a => exact ⟨fun h => ⟨a, rfl, h⟩, fun ⟨_, h, h'⟩ => (by cases h; exact h')⟩
  | error e => exact ⟨fun h => (by cases h), fun ⟨_, h, _⟩ => (by cases h)⟩

@[simp] theorem ok_bind {α β : Type} (a : α) (f : α → Except Fault β) :
    ((Except.ok a : Except Fault α) >>= f) = f a := rfl

@[simp] theorem error_bind {α β : Type} (e : Fault) (f : α → Except Fault β) :
    ((Except.error e : Except Fault α) >>= f) = .error e := rfl

@[simp] theorem pure_eq_ok {α : Type} (a : α) : (pure a : Except Fault α) = .ok a := rfl

end Sys2Proof.Machine
end

