-- ==== Sys2Proof/Laws/Memory.lean ====
section
/-! SUPPORT. MEM: read after write, the canonical form, and the spec lemma of each memory operation. -/

namespace Sys2Proof.Machine

theorem lookupCell_storeCell (a b : Nat) (v : Byte) (cells : List Host.Cell) :
    lookupCell b (storeCell a v cells) = if a = b then some v else lookupCell b cells := by
  induction cells with
  | nil => simp [storeCell, lookupCell]
  | cons p rest ih =>
    obtain ⟨c, w⟩ := p
    by_cases hlt : a < c
    · simp [storeCell, lookupCell, hlt]
    · by_cases hac : a = c
      · subst hac
        by_cases hab : a = b <;> simp [storeCell, lookupCell, hab]
      · simp only [storeCell, hlt, hac, if_false, lookupCell, ih]
        by_cases hcb : c = b
        · have : a ≠ b := fun h => hac (h.trans hcb.symm)
          simp [hcb, this]
        · simp [hcb]

theorem mem_storeCell {a : Nat} {v : Byte} {p : Host.Cell} :
    ∀ {cells : List Host.Cell}, p ∈ storeCell a v cells → p = (a, v) ∨ p ∈ cells
  | [], h => by simpa [storeCell] using h
  | (b, w) :: rest, h => by
    unfold storeCell at h
    split at h
    · simpa using h
    · split at h
      · rcases List.mem_cons.1 h with h | h
        · exact .inl h
        · exact .inr (List.mem_cons_of_mem _ h)
      · rcases List.mem_cons.1 h with h | h
        · exact .inr (h ▸ List.mem_cons_self)
        · exact (mem_storeCell h).imp_right (List.mem_cons_of_mem _)

theorem storeCell_pairwise (a : Nat) (v : Byte) :
    ∀ {cells : List Host.Cell}, cells.Pairwise (fun p q => p.1 < q.1) →
      (storeCell a v cells).Pairwise (fun p q => p.1 < q.1)
  | [], _ => by simp [storeCell]
  | (b, w) :: rest, h => by
    have hb : ∀ q ∈ rest, b < q.1 := fun q hq => List.rel_of_pairwise_cons h hq
    have hr := h.of_cons
    unfold storeCell
    split
    · refine List.pairwise_cons.2 ⟨fun q hq => ?_, h⟩
      rcases List.mem_cons.1 hq with rfl | hq
      · assumption
      · exact Nat.lt_trans ‹_› (hb q hq)
    · split
      · subst a
        exact List.pairwise_cons.2 ⟨hb, hr⟩
      · refine List.pairwise_cons.2 ⟨fun q hq => ?_, storeCell_pairwise a v hr⟩
        rcases mem_storeCell hq with rfl | hq
        · show b < a; omega
        · exact hb q hq

@[simp] theorem set_size (m : Memory) (a : Nat) (v : Byte) : (m.set a v).size = m.size := rfl

/-- Read after write: the octet written reads as written, every other octet as before. -/
theorem octet_set (m : Memory) (a b : Nat) (v : Byte) :
    (m.set a v).octet b = if a = b then v else m.octet b := by
  by_cases h : a = b <;> simp [Memory.octet, Memory.set, lookupCell_storeCell, h]

@[simp] theorem octet_set_same (m : Memory) (a : Nat) (v : Byte) : (m.set a v).octet a = v := by
  simp [octet_set]

theorem octet_set_other (m : Memory) {a b : Nat} (v : Byte) (h : b ≠ a) :
    (m.set a v).octet b = m.octet b := by simp [octet_set, Ne.symm h]

/-- A write at an address of MEM keeps the canonical form. -/
theorem set_wf {m : Memory} {a : Nat} (v : Byte) (h : m.wf) (ha : a < m.size) : (m.set a v).wf := by
  refine ⟨storeCell_pairwise a v h.1, fun p hp => ?_⟩
  rcases mem_storeCell hp with rfl | hp
  · exact ha
  · exact h.2 p hp

theorem lookupCell_none_of_lt {a : Nat} :
    ∀ {cells : List Host.Cell}, (∀ p ∈ cells, a < p.1) → lookupCell a cells = none
  | [], _ => rfl
  | (b, w) :: rest, h => by
    have hb : b ≠ a := Nat.ne_of_gt (h (b, w) List.mem_cons_self)
    simp [lookupCell, hb, lookupCell_none_of_lt fun p hp => h p (List.mem_cons_of_mem _ hp)]

/-- Two memories in canonical form that list the same octets are equal data. -/
theorem cells_ext :
    ∀ {xs ys : List Host.Cell}, xs.Pairwise (fun p q => p.1 < q.1) → ys.Pairwise (fun p q => p.1 < q.1) →
      (∀ a, lookupCell a xs = lookupCell a ys) → xs = ys
  | [], [], _, _, _ => rfl
  | [], (b, w) :: _, _, _, h => by simpa [lookupCell] using h b
  | (b, w) :: _, [], _, _, h => by simpa [lookupCell] using h b
  | (b, w) :: xs, (c, v) :: ys, hx, hy, h => by
    have hbx : ∀ p ∈ xs, b < p.1 := fun p hp => List.rel_of_pairwise_cons hx hp
    have hcy : ∀ p ∈ ys, c < p.1 := fun p hp => List.rel_of_pairwise_cons hy hp
    have hbc : b = c := by
      rcases Nat.lt_trichotomy b c with hlt | rfl | hgt
      · have hb : lookupCell b ((b, w) :: xs) = some w := by simp [lookupCell]
        have hn : lookupCell b ((c, v) :: ys) = none := lookupCell_none_of_lt fun p hp => by
          rcases List.mem_cons.1 hp with rfl | hp
          · exact hlt
          · exact Nat.lt_trans hlt (hcy p hp)
        rw [h b, hn] at hb
        exact absurd hb (by simp)
      · rfl
      · have hc : lookupCell c ((c, v) :: ys) = some v := by simp [lookupCell]
        have hn : lookupCell c ((b, w) :: xs) = none := lookupCell_none_of_lt fun p hp => by
          rcases List.mem_cons.1 hp with rfl | hp
          · exact hgt
          · exact Nat.lt_trans hgt (hbx p hp)
        rw [← h c, hn] at hc
        exact absurd hc (by simp)
    subst hbc
    have hwv : w = v := by simpa [lookupCell] using h b
    subst hwv
    congr 1
    refine cells_ext hx.of_cons hy.of_cons fun a => ?_
    by_cases hab : b = a
    · subst hab
      rw [lookupCell_none_of_lt hbx, lookupCell_none_of_lt hcy]
    · simpa [lookupCell, hab] using h a

theorem memory_ext {m m' : Memory} (h : m.wf) (h' : m'.wf) (hs : m.size = m'.size)
    (hl : ∀ a, lookupCell a m.cells = lookupCell a m'.cells) : m = m' := by
  cases m; cases m'
  simp only at hs
  subst hs
  simpa using cells_ext h.1 h'.1 hl

/-! ### `memRead`, `memWrite` -/

theorem memRead_ok {m : Memory} {a : Nat} {v : Byte} :
    memRead m a = .ok v ↔ a < m.size ∧ v = m.octet a := by
  unfold memRead
  split <;> simp_all [eq_comm]

theorem memRead_of_lt {m : Memory} {a : Nat} (h : a < m.size) : memRead m a = .ok (m.octet a) := by
  simp [memRead, h]

theorem memWrite_ok {m m' : Memory} {a : Nat} {v : Byte} :
    memWrite m a v = .ok m' ↔ a < m.size ∧ m' = m.set a v := by
  unfold memWrite
  split <;> simp_all [eq_comm]

theorem memWrite_of_lt {m : Memory} {a : Nat} (v : Byte) (h : a < m.size) :
    memWrite m a v = .ok (m.set a v) := by
  simp [memWrite, h]

/-! ### Lists of octets -/

/-- What a memory holds after octets were stored from an address on. -/
structure storedOctets (m m' : Memory) (a : Nat) (vs : List Byte) : Prop where
  size : m'.size = m.size
  inside : ∀ k (h : k < vs.length), m'.octet (a + k) = vs[k]
  outside : ∀ b, b < a ∨ a + vs.length ≤ b → m'.octet b = m.octet b
  wf : m.wf → m'.wf

theorem memWriteList_spec (vs : List Byte) : ∀ (m : Memory) (a : Nat), a + vs.length ≤ m.size →
    ∃ m', memWriteList m a vs = .ok m' ∧ storedOctets m m' a vs := by
  induction vs with
  | nil => exact fun m a _ => ⟨m, rfl, rfl, by simp, by simp, id⟩
  | cons v vs ih =>
    intro m a h
    have ha : a < m.size := by simp at h; omega
    obtain ⟨m', hm', hs⟩ := ih (m.set a v) (a + 1) (by simp at h ⊢; omega)
    refine ⟨m', by simp [memWriteList, memWrite_of_lt v ha, hm'], hs.size, fun k hk => ?_, fun b hb => ?_,
      fun hw => hs.wf (set_wf v hw ha)⟩
    · cases k with
      | zero =>
        rw [hs.outside (a + 0) (by omega)]
        simp
      | succ k =>
        have := hs.inside k (by simpa using hk)
        rw [show a + (k + 1) = a + 1 + k by omega, this]
        simp
    · simp only [List.length_cons] at hb
      rw [hs.outside b (by omega), octet_set_other _ _ (by omega)]

/-- A stored list of octets was in MEM. -/
theorem memWriteList_ok {vs : List Byte} : ∀ {m m' : Memory} {a : Nat},
    memWriteList m a vs = .ok m' → vs = [] ∨ a + vs.length ≤ m.size := by
  induction vs with
  | nil => exact fun _ => .inl rfl
  | cons v vs ih =>
    intro m m' a h
    obtain ⟨m1, h1, h2⟩ := bind_ok.1 (show (memWrite m a v >>= fun m => memWriteList m (a + 1) vs) = _ from h)
    obtain ⟨ha, rfl⟩ := memWrite_ok.1 h1
    right
    rcases ih h2 with rfl | h3
    · simp; omega
    · simp at h3 ⊢; omega

/-- What a stored list of octets makes of the listed octets. -/
theorem memWriteList_lookup {vs : List Byte} : ∀ {m m' : Memory} {a : Nat},
    memWriteList m a vs = .ok m' → ∀ b, lookupCell b m'.cells =
      if a ≤ b ∧ b < a + vs.length then vs[b - a]? else lookupCell b m.cells := by
  induction vs with
  | nil =>
    intro m m' a h b
    cases h
    simp only [List.length_nil, Nat.add_zero]
    rw [if_neg (by omega)]
  | cons v vs ih =>
    intro m m' a h b
    obtain ⟨m1, h1, h2⟩ := bind_ok.1 (show (memWrite m a v >>= fun m => memWriteList m (a + 1) vs) = _ from h)
    obtain ⟨-, rfl⟩ := memWrite_ok.1 h1
    rw [ih h2 b]
    simp only [Memory.set, lookupCell_storeCell, List.length_cons]
    by_cases hb : a = b
    · subst hb
      rw [if_neg (by omega), if_pos rfl, if_pos (by omega)]
      simp
    · by_cases hc : a + 1 ≤ b ∧ b < a + 1 + vs.length
      · rw [if_pos hc, if_pos (by omega), show b - a = b - (a + 1) + 1 by omega]
        simp
      · rw [if_neg hc, if_neg hb, if_neg (by omega)]

/-- Octets that stand in MEM already are stored again without a change. -/
theorem memWriteList_again {vs : List Byte} {m m' : Memory} {a : Nat} (hw : m.wf)
    (h : memWriteList m a vs = .ok m') : memWriteList m' a vs = .ok m' := by
  rcases memWriteList_ok h with rfl | hs
  · rfl
  · obtain ⟨x, hx, hxs⟩ := memWriteList_spec vs m a hs
    rw [h] at hx
    cases hx
    obtain ⟨y, hy, hys⟩ := memWriteList_spec vs m' a (by rw [hxs.size]; exact hs)
    rw [hy, memory_ext (hys.wf (hxs.wf hw)) (hxs.wf hw) hys.size fun b => ?_]
    rw [memWriteList_lookup hy, memWriteList_lookup h]
    split <;> rfl

@[simp] theorem octetsBE_length (v : Word) (n : Nat) : (octetsBE v n).length = n := by
  induction n with
  | zero => rfl
  | succ n ih => simp [octetsBE, ih]

/-- Octet `k` of `n`, counted from the most significant. -/
theorem octetsBE_get (v : Word) (n k : Nat) (h : k < n) :
    (octetsBE v n)[k]'(by simpa using h) = (v >>> (8 * (n - 1 - k))).setWidth 8 := by
  induction n generalizing k with
  | zero => omega
  | succ n ih =>
    cases k with
    | zero => simp [octetsBE]
    | succ k =>
      simp only [octetsBE, List.getElem_cons_succ]
      rw [ih k (by omega)]
      congr 3
      omega

/-- The big-endian value of octets of MEM, as `memReadBE` builds it. -/
def beValue (m : Memory) (a : Nat) (acc : Word) : Nat → Word
  | 0 => acc
  | n + 1 => beValue m (a + 1) ((acc <<< 8) ||| (m.octet a).setWidth 64) n

theorem memReadBE_spec (m : Memory) : ∀ (n a : Nat) (acc : Word), a + n ≤ m.size →
    memReadBE m a acc n = .ok (beValue m a acc n) := by
  intro n
  induction n with
  | zero => exact fun _ _ _ => rfl
  | succ n ih =>
    intro a acc h
    simp only [memReadBE, memRead_of_lt (show a < m.size by omega), ok_bind, beValue]
    exact ih _ _ (by omega)

/-! ### After reset -/

/-- R8: the bounds of `MEM_BYTES`, all that is known of it. -/
theorem memBytes_bounds : 1 ≤ Config.memBytes ∧ Config.memBytes ≤ Config.memBytesMax := by
  have h : Config.memBytesChoice % Config.memBytesMax < Config.memBytesMax := Nat.mod_lt _ (by decide)
  unfold Config.memBytes
  omega

@[simp] theorem reset_mem_size : State.reset.mem.size = Config.memBytes := rfl

/-- MEM after reset has the canonical form. -/
theorem reset_mem_wf : State.reset.mem.wf := by
  simp [State.reset, State.afterReset, Memory.wf]

end Sys2Proof.Machine
end

