-- ==== Sys2Proof/Laws/Stream.lean ====
section
/-! SUPPORT. Streams of bits: what a put of several bits makes of MEM, said once (R61, R67), and how two
puts in a row compose (R109). -/

namespace Sys2Proof.Machine

theorem bitPos_div (cu : Cursor) : cu.bitPos / 8 = cu.addr := by
  simp only [Cursor.bitPos, Cursor.addr]; omega

theorem bitPos_mod (cu : Cursor) : cu.bitPos % 8 = cu.phase := by
  simp only [Cursor.bitPos, Cursor.phase]; omega

/-- A bit of MEM after one octet was written. -/
theorem bit_set (m : Memory) (a : Nat) (v : Byte) (n : Nat) :
    (m.set a v).bit n = if n / 8 = a then v.getLsbD (7 - n % 8) else m.bit n := by
  by_cases h : n / 8 = a
  · simp [Memory.bit, h]
  · simp [Memory.bit, h, octet_set_other _ _ h]

/-- An octet reads as before when its eight bits do. -/
theorem octet_eq_of_bits {m m' : Memory} {a : Nat}
    (h : ∀ n, n / 8 = a → m'.bit n = m.bit n) : m'.octet a = m.octet a := by
  apply BitVec.eq_of_getLsbD_eq
  intro i hi
  have := h (8 * a + (7 - i)) (by omega)
  simp only [Memory.bit] at this
  rw [show (8 * a + (7 - i)) / 8 = a by omega, show 7 - (8 * a + (7 - i)) % 8 = i by omega] at this
  exact this

@[simp] theorem bitAfter_nil (p n : Nat) (old : Bool) : bitAfter p [] n old = old := by
  simp only [bitAfter, List.length_nil, Nat.not_lt_zero, dite_false, Nat.add_zero]
  split
  · rfl
  · split
    · have h1 : p % 8 ≠ 0 := by unfold ceilDiv at *; omega
      have h2 : n / 8 = p / 8 := by unfold ceilDiv at *; omega
      simp [h1, h2]
    · rfl

/-- What is left of an old bit under or behind the bits put at `p` in the octet they start in. -/
theorem stale_step {p q n : Nat} (old : Bool) (hpq : p ≤ q) (hqn : q ≤ n) :
    (q % 8 != 0 && n / 8 == q / 8 &&
      (if n < 8 * ceilDiv q 8 then p % 8 != 0 && n / 8 == p / 8 && old else old))
    = (p % 8 != 0 && n / 8 == p / 8 && old) := by
  by_cases hq : q % 8 ≠ 0 ∧ n / 8 = q / 8
  · have : n < 8 * ceilDiv q 8 := by unfold ceilDiv; omega
    simp [this, hq.1, hq.2]
  · have hp : ¬ (p % 8 ≠ 0 ∧ n / 8 = p / 8) := by omega
    have h1 : (q % 8 != 0 && n / 8 == q / 8) = false := by
      simpa [Bool.and_eq_false_iff, Decidable.not_and_iff_or_not] using hq
    have h2 : (p % 8 != 0 && n / 8 == p / 8) = false := by
      simpa [Bool.and_eq_false_iff, Decidable.not_and_iff_or_not] using hp
    simp only [h1, h2, Bool.false_and]

/-- Two puts in a row are one put of the bits in a row (R109). -/
theorem bitAfter_append (p : Nat) (xs ys : List Bool) (n : Nat) (old : Bool) :
    bitAfter p (xs ++ ys) n old = bitAfter (p + xs.length) ys n (bitAfter p xs n old) := by
  by_cases hx : n < p
  · simp [bitAfter, hx, show n < p + xs.length by omega]
  by_cases hxs : n - p < xs.length
  · have h1 : n < p + xs.length := by omega
    have h2 : n - p < (xs ++ ys).length := by simp; omega
    simp only [bitAfter, hx, h1, hxs, h2, dite_true, if_true, if_false]
    rw [List.getElem_append_left hxs]
  have h1 : ¬ n < p + xs.length := by omega
  have hold : bitAfter p xs n old =
      if n < 8 * ceilDiv (p + xs.length) 8 then p % 8 != 0 && n / 8 == p / 8 && old else old := by
    simp [bitAfter, hx, hxs]
  have hstale := stale_step (p := p) (q := p + xs.length) (n := n) old (by omega) (by omega)
  rw [hold]
  have hlen : (xs ++ ys).length = xs.length + ys.length := List.length_append
  by_cases hys : n - (p + xs.length) < ys.length
  · have h2 : n - p < (xs ++ ys).length := by omega
    have hget : (xs ++ ys)[n - p] = ys[n - (p + xs.length)] := by
      rw [List.getElem_append_right (by omega)]
      congr 1
      omega
    simp only [bitAfter, hx, h1, hys, h2, dite_true, if_false, hget, hstale]
  · have h2 : ¬ n - p < (xs ++ ys).length := by omega
    simp only [bitAfter, hx, h1, hys, h2, dite_false, if_false, hstale]
    rw [hlen, ← Nat.add_assoc]
    by_cases hc : n < 8 * ceilDiv (p + xs.length + ys.length) 8
    · simp [hc]
    · have : ¬ n < 8 * ceilDiv (p + xs.length) 8 := by unfold ceilDiv at *; omega
      simp [hc, this]

theorem wroteStream_nil (m : Memory) (p : Nat) : wroteStream m m p [] :=
  ⟨rfl, by simp, fun _ _ => rfl⟩

theorem wroteStream.append {m m1 m2 : Memory} {p : Nat} {xs ys : List Bool}
    (h1 : wroteStream m m1 p xs) (h2 : wroteStream m1 m2 (p + xs.length) ys) :
    wroteStream m m2 p (xs ++ ys) where
  size := h2.size.trans h1.size
  bit n := by rw [h2.bit, h1.bit, bitAfter_append]
  octet a ha := by
    simp only [List.length_append] at ha
    rw [h2.octet a (by unfold ceilDiv at *; omega), h1.octet a (by unfold ceilDiv at *; omega)]

/-- The bits of a memory where a stream was written. -/
theorem wroteStream.bit_inside {m m' : Memory} {p : Nat} {bits : List Bool}
    (h : wroteStream m m' p bits) (k : Nat) (hk : k < bits.length)
    (hclear : p % 8 ≠ 0 → (p + k) / 8 = p / 8 → m.bit (p + k) = false) :
    m'.bit (p + k) = bits[k] := by
  have hk' : p + k - p < bits.length := by omega
  simp only [h.bit, bitAfter, show ¬ p + k < p by omega, hk', if_false, dite_true]
  have : bits[p + k - p] = bits[k] := by congr 1; omega
  rw [this]
  by_cases ha : p % 8 = 0
  · simp [ha]
  · by_cases hb : (p + k) / 8 = p / 8
    · simp [hclear ha hb]
    · simp [hb]

@[simp] theorem stream_length (m : Memory) (p n : Nat) : (m.stream p n).length = n := by
  simp [Memory.stream]

@[simp] theorem wordStream_length (v : Word) (w : Nat) (le : Bool) : (wordStream v w le).length = w := by
  simp [wordStream]

theorem stream_add (m : Memory) (p n k : Nat) :
    m.stream p (n + k) = m.stream p n ++ m.stream (p + n) k := by
  simp [Memory.stream, List.range_add, Nat.add_assoc, Function.comp_def]

/-- A stream that was written at a place whose bits were clear reads back. -/
theorem wroteStream.stream_eq {m m' : Memory} {p : Nat} {bits : List Bool}
    (h : wroteStream m m' p bits)
    (hclear : p % 8 ≠ 0 → ∀ n, p ≤ n → n / 8 = p / 8 → m.bit n = false) :
    m'.stream p bits.length = bits := by
  apply List.ext_getElem
  · simp
  · intro k h1 h2
    simp only [Memory.stream, List.getElem_map, List.getElem_range]
    exact h.bit_inside k h2 fun ha hb => hclear ha _ (by omega) hb

end Sys2Proof.Machine
end

