-- ==== Sys2Proof/Laws/Codec.lean ====
section
/-! SUPPORT. The codec procedures `put` and `get` (R102, R106): everything each can do, said once. -/

namespace Sys2Proof.Machine

/-! ### A cursor that moves -/

@[simp] theorem moved_base (cu : Cursor) (n : Nat) : (cu.moved n).base = cu.base := rfl
@[simp] theorem moved_size (cu : Cursor) (n : Nat) : (cu.moved n).size = cu.size := rfl
@[simp] theorem moved_bad (cu : Cursor) (n : Nat) : (cu.moved n).bad = cu.bad := rfl
@[simp] theorem moved_zero (cu : Cursor) : cu.moved 0 = cu := by simp [Cursor.moved]
@[simp] theorem advance_eq (cu : Cursor) : cu.advance = cu.moved 1 := rfl
@[simp] theorem moved_moved (cu : Cursor) (a b : Nat) : (cu.moved a).moved b = cu.moved (a + b) := by
  simp [Cursor.moved, BitVec.add_assoc, BitVec.ofNat_add]

theorem moved_cursor (cu : Cursor) {n : Nat} (h : cu.cursor.toNat + n < 2 ^ 35) :
    (cu.moved n).cursor.toNat = cu.cursor.toNat + n := by
  simp only [Cursor.moved, BitVec.toNat_add, BitVec.toNat_ofNat]
  omega

theorem moved_bitPos (cu : Cursor) {n : Nat} (h : cu.cursor.toNat + n < 2 ^ 35) :
    (cu.moved n).bitPos = cu.bitPos + n := by
  simp only [Cursor.bitPos, moved_base, moved_cursor cu h]
  omega

/-- A position inside a window needs no more than 35 bits (R23). -/
theorem room_lt {cu : Cursor} {n : Nat} (h : cu.cursor.toNat + n ≤ 8 * cu.size.toNat) :
    cu.cursor.toNat + n < 2 ^ 35 := by
  have := cu.size.isLt
  omega

/-- The octet under a cursor with a bit of room lies in the window. -/
theorem addr_lt {cu : Cursor} {sz : Nat} (hw : cu.base.toNat + cu.size.toNat ≤ sz)
    (hr : cu.cursor.toNat + 1 ≤ 8 * cu.size.toNat) : cu.addr < sz := by
  simp only [Cursor.addr]
  omega

@[simp] theorem setBad_base (cu : Cursor) : cu.setBad.base = cu.base := rfl
@[simp] theorem setBad_size (cu : Cursor) : cu.setBad.size = cu.size := rfl
@[simp] theorem setBad_cursor (cu : Cursor) : cu.setBad.cursor = cu.cursor := rfl
@[simp] theorem setBad_bad (cu : Cursor) : cu.setBad.bad = true := rfl

/-! ### One bit -/

/-- MEM after one turn of the loop of `put`. -/
def putBitMem (bit : Bool) (m : Memory) (cu : Cursor) : Memory :=
  let m1 := if cu.phase = 0 then m.set cu.addr 0 else m
  m1.set cu.addr (m1.octet cu.addr ||| ((bitOf bit).setWidth 8 <<< (7 - cu.phase)))

theorem putBit_ok {bit : Bool} {m : Memory} {cu : Cursor} {mc : Memory × Cursor} :
    putBit bit (m, cu) = .ok mc ↔ cu.addr < m.size ∧ mc = (putBitMem bit m cu, cu.moved 1) := by
  by_cases ha : cu.addr < m.size
  · have hr : ∀ v, memRead (m.set cu.addr v) cu.addr = .ok ((m.set cu.addr v).octet cu.addr) :=
      fun v => memRead_of_lt (by simpa using ha)
    have hw : ∀ v w, memWrite (m.set cu.addr v) cu.addr w = .ok ((m.set cu.addr v).set cu.addr w) :=
      fun v w => memWrite_of_lt w (by simpa using ha)
    have heq : putBit bit (m, cu) = .ok (putBitMem bit m cu, cu.moved 1) := by
      unfold putBit putBitMem
      by_cases hp : cu.phase = 0
      · simp only [hp, if_true, memWrite_of_lt _ ha, ok_bind, hr, hw, pure_eq_ok, advance_eq]
      · simp only [hp, if_false, memWrite_of_lt _ ha, memRead_of_lt ha, ok_bind, pure_eq_ok, advance_eq]
    rw [heq]
    exact ⟨fun h => ⟨ha, by cases h; rfl⟩, fun h => by rw [h.2]⟩
  · refine ⟨fun h => ?_, fun h => absurd h.1 ha⟩
    unfold putBit at h
    by_cases hp : cu.phase = 0 <;> simp [hp, memWrite, memRead, ha] at h

theorem bitOf_getLsbD (b : Bool) (i : Nat) :
    ((bitOf b).setWidth 8).getLsbD i = (decide (i = 0) && b) := by
  cases b <;> by_cases h : i = 0 <;> simp [bitOf, h]

theorem putBitMem_spec (bit : Bool) (m : Memory) (cu : Cursor) :
    wroteStream m (putBitMem bit m cu) cu.bitPos [bit] := by
  have hd := bitPos_div cu
  have hm := bitPos_mod cu
  have hbits : ∀ n, (putBitMem bit m cu).bit n =
      if n / 8 = cu.addr then
        ((if cu.phase = 0 then false else m.bit n) || (decide (n % 8 = cu.phase) && bit))
      else m.bit n := by
    intro n
    unfold putBitMem
    by_cases hn : n / 8 = cu.addr
    · have hlt : cu.phase < 8 := by unfold Cursor.phase; omega
      have h8 : 7 - n % 8 < 8 := by omega
      have hshift : ((bitOf bit).setWidth 8 <<< (7 - cu.phase)).getLsbD (7 - n % 8)
          = (decide (n % 8 = cu.phase) && bit) := by
        rw [BitVec.getLsbD_shiftLeft, bitOf_getLsbD]
        by_cases he : n % 8 = cu.phase
        · simp [he, show 7 - cu.phase < 8 by omega]
        · by_cases hlt' : 7 - n % 8 < 7 - cu.phase
          · simp [hlt', he]
          · have : 7 - n % 8 - (7 - cu.phase) ≠ 0 := by omega
            simp [this, he]
      by_cases hp : cu.phase = 0
      · simp only [hp, if_true, bit_set, hn, BitVec.getLsbD_or, octet_set_same] at hshift ⊢
        simp [hshift]
      · simp only [hp, if_false, bit_set, hn, if_true, BitVec.getLsbD_or, hshift]
        simp [Memory.bit, hn]
    · by_cases hp : cu.phase = 0 <;> simp [hp, bit_set, hn]
  have hout : ∀ a, a ≠ cu.addr → (putBitMem bit m cu).octet a = m.octet a := fun a ha =>
    octet_eq_of_bits fun n hn => by rw [hbits]; simp [hn, ha]
  refine ⟨?_, fun n => ?_, fun a ha => hout a ?_⟩
  · unfold putBitMem; by_cases hp : cu.phase = 0 <;> simp [hp]
  · rw [hbits]
    unfold bitAfter ceilDiv
    simp only [List.length_singleton]
    by_cases hn : n / 8 = cu.addr
    · rw [if_pos hn]
      by_cases hlt : n < cu.bitPos
      · have hp : cu.phase ≠ 0 := by omega
        have hne : n % 8 ≠ cu.phase := by omega
        simp [hlt, hp, hne]
      · rw [if_neg hlt]
        by_cases heq : n - cu.bitPos < 1
        · have h1 : n % 8 = cu.phase := by omega
          have h0 : n - cu.bitPos = 0 := by omega
          rw [dif_pos heq]
          by_cases hp : cu.phase = 0
          · simp [h1, hp, hm, hd, h0, hn, Bool.or_comm]
          · have hp' : (cu.phase != 0) = true := by simpa using hp
            simp [h1, hp, hp', hm, hd, h0, hn, Bool.or_comm]
        · have hne : n % 8 ≠ cu.phase := by omega
          have hin : n < 8 * ((cu.bitPos + 1 + 8 - 1) / 8) := by omega
          rw [dif_neg heq, if_pos hin]
          by_cases hp : cu.phase = 0
          · rw [hp] at hne
            simp [hne, hp, hm]
          · simp [hne, hp, hm, hd, hn]
    · rw [if_neg hn]
      by_cases hlt : n < cu.bitPos
      · simp [hlt]
      · have heq : ¬ n - cu.bitPos < 1 := by omega
        have hin : ¬ n < 8 * ((cu.bitPos + 1 + 8 - 1) / 8) := by omega
        rw [if_neg hlt, dif_neg heq, if_neg hin]
  · simp only [List.length_singleton, ceilDiv] at ha
    omega

theorem putBitMem_wf {bit : Bool} {m : Memory} {cu : Cursor} (h : m.wf) (ha : cu.addr < m.size) :
    (putBitMem bit m cu).wf := by
  unfold putBitMem
  by_cases hp : cu.phase = 0
  · simp only [hp, if_true]
    exact set_wf _ (set_wf _ h ha) (by simpa using ha)
  · simp only [hp, if_false]
    exact set_wf _ h ha

/-! ### The loop of `put` -/

theorem wordStream_succ (v : Word) (k : Nat) :
    wordStream v (k + 1) false = v.getLsbD k :: wordStream v k false := by
  simp only [wordStream, List.range_succ_eq_map, List.map_cons, List.map_map, Bool.false_eq_true,
    if_false]
  congr 1
  apply List.map_congr_left
  intro a _
  simp only [Function.comp_apply]
  congr 1
  omega

/-- What the loop of `put` leaves, whenever it does not fault. -/
theorem putBits_ok (x : Word) : ∀ {k : Nat} {m m' : Memory} {cu cu' : Cursor},
    cu.cursor.toNat + k < 2 ^ 35 → putBits x k (m, cu) = .ok (m', cu') →
      cu' = cu.moved k ∧ wroteStream m m' cu.bitPos (wordStream x k false) ∧ (m.wf → m'.wf)
  | 0, m, m', cu, cu', _, h => by
    simp only [putBits, Except.ok.injEq, Prod.mk.injEq] at h
    obtain ⟨rfl, rfl⟩ := h
    exact ⟨by simp, by simpa [wordStream] using wroteStream_nil m cu.bitPos, id⟩
  | k + 1, m, m', cu, cu', hk, h => by
    obtain ⟨mc, h1, h2⟩ := bind_ok.1
      (show (putBit (x.getLsbD k) (m, cu) >>= fun mc => putBits x k mc) = _ from h)
    obtain ⟨ha, rfl⟩ := putBit_ok.1 h1
    have h1k : (cu.moved 1).cursor.toNat = cu.cursor.toNat + 1 := moved_cursor cu (by omega)
    obtain ⟨hcu, hw, hwf⟩ := putBits_ok x (by omega) h2
    refine ⟨by rw [hcu]; simp [Nat.add_comm], ?_, fun hm => hwf (putBitMem_wf hm ha)⟩
    rw [moved_bitPos cu (by omega)] at hw
    rw [wordStream_succ]
    exact (putBitMem_spec (x.getLsbD k) m cu).append (ys := wordStream x k false) hw

/-- The loop of `put` does not fault while the bits fit the window. -/
theorem putBits_total (x : Word) : ∀ (k : Nat) (m : Memory) (cu : Cursor),
    cu.base.toNat + cu.size.toNat ≤ m.size → cu.cursor.toNat + k ≤ 8 * cu.size.toNat →
      ∃ mc, putBits x k (m, cu) = .ok mc
  | 0, m, cu, _, _ => ⟨_, rfl⟩
  | k + 1, m, cu, hw, hr => by
    have ha : cu.addr < m.size := addr_lt hw (by omega)
    have h1 := putBit_ok.2 (⟨ha, rfl⟩ : cu.addr < m.size ∧ _ = (putBitMem (x.getLsbD k) m cu, cu.moved 1))
    have hc : (cu.moved 1).cursor.toNat = cu.cursor.toNat + 1 :=
      moved_cursor cu (by have := room_lt hr; omega)
    obtain ⟨mc, hmc⟩ := putBits_total x k (putBitMem (x.getLsbD k) m cu) (cu.moved 1)
      (by rw [(putBitMem_spec _ m cu).size]; simpa using hw) (by rw [hc]; simpa using (by omega))
    refine ⟨mc, ?_⟩
    show (putBit (x.getLsbD k) (m, cu) >>= fun mc => putBits x k mc) = _
    rw [h1]
    exact hmc

/-! ### Values as streams -/

theorem mask_getLsbD (n i : Nat) : (mask n).getLsbD i = (decide (i < 64) && decide (i < n)) := by
  simp only [mask, BitVec.getLsbD_ofNat, Nat.testBit_two_pow_sub_one]

theorem swapOctets_getLsbD : ∀ (n : Nat) (v : Word) (i : Nat), 8 * n ≤ 64 →
    (swapOctets v n).getLsbD i = (decide (i < 8 * n) && v.getLsbD (8 * (n - 1 - i / 8) + i % 8))
  | 0, v, i, _ => by simp [swapOctets]
  | n + 1, v, i, h => by
    have hff : ∀ j, (0xFF : Word).getLsbD j = decide (j < 8) := by
      intro j
      rw [show (0xFF : Word) = mask 8 from rfl, mask_getLsbD]
      by_cases hj : j < 8 <;> simp [hj]; omega
    simp only [swapOctets, BitVec.getLsbD_or, BitVec.getLsbD_shiftLeft, BitVec.getLsbD_and, hff,
      swapOctets_getLsbD n (v >>> 8) i (by omega), BitVec.getLsbD_ushiftRight]
    by_cases h1 : i < 8 * n
    · have e : 8 + (8 * (n - 1 - i / 8) + i % 8) = 8 * (n + 1 - 1 - i / 8) + i % 8 := by omega
      simp [h1, show i < 8 * (n + 1) by omega, e]
    · by_cases h2 : i < 8 * (n + 1)
      · have e : 8 * (n - i / 8) + i % 8 = i - 8 * n := by omega
        simp [h1, h2, e, show i < 64 by omega, show i - 8 * n < 8 by omega]
      · simp [h1, h2, show ¬ i - 8 * n < 8 by omega]

/-- The bits a put moves, in stream order (R61, R62). -/
theorem wordStream_operand (v : Word) {W : Nat} {le : Bool} (hW : W ≤ 64) (hle : le = true → W % 8 = 0) :
    wordStream (if le then bswap (v &&& mask W) W else v &&& mask W) W false = wordStream v W le := by
  simp only [wordStream]
  apply List.map_congr_left
  intro k hk
  have hk : k < W := by simpa using hk
  cases le with
  | false =>
    simp only [Bool.false_eq_true, if_false, BitVec.getLsbD_and, mask_getLsbD]
    simp [show W - 1 - k < 64 by omega, show W - 1 - k < W by omega]
  | true =>
    have h8 := hle rfl
    simp only [if_true, Bool.false_eq_true, if_false, bswap]
    rw [swapOctets_getLsbD _ _ _ (by omega)]
    simp only [BitVec.getLsbD_and, mask_getLsbD]
    have e : 8 * (W / 8 - 1 - (W - 1 - k) / 8) + (W - 1 - k) % 8 = 8 * (k / 8) + (7 - k % 8) := by omega
    rw [e]
    simp [show W - 1 - k < 8 * (W / 8) by omega, show 8 * (k / 8) + (7 - k % 8) < 64 by omega,
      show 8 * (k / 8) + (7 - k % 8) < W by omega]

/-- A value is what its stream says (R108). -/
theorem eq_of_wordStream {v v' : Word} {W : Nat} {le : Bool} (hle : le = true → W % 8 = 0)
    (h : wordStream v W le = wordStream v' W le) (i : Nat) (hi : i < W) : v.getLsbD i = v'.getLsbD i := by
  have hk : ∀ k, k < W → v.getLsbD (if le then 8 * (k / 8) + (7 - k % 8) else W - 1 - k)
      = v'.getLsbD (if le then 8 * (k / 8) + (7 - k % 8) else W - 1 - k) := by
    intro k hk
    have := congrArg (fun l => l[k]?) h
    simpa [wordStream, hk] using this
  cases le with
  | false =>
    have := hk (W - 1 - i) (by omega)
    simpa [show W - 1 - (W - 1 - i) = i by omega] using this
  | true =>
    have h8 := hle rfl
    have := hk (8 * (i / 8) + (7 - i % 8)) (by omega)
    have e : 8 * ((8 * (i / 8) + (7 - i % 8)) / 8) + (7 - (8 * (i / 8) + (7 - i % 8)) % 8) = i := by omega
    simp only [if_true] at this
    rwa [e] at this

theorem wordStream_mask (v : Word) {W : Nat} {le : Bool} (hW : W ≤ 64) (hle : le = true → W % 8 = 0) :
    wordStream (v &&& mask W) W le = wordStream v W le := by
  simp only [wordStream]
  apply List.map_congr_left
  intro k hk
  have hk : k < W := by simpa using hk
  cases le with
  | false => simp [mask_getLsbD, show W - 1 - k < 64 by omega, show W - 1 - k < W by omega]
  | true =>
    have h8 := hle rfl
    simp [mask_getLsbD, show 8 * (k / 8) + (7 - k % 8) < 64 by omega,
      show 8 * (k / 8) + (7 - k % 8) < W by omega]

theorem lt_of_bits {v : Word} {W : Nat} (h : ∀ i, W ≤ i → v.getLsbD i = false) : v.toNat < 2 ^ W := by
  apply Nat.lt_pow_two_of_testBit
  intro i hi
  have := h i hi
  rwa [BitVec.getLsbD] at this

theorem bits_of_lt {v : Word} {W : Nat} (h : v.toNat < 2 ^ W) (i : Nat) (hi : W ≤ i) :
    v.getLsbD i = false := by
  rw [BitVec.getLsbD]
  exact Nat.testBit_lt_two_pow (Nat.lt_of_lt_of_le h (Nat.pow_le_pow_right (by omega) hi))

/-! ### `put` -/

/-- A put with room for its bits does what R102 says. -/
theorem putProc_writes (v : Word) {W U : Nat} {le : Bool} {m : Memory} {cu : Cursor}
    (hb : cu.bad = false) (hW : W ≤ U) (hU : U ≤ 64) (hle : le = true → W % 8 = 0)
    (hw : cu.base.toNat + cu.size.toNat ≤ m.size)
    (hr : cu.cursor.toNat + W ≤ 8 * cu.size.toNat) :
    ∃ m', putProc v W U le (m, cu) = .ok (m', cu.moved W) ∧
      wroteStream m m' cu.bitPos (wordStream v W le) ∧ (m.wf → m'.wf) := by
  by_cases h0 : W = 0
  · subst h0
    exact ⟨m, by simp [putProc, hb], by simpa [wordStream] using wroteStream_nil m cu.bitPos, id⟩
  · have hv : violates cu W U = false := by simp [violates]; omega
    obtain ⟨⟨m', cu'⟩, hmc⟩ := putBits_total
      (if le then bswap (v &&& mask W) W else v &&& mask W) W m cu hw hr
    obtain ⟨rfl, hws, hwf⟩ := putBits_ok _ (room_lt hr) hmc
    rw [wordStream_operand v (by omega) hle] at hws
    exact ⟨m', by simp [putProc, hb, h0, hv, hmc], hws, hwf⟩

/-- Everything a put can do (R102 to R105): nothing, on a bad cursor or for no bits; set `bad`, where a
precondition is violated; or write its bits and move the cursor. -/
theorem putProc_cases {v : Word} {W U : Nat} {le : Bool} {m m' : Memory} {cu cu' : Cursor}
    (hU : U ≤ 64) (hle : le = true → W % 8 = 0) (h : putProc v W U le (m, cu) = .ok (m', cu')) :
    ((cu.bad = true ∨ W = 0) ∧ m' = m ∧ cu' = cu) ∨
    (cu.bad = false ∧ W ≠ 0 ∧ (U < W ∨ 8 * cu.size.toNat < cu.cursor.toNat + W) ∧ m' = m ∧
      cu' = cu.setBad) ∨
    (cu.bad = false ∧ W ≠ 0 ∧ W ≤ U ∧ cu.cursor.toNat + W ≤ 8 * cu.size.toNat ∧ cu' = cu.moved W ∧
      wroteStream m m' cu.bitPos (wordStream v W le) ∧ (m.wf → m'.wf)) := by
  unfold putProc at h
  split at h
  · cases h; exact .inl ⟨.inl ‹_›, rfl, rfl⟩
  · rename_i hb
    have hb : cu.bad = false := by simpa using hb
    split at h
    · cases h; exact .inl ⟨.inr ‹_›, rfl, rfl⟩
    · rename_i h0
      split at h
      · rename_i hv
        cases h
        exact .inr (.inl ⟨hb, h0, by simpa [violates] using hv, rfl, rfl⟩)
      · rename_i hv
        have hv : ¬ (U < W ∨ 8 * cu.size.toNat < cu.cursor.toNat + W) := by simpa [violates] using hv
        obtain ⟨hcu, hws, hwf⟩ := putBits_ok _ (room_lt (cu := cu) (n := W) (by omega)) h
        rw [wordStream_operand v (by omega) hle] at hws
        exact .inr (.inr ⟨hb, h0, by omega, by omega, hcu, hws, hwf⟩)

/-- A put through a cursor whose window lies in MEM never faults. -/
theorem putProc_total (v : Word) (W U : Nat) (le : Bool) {m : Memory} {cu : Cursor}
    (hw : cu.base.toNat + cu.size.toNat ≤ m.size) : ∃ mc, putProc v W U le (m, cu) = .ok mc := by
  unfold putProc
  split
  · exact ⟨_, rfl⟩
  · split
    · exact ⟨_, rfl⟩
    · split
      · exact ⟨_, rfl⟩
      · rename_i hv
        exact putBits_total _ W m cu hw (by simp [violates] at hv; omega)

/-! ### `get` -/

/-- The value the loop of `get` builds from bits. -/
def shiftIn (acc : Word) (bits : List Bool) : Word :=
  bits.foldl (fun x b => (x <<< 1) ||| (bitOf b).setWidth 64) acc

theorem bitOf_getLsbD64 (b : Bool) (i : Nat) :
    ((bitOf b).setWidth 64).getLsbD i = (decide (i = 0) && b) := by
  cases b <;> by_cases h : i = 0 <;> simp [bitOf, h]

theorem shiftIn_getLsbD : ∀ (bits : List Bool) (acc : Word) (i : Nat), i < 64 →
    (shiftIn acc bits).getLsbD i =
      if h : i < bits.length then bits[bits.length - 1 - i] else acc.getLsbD (i - bits.length)
  | [], acc, i, _ => by simp [shiftIn]
  | b :: bits, acc, i, hi => by
    have ih := shiftIn_getLsbD bits ((acc <<< 1) ||| (bitOf b).setWidth 64) i hi
    simp only [shiftIn, List.foldl_cons] at ih ⊢
    rw [ih]
    by_cases h1 : i < bits.length
    · have h2 : i < bits.length + 1 := by omega
      have e : bits.length + 1 - 1 - i = (bits.length - 1 - i) + 1 := by omega
      simp only [h1, dite_true, List.length_cons, h2, e, List.getElem_cons_succ]
    · simp only [h1, dite_false, BitVec.getLsbD_or, BitVec.getLsbD_shiftLeft, bitOf_getLsbD64]
      by_cases h3 : i = bits.length
      · subst h3; simp
      · have h2 : ¬ i < bits.length + 1 := by omega
        have h4 : i - bits.length ≠ 0 := by omega
        simp only [List.length_cons, h2, dite_false]
        simp [h4, show i - bits.length < 64 by omega, show ¬ i - bits.length < 1 by omega,
          show i - bits.length - 1 = i - (bits.length + 1) by omega]

theorem stream_succ (m : Memory) (p k : Nat) : m.stream p (k + 1) = m.bit p :: m.stream (p + 1) k := by
  simp only [Memory.stream, List.range_succ_eq_map, List.map_cons, List.map_map, Nat.add_zero]
  congr 1
  apply List.map_congr_left
  intro a _
  simp only [Function.comp_apply]
  congr 1
  omega

/-- The loop of `get` reads the stream of the window. -/
theorem getBits_spec (m : Memory) : ∀ (k : Nat) (x : Word) (cu : Cursor),
    cu.base.toNat + cu.size.toNat ≤ m.size → cu.cursor.toNat + k ≤ 8 * cu.size.toNat →
      getBits m k (x, cu) = .ok (shiftIn x (m.stream cu.bitPos k), cu.moved k)
  | 0, x, cu, _, _ => by simp [getBits, shiftIn, Memory.stream]
  | k + 1, x, cu, hw, hr => by
    have ha : cu.addr < m.size := addr_lt hw (by omega)
    have hlt := room_lt hr
    have hc : (cu.moved 1).cursor.toNat = cu.cursor.toNat + 1 := moved_cursor cu (by omega)
    simp only [getBits, memRead_of_lt ha, ok_bind, advance_eq]
    rw [getBits_spec m k _ (cu.moved 1) (by simpa using hw) (by rw [hc]; simpa using (by omega))]
    rw [moved_bitPos cu (by omega), stream_succ, moved_moved, Nat.add_comm 1 k]
    simp [shiftIn, Memory.bit, bitPos_div, bitPos_mod]

/-- The value of a successful get, from the bits of the stream (R106). -/
def streamValue (bits : List Bool) (le : Bool) : Word :=
  if le then bswap (shiftIn 0 bits) bits.length else shiftIn 0 bits

theorem streamValue_bit {bits : List Bool} {le : Bool} (hlen : bits.length ≤ 64)
    (hle : le = true → bits.length % 8 = 0) (i : Nat) (hi : bits.length ≤ i) :
    (streamValue bits le).getLsbD i = false := by
  unfold streamValue
  cases le with
  | true =>
    have h8 := hle rfl
    simp only [if_true, bswap]
    rw [swapOctets_getLsbD _ _ _ (by omega)]
    simp [show ¬ i < 8 * (bits.length / 8) by omega]
  | false =>
    simp only [Bool.false_eq_true, if_false]
    by_cases h : i < 64
    · rw [shiftIn_getLsbD _ _ _ h]
      simp [show ¬ i < bits.length by omega]
    · exact BitVec.getLsbD_of_ge _ _ (by omega)

/-- A successful get returns the value whose stream was read (R106, R108). -/
theorem wordStream_streamValue {bits : List Bool} {le : Bool} (hlen : bits.length ≤ 64)
    (hle : le = true → bits.length % 8 = 0) :
    wordStream (streamValue bits le) bits.length le = bits := by
  apply List.ext_getElem
  · simp
  · intro k h1 h2
    simp only [wordStream, List.getElem_map, List.getElem_range]
    unfold streamValue
    cases le with
    | false =>
      simp only [Bool.false_eq_true, if_false]
      rw [shiftIn_getLsbD _ _ _ (by omega)]
      simp [show bits.length - 1 - k < bits.length by omega,
        show bits.length - 1 - (bits.length - 1 - k) = k by omega]
    | true =>
      have h8 := hle rfl
      simp only [if_true, bswap]
      rw [swapOctets_getLsbD _ _ _ (by omega)]
      have e : 8 * (bits.length / 8 - 1 - (8 * (k / 8) + (7 - k % 8)) / 8) + (8 * (k / 8) + (7 - k % 8)) % 8
          = bits.length - 1 - k := by omega
      rw [e, shiftIn_getLsbD _ _ _ (by omega)]
      simp [show 8 * (k / 8) + (7 - k % 8) < 8 * (bits.length / 8) by omega,
        show bits.length - 1 - k < bits.length by omega,
        show bits.length - 1 - (bits.length - 1 - k) = k by omega]

/-- A get with its bits in the window does what R106 says. -/
theorem getProc_reads {W U : Nat} {le : Bool} {m : Memory} {cu : Cursor} (hb : cu.bad = false)
    (h0 : W ≠ 0) (hW : W ≤ U) (hw : cu.base.toNat + cu.size.toNat ≤ m.size)
    (hr : cu.cursor.toNat + W ≤ 8 * cu.size.toNat) :
    getProc m W U le cu = .ok (some (streamValue (m.stream cu.bitPos W) le), cu.moved W) := by
  have hv : violates cu W U = false := by simp [violates]; omega
  unfold getProc
  simp only [hb, h0, hv, Bool.false_eq_true, if_false, getBits_spec m W 0 cu hw hr, ok_bind]
  cases le <;> simp [streamValue]

/-- Everything a get through a window in MEM can do (R103 to R106). -/
theorem getProc_cases {W U : Nat} {le : Bool} {m : Memory} {cu : Cursor}
    (hw : cu.base.toNat + cu.size.toNat ≤ m.size) :
    ((cu.bad = true ∨ W = 0) ∧ getProc m W U le cu = .ok (none, cu)) ∨
    (cu.bad = false ∧ W ≠ 0 ∧ (U < W ∨ 8 * cu.size.toNat < cu.cursor.toNat + W) ∧
      getProc m W U le cu = .ok (none, cu.setBad)) ∨
    (cu.bad = false ∧ W ≠ 0 ∧ W ≤ U ∧ cu.cursor.toNat + W ≤ 8 * cu.size.toNat ∧
      getProc m W U le cu = .ok (some (streamValue (m.stream cu.bitPos W) le), cu.moved W)) := by
  by_cases hb : cu.bad = true
  · exact .inl ⟨.inl hb, by simp [getProc, hb]⟩
  have hb : cu.bad = false := by simpa using hb
  by_cases h0 : W = 0
  · exact .inl ⟨.inr h0, by simp [getProc, h0]⟩
  by_cases hv : U < W ∨ 8 * cu.size.toNat < cu.cursor.toNat + W
  · refine .inr (.inl ⟨hb, h0, hv, ?_⟩)
    have : violates cu W U = true := by simpa [violates] using hv
    simp [getProc, hb, h0, this]
  · exact .inr (.inr ⟨hb, h0, by omega, by omega, getProc_reads hb h0 (by omega) hw (by omega)⟩)

end Sys2Proof.Machine
end

