-- ==== Sys2Proof/Laws/Procs.lean ====
section
/-! SUPPORT. The procedures made of several puts or gets (R113, R143, R144, R162 to R165, R194): what each
can do, said once. -/

namespace Sys2Proof.Machine

/-! ### What any sequence of puts or gets keeps -/

/-- R24: what every put and every get keeps of its cursor. -/
structure cursorOn (cu cu' : Cursor) : Prop where
  base : cu'.base = cu.base
  csize : cu'.size = cu.size
  le : cu.cursor.toNat ≤ cu'.cursor.toNat
  room : cu.cursor.toNat ≤ 8 * cu.size.toNat → cu'.cursor.toNat ≤ 8 * cu.size.toNat
  stuck : cu.bad = true → cu' = cu

/-- R24, R66: what every sequence of puts through a cursor keeps. -/
structure wentOn (mc mc' : Memory × Cursor) : Prop where
  cursor : cursorOn mc.2 mc'.2
  size : mc'.1.size = mc.1.size
  still : mc'.2.cursor = mc.2.cursor → mc'.1 = mc.1
  octet : ∀ a, a < mc.2.addr ∨ ceilDiv mc'.2.bitPos 8 ≤ a → mc'.1.octet a = mc.1.octet a
  wf : mc.1.wf → mc'.1.wf

theorem cursorOn.refl (cu : Cursor) : cursorOn cu cu := ⟨rfl, rfl, Nat.le_refl _, id, fun _ => rfl⟩

theorem cursorOn.trans {x y z : Cursor} (h : cursorOn x y) (k : cursorOn y z) : cursorOn x z where
  base := k.base.trans h.base
  csize := k.csize.trans h.csize
  le := Nat.le_trans h.le k.le
  room hr := by
    have := k.room (by rw [h.csize]; exact h.room hr)
    rwa [h.csize] at this
  stuck hb := by
    have hy := h.stuck hb
    rw [k.stuck (hy ▸ hb), hy]

theorem cursorOn.ok {size : Nat} {cu cu' : Cursor} (h : cursorOn cu cu') (hc : cursorOk size cu) :
    cursorOk size cu' := by
  refine ⟨?_, ?_⟩
  · rw [h.base, h.csize]; exact hc.1
  · rw [h.csize]; exact h.room hc.2

theorem cursorOn.bitPos {cu cu' : Cursor} (h : cursorOn cu cu') : cu.bitPos ≤ cu'.bitPos := by
  have := h.le
  simp only [Cursor.bitPos, h.base]
  omega

theorem cursorOn_moved {cu : Cursor} {n : Nat} (h : cu.cursor.toNat + n ≤ 8 * cu.size.toNat)
    (hb : cu.bad = false) : cursorOn cu (cu.moved n) where
  base := rfl
  csize := rfl
  le := by rw [moved_cursor cu (room_lt h)]; omega
  room _ := by rw [moved_cursor cu (room_lt h)]; exact h
  stuck h' := by simp [hb] at h'

theorem cursorOn_setBad (cu : Cursor) (hb : cu.bad = false) : cursorOn cu cu.setBad :=
  ⟨rfl, rfl, Nat.le_refl _, id, fun h => by simp [hb] at h⟩

theorem wentOn.refl (mc : Memory × Cursor) : wentOn mc mc :=
  ⟨.refl _, rfl, fun _ => rfl, fun _ _ => rfl, id⟩

theorem wentOn.trans {x y z : Memory × Cursor} (h : wentOn x y) (k : wentOn y z) : wentOn x z where
  cursor := h.cursor.trans k.cursor
  size := k.size.trans h.size
  still hs := by
    have h1 := h.cursor.le
    have h2 := k.cursor.le
    rw [hs] at h2
    have hy : y.2.cursor = x.2.cursor := BitVec.eq_of_toNat_eq (by omega)
    rw [k.still (by rw [hs, hy]), h.still hy]
  octet a ha := by
    have h1 := h.cursor.bitPos
    have h2 := k.cursor.bitPos
    have hx := bitPos_div x.2
    have hy := bitPos_div y.2
    unfold ceilDiv at ha
    rw [k.octet a (by unfold ceilDiv; omega), h.octet a (by unfold ceilDiv; omega)]
  wf hw := k.wf (h.wf hw)

/-- Where the windows lie in MEM, they do after a sequence of puts. -/
theorem wentOn.window {x y : Memory × Cursor} (h : wentOn x y)
    (hw : x.2.base.toNat + x.2.size.toNat ≤ x.1.size) :
    y.2.base.toNat + y.2.size.toNat ≤ y.1.size := by
  rw [h.cursor.base, h.cursor.csize, h.size]; exact hw

theorem putProc_wentOn {v : Word} {W U : Nat} {le : Bool} {mc mc' : Memory × Cursor}
    (hU : U ≤ 64) (hle : le = true → W % 8 = 0) (h : putProc v W U le mc = .ok mc') : wentOn mc mc' := by
  obtain ⟨m, cu⟩ := mc
  obtain ⟨m', cu'⟩ := mc'
  obtain ⟨-, rfl, rfl⟩ | ⟨hb, -, -, rfl, rfl⟩ | ⟨hb, h0, hW, hr, rfl, hw, hwf⟩ := putProc_cases hU hle h
  · exact .refl _
  · exact ⟨cursorOn_setBad _ hb, rfl, fun _ => rfl, fun _ _ => rfl, id⟩
  · refine ⟨cursorOn_moved hr hb, hw.size, fun hs => ?_, fun a ha => hw.octet a ?_, hwf⟩
    · have := congrArg BitVec.toNat hs
      simp only [moved_cursor cu (room_lt hr)] at this
      omega
    · simp only [moved_bitPos cu (room_lt hr), wordStream_length] at ha ⊢
      rw [bitPos_div]
      exact ha

/-- What a get does to its cursor. -/
theorem getProc_cursorOn {W U : Nat} {le : Bool} {m : Memory} {cu : Cursor} {rc : Option Word × Cursor}
    (hw : cu.base.toNat + cu.size.toNat ≤ m.size) (h : getProc m W U le cu = .ok rc) :
    cursorOn cu rc.2 := by
  obtain ⟨-, h'⟩ | ⟨hb, -, -, h'⟩ | ⟨hb, -, -, hr, h'⟩ := getProc_cases (W := W) (U := U) (le := le) hw <;>
    rw [h'] at h <;> cases h
  · exact .refl _
  · exact cursorOn_setBad _ hb
  · exact cursorOn_moved hr hb

/-- A get through a window in MEM never faults. -/
theorem getProc_total {m : Memory} {cu : Cursor} (W U : Nat) (le : Bool)
    (hw : cu.base.toNat + cu.size.toNat ≤ m.size) : ∃ rc, getProc m W U le cu = .ok rc := by
  obtain ⟨-, h'⟩ | ⟨-, -, -, h'⟩ | ⟨-, -, -, -, h'⟩ := getProc_cases (W := W) (U := U) (le := le) hw <;>
    exact ⟨_, h'⟩

/-- The value of a get has no bit at or above its width. -/
theorem getProc_value {W U : Nat} {le : Bool} {m : Memory} {cu cu' : Cursor} {r : Word}
    (hU : U ≤ 64) (hle : le = true → W % 8 = 0) (hw : cu.base.toNat + cu.size.toNat ≤ m.size)
    (h : getProc m W U le cu = .ok (some r, cu')) : r.toNat < 2 ^ W := by
  obtain ⟨-, h'⟩ | ⟨-, -, -, h'⟩ | ⟨-, -, hW, -, h'⟩ := getProc_cases (W := W) (U := U) (le := le) hw <;>
    rw [h'] at h <;> cases h
  exact lt_of_bits fun i hi => streamValue_bit (by simp; omega) (by simpa using hle) i (by simpa using hi)

/-! ### Sequences of puts -/

/-- One put of a sequence: value, width, container width, octet order. -/
structure Put where
  v : Word
  W : Nat
  U : Nat
  le : Bool

/-- The puts of a sequence, each alone (R143). -/
def putSeq : List Put → Memory × Cursor → Except Fault (Memory × Cursor)
  | [], mc => .ok mc
  | p :: ps, mc => do putSeq ps (← putProc p.v p.W p.U p.le mc)

/-- The callers' guarantee (R102, R107). -/
def Put.legal (p : Put) : Prop := p.U ≤ 64 ∧ (p.le = true → p.W % 8 = 0)

/-- The bits a sequence of puts moves. -/
def putBitsOf (ps : List Put) : List Bool := ps.flatMap fun p => wordStream p.v p.W p.le

@[simp] theorem putSeq_nil (mc : Memory × Cursor) : putSeq [] mc = .ok mc := rfl

@[simp] theorem putBitsOf_nil : putBitsOf [] = [] := rfl

@[simp] theorem putBitsOf_cons (p : Put) (ps : List Put) :
    putBitsOf (p :: ps) = wordStream p.v p.W p.le ++ putBitsOf ps := rfl

theorem putSeq_cons {p : Put} {ps : List Put} {mc mc'' : Memory × Cursor} :
    putSeq (p :: ps) mc = .ok mc'' ↔
      ∃ mc', putProc p.v p.W p.U p.le mc = .ok mc' ∧ putSeq ps mc' = .ok mc'' :=
  bind_ok (x := putProc p.v p.W p.U p.le mc) (f := putSeq ps)

theorem putSeq_append (ps qs : List Put) (mc : Memory × Cursor) :
    putSeq (ps ++ qs) mc = (putSeq ps mc >>= putSeq qs) := by
  induction ps generalizing mc with
  | nil => rfl
  | cons p ps ih =>
    show (putProc p.v p.W p.U p.le mc >>= putSeq (ps ++ qs)) = _
    cases h : putProc p.v p.W p.U p.le mc with
    | error e => simp [putSeq, h]
    | ok mc' => simp [putSeq, h, ih]

theorem putSeq_wentOn : ∀ {ps : List Put} {mc mc' : Memory × Cursor}, (∀ p ∈ ps, p.legal) →
    putSeq ps mc = .ok mc' → wentOn mc mc'
  | [], mc, mc', _, h => by cases h; exact .refl _
  | p :: ps, mc, mc', hl, h => by
    obtain ⟨mc1, h1, h2⟩ := putSeq_cons.1 h
    have hp := hl p (by simp)
    exact (putProc_wentOn hp.1 hp.2 h1).trans (putSeq_wentOn (fun q hq => hl q (by simp [hq])) h2)

/-- A sequence of puts through a window in MEM never faults. -/
theorem putSeq_total : ∀ {ps : List Put} {mc : Memory × Cursor}, (∀ p ∈ ps, p.legal) →
    mc.2.base.toNat + mc.2.size.toNat ≤ mc.1.size → ∃ mc', putSeq ps mc = .ok mc'
  | [], mc, _, _ => ⟨mc, rfl⟩
  | p :: ps, (m, cu), hl, hw => by
    have hp := hl p (by simp)
    obtain ⟨mc1, h1⟩ := putProc_total p.v p.W p.U p.le hw
    have hw1 := (putProc_wentOn hp.1 hp.2 h1).window hw
    obtain ⟨mc', h2⟩ := putSeq_total (ps := ps) (fun q hq => hl q (by simp [hq])) hw1
    exact ⟨mc', putSeq_cons.2 ⟨mc1, h1, h2⟩⟩

/-- A sequence of puts on a bad cursor does nothing (R105). -/
theorem putSeq_bad : ∀ (ps : List Put) {m : Memory} {cu : Cursor}, cu.bad = true →
    putSeq ps (m, cu) = .ok (m, cu)
  | [], _, _, _ => rfl
  | p :: ps, m, cu, hb =>
    putSeq_cons.2 ⟨(m, cu), by simp [putProc, hb], putSeq_bad ps hb⟩

theorem fitBits_le_sum : ∀ (ws : List Nat) (room : Nat), fitBits ws room ≤ ws.sum
  | [], _ => by simp [fitBits]
  | w :: ws, room => by
    have := fitBits_le_sum ws (room - w)
    unfold fitBits
    split <;> simp only [List.sum_cons] <;> omega

theorem fitBits_le_room : ∀ (ws : List Nat) (room : Nat), fitBits ws room ≤ room
  | [], _ => by simp [fitBits]
  | w :: ws, room => by
    have := fitBits_le_room ws (room - w)
    unfold fitBits
    split <;> omega

theorem fitBits_all : ∀ (ws : List Nat) (room : Nat), ws.sum ≤ room → fitBits ws room = ws.sum
  | [], _, _ => rfl
  | w :: ws, room, h => by
    simp only [List.sum_cons] at h ⊢
    rw [fitBits, if_neg (by omega), fitBits_all ws (room - w) (by omega)]

theorem after_nil {cu : Cursor} (hb : cu.bad = false) : cu.after [] = cu := by
  cases cu
  simp_all [Cursor.after, fitBits]

theorem after_short {cu : Cursor} {w : Nat} {ws : List Nat} (h : cu.room < w) :
    cu.after (w :: ws) = cu.setBad := by
  simp [Cursor.after, fitBits, h, Cursor.setBad, show cu.room < w + ws.sum by omega]

theorem moved_room {cu : Cursor} {w : Nat} (h : cu.cursor.toNat + w ≤ 8 * cu.size.toNat) :
    (cu.moved w).room = cu.room - w := by
  simp only [Cursor.room, moved_cursor cu (room_lt h), moved_size]
  omega

theorem after_cons {cu : Cursor} {w : Nat} {ws : List Nat}
    (h : cu.cursor.toNat + w ≤ 8 * cu.size.toNat) :
    (cu.moved w).after ws = cu.after (w :: ws) := by
  have hr : ¬ cu.room < w := by unfold Cursor.room; omega
  have hb : decide (cu.room - w < ws.sum) = decide (cu.room < (w :: ws).sum) := by
    rw [List.sum_cons, Bool.eq_iff_iff]
    simp only [decide_eq_true_eq]
    omega
  simp only [Cursor.after, moved_room h, hb, moved_moved]
  simp only [fitBits, hr, if_false]

/-- With room for everything the cursor moves over all of it. -/
theorem after_all {cu : Cursor} {ws : List Nat} (hb : cu.bad = false)
    (h : cu.cursor.toNat + ws.sum ≤ 8 * cu.size.toNat) : cu.after ws = cu.moved ws.sum := by
  have hr : ws.sum ≤ cu.room := by unfold Cursor.room; omega
  simp [Cursor.after, fitBits_all ws _ hr, Nat.not_lt.2 hr, Cursor.moved, hb]

theorem putBitsOf_length : ∀ ps : List Put, (putBitsOf ps).length = (ps.map Put.W).sum
  | [] => rfl
  | p :: ps => by simp [putBitsOf_length ps]

/-- Everything a sequence of puts through a good cursor does (R103, R105, R109): the bits of the leading
puts that fit are written, and the first that does not fit sets `bad`. -/
theorem putSeq_fits : ∀ {ps : List Put} {m : Memory} {cu : Cursor}, (∀ p ∈ ps, p.legal ∧ p.W ≤ p.U) →
    cu.bad = false → cu.base.toNat + cu.size.toNat ≤ m.size → cu.cursor.toNat ≤ 8 * cu.size.toNat →
    ∃ m', putSeq ps (m, cu) = .ok (m', cu.after (ps.map Put.W)) ∧
      wroteStream m m' cu.bitPos ((putBitsOf ps).take (fitBits (ps.map Put.W) cu.room)) ∧ (m.wf → m'.wf)
  | [], m, cu, _, hb, _, _ =>
    ⟨m, by simp [after_nil hb], by simpa using wroteStream_nil m cu.bitPos, id⟩
  | p :: ps, m, cu, hl, hb, hw, hc => by
    obtain ⟨hp, hf⟩ := hl p (by simp)
    simp only [List.map_cons, putBitsOf_cons]
    by_cases hr : cu.room < p.W
    · refine ⟨m, putSeq_cons.2 ⟨(m, cu.setBad), ?_, ?_⟩, ?_, id⟩
      · have hv : violates cu p.W p.U = true := by simp [violates]; unfold Cursor.room at hr; omega
        simp [putProc, hb, hv, show p.W ≠ 0 by omega]
      · rw [after_short hr]; exact putSeq_bad ps rfl
      · simpa [fitBits, hr] using wroteStream_nil m cu.bitPos
    · have hr' : cu.cursor.toNat + p.W ≤ 8 * cu.size.toNat := by unfold Cursor.room at hr; omega
      obtain ⟨m1, h1, hw1, hf1⟩ := putProc_writes p.v (le := p.le) hb hf hp.1 hp.2 hw hr'
      have hlt := room_lt hr'
      have hmc := moved_cursor cu hlt
      obtain ⟨m2, h2, hw2, hf2⟩ := putSeq_fits (ps := ps) (m := m1) (cu := cu.moved p.W)
        (fun q hq => hl q (by simp [hq])) hb (by rw [hw1.size]; exact hw) (by rw [hmc]; exact hr')
      refine ⟨m2, putSeq_cons.2 ⟨_, h1, ?_⟩, ?_, fun h => hf2 (hf1 h)⟩
      · rw [h2, after_cons hr']
      · rw [moved_bitPos cu hlt, moved_room hr'] at hw2
        have := hw1.append (by simpa using hw2)
        simpa [fitBits, hr, List.take_append, Nat.add_sub_cancel_left, List.take_of_length_le] using this

/-- A sequence of puts with room for all its bits writes the concatenation of their streams (R109). -/
theorem putSeq_writes {ps : List Put} {m : Memory} {cu : Cursor} (hl : ∀ p ∈ ps, p.legal ∧ p.W ≤ p.U)
    (hb : cu.bad = false) (hw : cu.base.toNat + cu.size.toNat ≤ m.size)
    (hr : cu.cursor.toNat + (putBitsOf ps).length ≤ 8 * cu.size.toNat) :
    ∃ m', putSeq ps (m, cu) = .ok (m', cu.moved (putBitsOf ps).length) ∧
      wroteStream m m' cu.bitPos (putBitsOf ps) ∧ (m.wf → m'.wf) := by
  obtain ⟨m', h, hws, hf⟩ := putSeq_fits hl hb hw (by omega)
  have hlen := putBitsOf_length ps
  have hroom : (ps.map Put.W).sum ≤ cu.room := by unfold Cursor.room; omega
  rw [after_all hb (by omega), ← hlen] at h
  rw [fitBits_all _ _ hroom, ← hlen, List.take_length] at hws
  exact ⟨m', h, hws, hf⟩

/-! ### The field file through a writer -/

/-- The put of a field (R140). -/
def fieldPut (fd : Vector FieldDesc 16) (fv : Vector Word 16) (f : Fin 16) : Put :=
  { v := fv[f], W := fd[f].w.toNat, U := sizeBits fd[f].sz, le := fd[f].le }

theorem sizeBits_le (sz : Size) : sizeBits sz ≤ 64 := by cases sz <;> decide

theorem serFields_eq (fd : Vector FieldDesc 16) (fv : Vector Word 16) :
    ∀ (l : List (Fin 16)) (mc : Memory × Cursor),
      serFields fd fv l mc = putSeq (l.map (fieldPut fd fv)) mc
  | [], _ => rfl
  | f :: l, mc => by
    show (putField fd[f] fv[f] mc >>= serFields fd fv l) = (putField fd[f] fv[f] mc >>= _)
    cases putField fd[f] fv[f] mc with
    | error e => rfl
    | ok mc1 => simp [serFields_eq fd fv l mc1]

theorem fieldPut_legal {fd : Vector FieldDesc 16} (fv : Vector Word 16) {f : Fin 16} (h : descOk fd[f]) :
    (fieldPut fd fv f).legal ∧ (fieldPut fd fv f).W ≤ (fieldPut fd fv f).U :=
  ⟨⟨sizeBits_le _, h.2⟩, h.1⟩

/-! ### Headers through a writer -/

/-- The puts of a header layout (R162, R164). -/
def headerPut (b : Bank) (e : HdrField × Nat × Nat) : Put :=
  { v := b.get e.1, W := e.2.1, U := e.2.2, le := false }

theorem serHeader_eq (b : Bank) : ∀ (l : List (HdrField × Nat × Nat)) (mc : Memory × Cursor),
    serHeader b l mc = putSeq (l.map (headerPut b)) mc
  | [], _ => rfl
  | (fld, W, U) :: l, mc => by
    show (putProc (b.get fld) W U false mc >>= serHeader b l) = (putProc (b.get fld) W U false mc >>= _)
    cases putProc (b.get fld) W U false mc with
    | error e => rfl
    | ok mc1 => simp [serHeader_eq b l mc1]

theorem phLayout_legal (b : Bank) :
    ∀ p ∈ phLayout.map (headerPut b), p.legal ∧ p.W ≤ p.U := by
  simp [phLayout, headerPut, Put.legal]

theorem shLayout_legal (b : Bank) : ∀ p ∈ (shLayout b).map (headerPut b), p.legal := by
  simp [shLayout, headerPut, Put.legal]

theorem shLayout_fits {b : Bank} (h : bankOk b) :
    ∀ p ∈ (shLayout b).map (headerPut b), p.legal ∧ p.W ≤ p.U := by
  have h1 := h.1
  have h2 := h.2.1
  simp [shLayout, headerPut, Put.legal, hdrWidth]
  omega

theorem putBitsOf_sh (b : Bank) : putBitsOf ((shLayout b).map (headerPut b)) = secondaryStream b := by
  simp [shLayout, headerPut, putBitsOf, secondaryStream, hdrWidth, Bank.get]

/-! ### The idle fill -/

/-- The puts of the idle fill (R194). -/
def idlePut (idle : IdleCfg) (j : Nat) : Put := { v := idleOctet idle j, W := 8, U := 8, le := false }

theorem fillIdle_eq (idle : IdleCfg) : ∀ (k j : Nat) (mc : Memory × Cursor),
    fillIdle idle k j mc = putSeq ((List.range' j k).map (idlePut idle)) mc
  | 0, _, _ => rfl
  | k + 1, j, mc => by
    rw [List.range'_succ, List.map_cons]
    show (putProc (idleOctet idle j) 8 8 false mc >>= fillIdle idle k (j + 1)) =
      (putProc (idleOctet idle j) 8 8 false mc >>= _)
    cases putProc (idleOctet idle j) 8 8 false mc with
    | error e => rfl
    | ok mc1 => simp [fillIdle_eq idle k (j + 1) mc1]

theorem idlePut_legal (idle : IdleCfg) (j : Nat) :
    (idlePut idle j).legal ∧ (idlePut idle j).W ≤ (idlePut idle j).U := by
  simp [idlePut, Put.legal]

theorem putBitsOf_idle_length (idle : IdleCfg) (l : List Nat) :
    (putBitsOf (l.map (idlePut idle))).length = 8 * l.length := by
  induction l with
  | nil => rfl
  | cons j l ih => simp [ih, idlePut, Nat.mul_succ, Nat.add_comm]

end Sys2Proof.Machine
end

