-- ==== Sys2Proof/Laws/Append.lean ====
section
/-! SUPPORT. The copy of `CUR.APPEND` (R113): everything it can do, said once. -/

namespace Sys2Proof.Machine

theorem appendOctets_succ {src : Cursor} {k j : Nat} {mc mc'' : Memory × Cursor} :
    appendOctets src (k + 1) j mc = .ok mc'' ↔
      src.base.toNat + j < mc.1.size ∧ ∃ mc',
        putProc ((mc.1.octet (src.base.toNat + j)).setWidth 64) 8 8 false mc = .ok mc' ∧
          appendOctets src k (j + 1) mc' = .ok mc'' := by
  show (memRead mc.1 (src.base.toNat + j) >>= fun o =>
    putProc (o.setWidth 64) 8 8 false mc >>= appendOctets src k (j + 1)) = _ ↔ _
  by_cases h : src.base.toNat + j < mc.1.size
  · rw [memRead_of_lt h, ok_bind, bind_ok]
    simp [h]
  · simp [memRead, h]

theorem appendOctets_wentOn {src : Cursor} : ∀ {k j : Nat} {mc mc' : Memory × Cursor},
    appendOctets src k j mc = .ok mc' → wentOn mc mc'
  | 0, _, _, _, h => by cases h; exact .refl _
  | k + 1, j, mc, mc', h => by
    obtain ⟨-, mc1, h1, h2⟩ := appendOctets_succ.1 h
    exact (putProc_wentOn (by decide) (by decide) h1).trans (appendOctets_wentOn h2)

/-- The residue of the copy. -/
def appendResidue (src : Cursor) (mc : Memory × Cursor) : Except Fault (Memory × Cursor) :=
  if src.cursor.toNat % 8 = 0 then .ok mc
  else do
    let o ← memRead mc.1 (src.base.toNat + src.cursor.toNat / 8)
    putProc ((o >>> (8 - src.cursor.toNat % 8)).setWidth 64) (src.cursor.toNat % 8) 8 false mc

theorem appendStream_eq (src : Cursor) (mc : Memory × Cursor) :
    appendStream src mc = (appendOctets src (src.cursor.toNat / 8) 0 mc >>= appendResidue src) := rfl

theorem appendResidue_ok {src : Cursor} {mc mc' : Memory × Cursor} (h0 : src.cursor.toNat % 8 ≠ 0) :
    appendResidue src mc = .ok mc' ↔
      src.base.toNat + src.cursor.toNat / 8 < mc.1.size ∧
        putProc ((mc.1.octet (src.base.toNat + src.cursor.toNat / 8) >>>
          (8 - src.cursor.toNat % 8)).setWidth 64) (src.cursor.toNat % 8) 8 false mc = .ok mc' := by
  unfold appendResidue
  rw [if_neg h0]
  by_cases h : src.base.toNat + src.cursor.toNat / 8 < mc.1.size
  · rw [memRead_of_lt h, ok_bind]
    simp [h]
  · simp [memRead, h]

theorem appendResidue_wentOn {src : Cursor} {mc mc' : Memory × Cursor}
    (h : appendResidue src mc = .ok mc') : wentOn mc mc' := by
  by_cases h0 : src.cursor.toNat % 8 = 0
  · simp only [appendResidue, h0, if_true, Except.ok.injEq] at h
    exact h ▸ .refl _
  · exact putProc_wentOn (by decide) (by simp) ((appendResidue_ok h0).1 h).2

theorem appendStream_wentOn {src : Cursor} {mc mc' : Memory × Cursor}
    (h : appendStream src mc = .ok mc') : wentOn mc mc' := by
  obtain ⟨mc1, h1, h2⟩ := bind_ok.1 (appendStream_eq src mc ▸ h)
  exact (appendOctets_wentOn h1).trans (appendResidue_wentOn h2)

/-- The copy does nothing on a bad destination (R113). -/
theorem appendOctets_bad {src : Cursor} : ∀ (k j : Nat) {m : Memory} {cu : Cursor}, cu.bad = true →
    src.base.toNat + j + k ≤ m.size → appendOctets src k j (m, cu) = .ok (m, cu)
  | 0, _, _, _, _, _ => rfl
  | k + 1, j, m, cu, hb, hs =>
    appendOctets_succ.2 ⟨by simp only; omega, (m, cu), by simp [putProc, hb],
      appendOctets_bad k (j + 1) hb (by omega)⟩

/-- The source of the copy is in MEM. -/
def sourceIn (size : Nat) (src : Cursor) : Prop :=
  src.base.toNat + ceilDiv src.cursor.toNat 8 ≤ size

theorem sourceIn_of_ok {size : Nat} {src : Cursor} (h : cursorOk size src) : sourceIn size src := by
  have h1 := h.1
  have h2 := h.2
  unfold sourceIn ceilDiv
  omega

theorem appendStream_bad {src : Cursor} {m : Memory} {cu : Cursor} (hb : cu.bad = true)
    (hs : sourceIn m.size src) : appendStream src (m, cu) = .ok (m, cu) := by
  unfold sourceIn ceilDiv at hs
  rw [appendStream_eq, appendOctets_bad _ 0 hb (by omega), ok_bind]
  by_cases h0 : src.cursor.toNat % 8 = 0
  · simp [appendResidue, h0]
  · exact (appendResidue_ok h0).2 ⟨by simp only; omega, by simp [putProc, hb]⟩

/-- Eight bits of MEM from an octet boundary on are the octet there. -/
theorem wordStream_octet (m : Memory) (a r : Nat) (hr : r ≤ 8) :
    wordStream ((m.octet a >>> (8 - r)).setWidth 64) r false = m.stream (8 * a) r := by
  simp only [wordStream, Memory.stream]
  apply List.map_congr_left
  intro k hk
  have hk : k < r := by simpa using hk
  simp only [Bool.false_eq_true, if_false, BitVec.getLsbD_setWidth, BitVec.getLsbD_ushiftRight,
    Memory.bit, show (8 * a + k) / 8 = a by omega]
  rw [show 8 - r + (r - 1 - k) = 7 - (8 * a + k) % 8 by omega]
  simp
  omega

theorem wroteStream.stream_other {m m' : Memory} {p : Nat} {bits : List Bool}
    (h : wroteStream m m' p bits) {q n : Nat}
    (hd : q + n ≤ 8 * (p / 8) ∨ 8 * ceilDiv (p + bits.length) 8 ≤ q) :
    m'.stream q n = m.stream q n := by
  simp only [Memory.stream]
  apply List.map_congr_left
  intro k hk
  have hk : k < n := by simpa using hk
  simp only [Memory.bit]
  rw [h.octet _ (by omega)]

/-- The octets of the copy: where they go, how many, and what stops them. -/
theorem appendOctets_spec {src : Cursor} : ∀ (k j : Nat) {m : Memory} {cu : Cursor}, cu.bad = false →
    cu.base.toNat + cu.size.toNat ≤ m.size → cu.cursor.toNat ≤ 8 * cu.size.toNat →
    src.base.toNat + j + k ≤ m.size →
    ∃ m', appendOctets src k j (m, cu) =
        .ok (m', { cu.moved (8 * min k (cu.room / 8)) with bad := decide (cu.room < 8 * k) }) ∧
      (m.wf → m'.wf) ∧ m'.size = m.size ∧
      (disjoint cu.base.toNat cu.size.toNat (src.base.toNat + j) k →
        wroteStream m m' cu.bitPos (m.stream (8 * (src.base.toNat + j)) (8 * min k (cu.room / 8))))
  | 0, j, m, cu, hb, _, _, _ => by
    refine ⟨m, ?_, id, rfl, fun _ => ?_⟩
    · simp only [appendOctets, Nat.zero_min, Nat.mul_zero, moved_zero, Nat.not_lt_zero]
      congr 2
      cases cu
      simp_all
    · simpa [Memory.stream] using wroteStream_nil m cu.bitPos
  | k + 1, j, m, cu, hb, hw, hr, hs => by
    by_cases h8 : cu.room < 8
    · refine ⟨m, appendOctets_succ.2 ⟨by simp only; omega, (m, cu.setBad), ?_, ?_⟩, id, rfl, fun _ => ?_⟩
      · have hv : violates cu 8 8 = true := by simp [violates]; unfold Cursor.room at h8; omega
        simp [putProc, hb, hv]
      · rw [appendOctets_bad k (j + 1) (cu := cu.setBad) rfl (by omega)]
        rw [show cu.room / 8 = 0 by omega]
        simp [Cursor.setBad, show cu.room < 8 * (k + 1) by omega]
      · rw [show cu.room / 8 = 0 by omega]
        simpa [Memory.stream] using wroteStream_nil m cu.bitPos
    · have hroom : cu.cursor.toNat + 8 ≤ 8 * cu.size.toNat := by unfold Cursor.room at h8; omega
      obtain ⟨m1, h1, hw1, hf1⟩ := putProc_writes ((m.octet (src.base.toNat + j)).setWidth 64)
        (U := 8) (le := false) hb (by decide) (by decide) (by decide) hw hroom
      have hlt := room_lt hroom
      have hc := moved_cursor cu hlt
      have hrm : (cu.moved 8).room = cu.room - 8 := by
        simp only [Cursor.room, hc, moved_size]; omega
      obtain ⟨m2, h2, hf2, hs2, hw2⟩ := appendOctets_spec (src := src) k (j + 1) (m := m1)
        (cu := cu.moved 8) hb (by rw [hw1.size]; exact hw) (by rw [hc]; exact hroom)
        (by rw [hw1.size]; omega)
      rw [hrm] at h2 hw2
      have hmin : 8 + 8 * min k ((cu.room - 8) / 8) = 8 * min (k + 1) (cu.room / 8) := by omega
      refine ⟨m2, appendOctets_succ.2 ⟨by simp only; omega, _, h1, ?_⟩, fun h => hf2 (hf1 h),
        hs2.trans hw1.size, fun hd => ?_⟩
      · rw [h2]
        congr 2
        have hbad : decide (cu.room - 8 < 8 * k) = decide (cu.room < 8 * (k + 1)) := by
          simp only [decide_eq_decide]; omega
        rw [hbad, ← hmin, moved_moved]
      · have hd' : disjoint (cu.moved 8).base.toNat (cu.moved 8).size.toNat (src.base.toNat + (j + 1)) k := by
          unfold disjoint at *; simp only [moved_base, moved_size]; omega
        have hw2 := hw2 hd'
        rw [moved_bitPos cu hlt] at hw2
        have hsame : m1.stream (8 * (src.base.toNat + (j + 1))) (8 * min k ((cu.room - 8) / 8))
            = m.stream (8 * (src.base.toNat + (j + 1))) (8 * min k ((cu.room - 8) / 8)) := by
          refine hw1.stream_other ?_
          unfold disjoint at hd
          simp only [wordStream_length, Cursor.bitPos, ceilDiv]
          have := Nat.min_le_left k ((cu.room - 8) / 8)
          omega
        rw [hsame] at hw2
        have hoct := wordStream_octet m (src.base.toNat + j) 8 (by decide)
        simp only [Nat.sub_self, BitVec.ushiftRight_zero] at hoct
        rw [hoct] at hw1
        have := hw1.append (ys := m.stream (8 * (src.base.toNat + (j + 1)))
          (8 * min k ((cu.room - 8) / 8))) (by simpa using hw2)
        rw [show 8 * (src.base.toNat + (j + 1)) = 8 * (src.base.toNat + j) + 8 by omega, ← stream_add,
          hmin] at this
        exact this

/-- `CUR.APPEND` into a good cursor (R113): the position, the flag, and the bits copied. -/
theorem appendStream_spec {src : Cursor} {m : Memory} {cu : Cursor} (hb : cu.bad = false)
    (hw : cu.base.toNat + cu.size.toNat ≤ m.size) (hr : cu.cursor.toNat ≤ 8 * cu.size.toNat)
    (hs : sourceIn m.size src) :
    ∃ m', appendStream src (m, cu) =
        .ok (m', { cu.moved (appendFit src.cursor.toNat cu.room) with
          bad := decide (cu.room < src.cursor.toNat) }) ∧
      (m.wf → m'.wf) ∧ m'.size = m.size ∧
      (disjoint cu.base.toNat cu.size.toNat src.base.toNat (ceilDiv src.cursor.toNat 8) →
        wroteStream m m' cu.bitPos
          (m.stream (8 * src.base.toNat) (appendFit src.cursor.toNat cu.room))) := by
  unfold sourceIn ceilDiv at hs
  obtain ⟨m1, h1, hf1, hs1, hw1⟩ := appendOctets_spec (src := src) (src.cursor.toNat / 8) 0 hb hw hr (by omega)
  rw [appendStream_eq, h1, ok_bind]
  by_cases h0 : src.cursor.toNat % 8 = 0
  · refine ⟨m1, ?_, hf1, hs1, fun hd => ?_⟩
    · simp only [appendResidue, h0, if_true]
      congr 2
      have hfit : 8 * min (src.cursor.toNat / 8) (cu.room / 8) = appendFit src.cursor.toNat cu.room := by
        unfold appendFit; split <;> omega
      have hbad : decide (cu.room < 8 * (src.cursor.toNat / 8)) = decide (cu.room < src.cursor.toNat) := by
        simp only [decide_eq_decide]; omega
      rw [hfit, hbad]
    · have hfit : 8 * min (src.cursor.toNat / 8) (cu.room / 8) = appendFit src.cursor.toNat cu.room := by
        unfold appendFit; split <;> omega
      have := hw1 (by unfold disjoint ceilDiv at *; omega)
      rw [hfit] at this
      simpa using this
  · by_cases h8 : cu.room < 8 * (src.cursor.toNat / 8)
    · refine ⟨m1, (appendResidue_ok h0).2 ⟨by simp only [hs1]; omega, ?_⟩, hf1, hs1, fun hd => ?_⟩
      · have hfit : 8 * min (src.cursor.toNat / 8) (cu.room / 8) = appendFit src.cursor.toNat cu.room := by
          unfold appendFit; split <;> omega
        simp [putProc, h8, hfit, show cu.room < src.cursor.toNat by omega]
      · have hfit : 8 * min (src.cursor.toNat / 8) (cu.room / 8) = appendFit src.cursor.toNat cu.room := by
          unfold appendFit; split <;> omega
        have := hw1 (by unfold disjoint ceilDiv at *; omega)
        rw [hfit] at this
        simpa using this
    · have hmin : 8 * min (src.cursor.toNat / 8) (cu.room / 8) = 8 * (src.cursor.toNat / 8) := by omega
      rw [hmin] at hw1 ⊢
      have hroom8 : cu.cursor.toNat + 8 * (src.cursor.toNat / 8) ≤ 8 * cu.size.toNat := by
        unfold Cursor.room at h8; omega
      have hlt := room_lt hroom8
      have hc := moved_cursor cu hlt
      have hcu : ({ cu.moved (8 * (src.cursor.toNat / 8)) with
          bad := decide (cu.room < 8 * (src.cursor.toNat / 8)) } : Cursor)
          = cu.moved (8 * (src.cursor.toNat / 8)) := by
        simp [h8, Cursor.moved, hb]
      rw [hcu]
      by_cases hn : cu.room < src.cursor.toNat
      · refine ⟨m1, (appendResidue_ok h0).2 ⟨by simp only [hs1]; omega, ?_⟩, hf1, hs1, fun hd => ?_⟩
        · have hv : violates (cu.moved (8 * (src.cursor.toNat / 8))) (src.cursor.toNat % 8) 8 = true := by
            simp only [violates, hc, moved_size, Bool.or_eq_true, decide_eq_true_eq]
            unfold Cursor.room at hn
            omega
          simp only [putProc, moved_bad, hb, h0, hv, Bool.false_eq_true, if_false, if_true]
          have hfit : 8 * (src.cursor.toNat / 8) = appendFit src.cursor.toNat cu.room := by
            unfold appendFit; split <;> omega
          rw [← hfit]
          simp [Cursor.setBad, hn]
        · have hfit : 8 * (src.cursor.toNat / 8) = appendFit src.cursor.toNat cu.room := by
            unfold appendFit; split <;> omega
          rw [← hfit]
          simpa using hw1 (by unfold disjoint ceilDiv at *; omega)
      · obtain ⟨m2, h2, hw2, hf2⟩ := putProc_writes (m := m1) (cu := cu.moved (8 * (src.cursor.toNat / 8)))
          ((m1.octet (src.base.toNat + src.cursor.toNat / 8) >>> (8 - src.cursor.toNat % 8)).setWidth 64)
          (W := src.cursor.toNat % 8) (U := 8) (le := false) hb (by omega) (by decide) (by simp)
          (by rw [hs1]; exact hw) (by rw [hc]; simp only [moved_size]; unfold Cursor.room at hn; omega)
        have hfit : appendFit src.cursor.toNat cu.room = 8 * (src.cursor.toNat / 8) + src.cursor.toNat % 8 := by
          unfold appendFit; split <;> omega
        refine ⟨m2, (appendResidue_ok h0).2 ⟨by simp only [hs1]; omega, ?_⟩, fun h => hf2 (hf1 h),
          hw2.size.trans hs1, fun hd => ?_⟩
        · rw [h2, hfit, moved_moved]
          congr 2
          simp [hn, Cursor.moved, hb]
        · have hw1 := hw1 (by unfold disjoint ceilDiv at *; omega)
          rw [moved_bitPos cu hlt] at hw2
          rw [wordStream_octet _ _ _ (by omega)] at hw2
          have hsame : m1.stream (8 * (src.base.toNat + src.cursor.toNat / 8)) (src.cursor.toNat % 8)
              = m.stream (8 * (src.base.toNat + src.cursor.toNat / 8)) (src.cursor.toNat % 8) := by
            refine hw1.stream_other ?_
            unfold disjoint ceilDiv at hd
            simp only [stream_length, Cursor.bitPos, ceilDiv]
            omega
          rw [hsame] at hw2
          have := hw1.append (ys := m.stream (8 * (src.base.toNat + src.cursor.toNat / 8))
            (src.cursor.toNat % 8)) (by simpa using hw2)
          rw [Nat.add_zero, show 8 * (src.base.toNat + src.cursor.toNat / 8)
            = 8 * src.base.toNat + 8 * (src.cursor.toNat / 8) by omega, ← stream_add] at this
          rw [hfit]
          exact this

end Sys2Proof.Machine
end

