-- ==== Sys2Proof/Laws/Encoding.lean ====
section
/-! SUPPORT. The command word: its fields, its mask, its selectors (R81, R82, R84). -/

namespace Sys2Proof

@[simp] theorem unpackCmd_packCmd (f : CmdFields) : unpackCmd (packCmd f) = f := by
  cases f
  simp only [unpackCmd, packCmd, CmdFields.mk.injEq]
  refine ⟨?_, ?_, ?_, ?_, ?_, ?_, ?_⟩ <;>
  · apply BitVec.eq_of_getLsbD_eq
    intro i hi
    simp only [BitVec.getLsbD_extractLsb', BitVec.getLsbD_append, hi, decide_true, Bool.true_and]
    grind

@[simp] theorem packCmd_unpackCmd (cw : CmdWord) : packCmd (unpackCmd cw) = cw := by
  simp only [unpackCmd, packCmd]
  apply BitVec.eq_of_getLsbD_eq
  intro i hi
  simp only [BitVec.getLsbD_extractLsb', BitVec.getLsbD_append]
  grind

theorem packCmd_inj {f g : CmdFields} (h : packCmd f = packCmd g) : f = g := by
  rw [← unpackCmd_packCmd f, h, unpackCmd_packCmd]

/-- A mask acts on each field. -/
theorem packCmd_and (f g : CmdFields) : packCmd f &&& packCmd g =
    packCmd { op := f.op &&& g.op, sz := f.sz &&& g.sz, le := f.le &&& g.le, w := f.w &&& g.w
              c := f.c &&& g.c, s := f.s &&& g.s, idx := f.idx &&& g.idx } := by
  simp only [packCmd, ← BitVec.and_append]

theorem packCmd_op (op : BitVec 8) : (op ++ 0#24 : BitVec 32) = packCmd { op := op } := by
  apply BitVec.eq_of_getLsbD_eq
  intro i hi
  simp only [packCmd, BitVec.getLsbD_append]
  grind

set_option linter.unusedSimpArgs false in
/-- The mask of a format says what its list of unused fields says (R82). -/
theorem unusedZero_iff (fmt : Format) (f : CmdFields) :
    fmt.unusedZero f = true ↔ packCmd f &&& fmt.mask = (f.op ++ 0#24 : BitVec 32) := by
  rw [packCmd_op]
  have ones : ∀ {n : Nat} (x : BitVec n), x &&& BitVec.allOnes n = x := fun x => BitVec.and_allOnes
  have key : ∀ g : CmdFields, packCmd f &&& packCmd g = packCmd { op := f.op } ↔
      f.op &&& g.op = f.op ∧ f.sz &&& g.sz = 0 ∧ f.le &&& g.le = 0 ∧ f.w &&& g.w = 0 ∧
        f.c &&& g.c = 0 ∧ f.s &&& g.s = 0 ∧ f.idx &&& g.idx = 0 := by
    intro g
    rw [packCmd_and]
    refine ⟨fun h => ?_, fun ⟨h1, h2, h3, h4, h5, h6, h7⟩ => ?_⟩
    · simpa using packCmd_inj h
    · rw [h1, h2, h3, h4, h5, h6, h7]
  have e1 : ∀ x : BitVec 1, x &&& 1#1 = x := ones
  have e2 : ∀ x : BitVec 2, x &&& 3#2 = x := ones
  have e3 : ∀ x : BitVec 3, x &&& 7#3 = x := ones
  have e7 : ∀ x : BitVec 7, x &&& 127#7 = x := ones
  have e8 : ∀ x : BitVec 8, x &&& 255#8 = x := ones
  have hm : ∀ sz le w c s idx, fmt.mask = packCmd { op := BitVec.allOnes 8, sz, le, w, c, s, idx } →
      (packCmd f &&& fmt.mask = packCmd { op := f.op } ↔
        f.sz &&& sz = 0 ∧ f.le &&& le = 0 ∧ f.w &&& w = 0 ∧ f.c &&& c = 0 ∧ f.s &&& s = 0 ∧
          f.idx &&& idx = 0) := by
    intro sz le w c s idx h
    rw [h, key]
    simp [e8]
  cases fmt
  · rw [hm (.allOnes 2) (.allOnes 1) (.allOnes 7) (.allOnes 3) (.allOnes 3) (.allOnes 8) (by decide)]
    simp [Format.unusedZero, e1, e2, e3, e7, e8, and_assoc]
  · rw [hm (.allOnes 2) (.allOnes 1) (.allOnes 7) 0 (.allOnes 3) (.allOnes 8) (by decide)]
    simp [Format.unusedZero, e1, e2, e3, e7, e8, and_assoc]
  · rw [hm 0 0 0 0 (.allOnes 3) (.allOnes 8) (by decide)]
    simp [Format.unusedZero, e1, e2, e3, e7, e8]
  · rw [hm (.allOnes 2) (.allOnes 1) (.allOnes 7) 0 0 (.allOnes 8) (by decide)]
    simp [Format.unusedZero, e1, e2, e3, e7, e8, and_assoc]
  · rw [hm (.allOnes 2) (.allOnes 1) (.allOnes 7) (.allOnes 3) (.allOnes 3) 0 (by decide)]
    simp [Format.unusedZero, e1, e2, e3, e7, e8, and_assoc]
  · rw [hm 0 0 0 (.allOnes 3) (.allOnes 3) 0 (by decide)]
    simp [Format.unusedZero, e1, e2, e3, e7, e8]
  · rw [hm (.allOnes 2) (.allOnes 1) 0 (.allOnes 3) (.allOnes 3) 0 (by decide)]
    simp [Format.unusedZero, e1, e2, e3, e7, e8, and_assoc]
  · rw [hm (.allOnes 2) (.allOnes 1) (.allOnes 7) 0 (.allOnes 3) 0 (by decide)]
    simp [Format.unusedZero, e1, e2, e3, e7, e8, and_assoc]
  · rw [hm (.allOnes 2) (.allOnes 1) (.allOnes 7) (.allOnes 3) 0 (.allOnes 8) (by decide)]
    simp [Format.unusedZero, e1, e2, e3, e7, e8, and_assoc]
  · rw [hm (.allOnes 2) (.allOnes 1) (.allOnes 7) (.allOnes 3) 0 0 (by decide)]
    simp [Format.unusedZero, e1, e2, e3, e7, e8, and_assoc]
  · rw [hm (.allOnes 2) (.allOnes 1) (.allOnes 7) 0 0 (.allOnes 8) (by decide)]
    simp [Format.unusedZero, e1, e2, e3, e7, e8, and_assoc]
  · rw [hm 0 (.allOnes 1) (.allOnes 7) (.allOnes 3) (.allOnes 3) (.allOnes 8) (by decide)]
    simp [Format.unusedZero, e1, e2, e3, e7, e8, and_assoc]

/-! ### Selectors (R84) -/

@[simp] theorem decodeCur_encodeCur (c : CurSel) : decodeCur (encodeCur c) = some c := by
  cases c <;> rfl

@[simp] theorem decodeBank_encodeBank (u : BankSel) : decodeBank (encodeBank u) = some u := by
  cases u <;> rfl

@[simp] theorem decodeHdrField_encodeHdrField (f : HdrField) :
    decodeHdrField (encodeHdrField f) = some f := by cases f <;> rfl

@[simp] theorem decodeSize_encodeSize (sz : Size) : decodeSize (encodeSize sz) = sz := by
  cases sz <;> rfl

@[simp] theorem decodeField_ofNat (f : Fin 16) : decodeField (BitVec.ofNat 8 f) = some f := by
  revert f; decide

@[simp] theorem decodeCount_ofNat (n : Fin 17) : decodeCount (BitVec.ofNat 8 n) = some n := by
  revert n; decide

@[simp] theorem bitOf_eq_one (b : Bool) : bitOf b = 1#1 ↔ b = true := by cases b <;> decide

@[simp] theorem windowOf_encodeWindow (win : Window) : windowOf (encodeWindow win) = win := by
  cases win
  simp only [windowOf, encodeWindow, Window.mk.injEq]
  constructor <;>
  · apply BitVec.eq_of_getLsbD_eq
    intro i hi
    simp only [BitVec.getLsbD_extractLsb', BitVec.getLsbD_append]
    grind

theorem decodeCur_eq_some {x : BitVec 3} {c : CurSel} (h : decodeCur x = some c) : encodeCur c = x := by
  revert x; cases c <;> decide

theorem decodeBank_eq_some {x : BitVec 3} {u : BankSel} (h : decodeBank x = some u) :
    encodeBank u = x := by
  revert x; cases u <;> decide

theorem decodeHdrField_eq_some {x : BitVec 8} {f : HdrField} (h : decodeHdrField x = some f) :
    encodeHdrField f = x := by
  revert x; cases f <;> decide

theorem encodeSize_decodeSize (x : BitVec 2) : encodeSize (decodeSize x) = x := by
  revert x; decide

theorem bitOf_decide (x : BitVec 1) : bitOf (decide (x = 1)) = x := by
  revert x; decide

theorem decodeField_eq_some {x : BitVec 8} {f : Fin 16} (h : decodeField x = some f) :
    BitVec.ofNat 8 f = x := by
  unfold decodeField at h
  split at h
  · cases h; simp
  · cases h

theorem decodeCount_eq_some {x : BitVec 8} {n : Fin 17} (h : decodeCount x = some n) :
    BitVec.ofNat 8 n = x := by
  unfold decodeCount at h
  split at h
  · cases h; simp
  · cases h

theorem decodeCur_isSome (x : BitVec 3) : (decodeCur x).isSome ↔ x.toNat < 4 := by
  revert x; decide

theorem decodeBank_isSome (x : BitVec 3) : (decodeBank x).isSome ↔ x.toNat < 3 := by
  revert x; decide

theorem decodeHdrField_isSome (x : BitVec 8) : (decodeHdrField x).isSome ↔ x.toNat < 9 := by
  revert x; decide

theorem decodeField_isSome (x : BitVec 8) : (decodeField x).isSome ↔ x.toNat < 16 := by
  unfold decodeField; split <;> simp_all

theorem decodeCount_isSome (x : BitVec 8) : (decodeCount x).isSome ↔ x.toNat < 17 := by
  unfold decodeCount; split <;> simp_all

/-- The two widths of `HDR.CFGSH` are the two halves of `idx` (R84). -/
theorem idx_halves (x : BitVec 8) : (x.extractLsb' 4 4 ++ x.extractLsb' 0 4 : BitVec 8) = x := by
  revert x; decide

theorem halves_low (t a : BitVec 4) : (a ++ t : BitVec 8).extractLsb' 0 4 = t := by
  revert t a; decide

theorem halves_high (t a : BitVec 4) : (a ++ t : BitVec 8).extractLsb' 4 4 = a := by
  revert t a; decide

theorem half_low_toNat (x : BitVec 8) : (x.extractLsb' 0 4).toNat = x.toNat % 16 := by
  revert x; decide

theorem half_high_toNat (x : BitVec 8) : (x.extractLsb' 4 4).toNat = x.toNat / 16 := by
  revert x; decide

end Sys2Proof
end

