-- ==== Sys2Proof/Laws/Reads.lean ====
section
/-! SUPPORT. The procedures made of several gets (R144, R163, R164), and the headers of a packet in MEM
(R161, R165): what each can do, said once. -/

namespace Sys2Proof.Machine

/-! ### The field file through a reader -/

theorem desFields_cons {fd : Vector FieldDesc 16} {m : Memory} {f : Fin 16} {l : List (Fin 16)}
    {vc vc'' : Vector Word 16 × Cursor} :
    desFields fd m (f :: l) vc = .ok vc'' ↔
      ∃ r cu, getField fd[f] m vc.2 = .ok (r, cu) ∧
        desFields fd m l ((match r with | some v => vc.1.set f v | none => vc.1), cu) = .ok vc'' := by
  show (getField fd[f] m vc.2 >>= fun rc => desFields fd m l
    ((match rc.1 with | some v => vc.1.set f v | none => vc.1), rc.2)) = _ ↔ _
  rw [bind_ok]
  exact ⟨fun ⟨a, h⟩ => ⟨a.1, a.2, h⟩, fun ⟨r, cu, h⟩ => ⟨(r, cu), h⟩⟩

/-- The fields after a get of one of them. -/
theorem fv_set_other {fv : Vector Word 16} {f g : Fin 16} (r : Option Word) (h : g ≠ f) :
    (match r with | some v => fv.set f v | none => fv)[g] = fv[g] := by
  cases r with
  | none => rfl
  | some v =>
    have : (f : Nat) ≠ g := fun h' => h (Fin.ext h'.symm)
    simp [this]

theorem fv_set_same (fv : Vector Word 16) (f : Fin 16) (v : Word) : (fv.set f v)[f] = v := by
  simp

/-- What `COL.DES` keeps: the cursor's window, the other fields, and the bounds of the values. -/
theorem desFields_keeps {fd : Vector FieldDesc 16} {m : Memory} : ∀ {l : List (Fin 16)}
    {fv fv' : Vector Word 16} {cu cu' : Cursor}, cu.base.toNat + cu.size.toNat ≤ m.size →
    desFields fd m l (fv, cu) = .ok (fv', cu') →
    cursorOn cu cu' ∧ (∀ g : Fin 16, g ∉ l → fv'[g] = fv[g]) ∧
      ((∀ f ∈ l, descOk fd[f]) → (∀ g : Fin 16, fv[g].toNat < 2 ^ fd[g].w.toNat) →
        ∀ g : Fin 16, fv'[g].toNat < 2 ^ fd[g].w.toNat)
  | [], fv, fv', cu, cu', _, h => by
    cases h
    exact ⟨.refl _, fun _ _ => rfl, fun _ hv => hv⟩
  | f :: l, fv, fv', cu, cu', hw, h => by
    obtain ⟨r, cu1, h1, h2⟩ := desFields_cons.1 h
    have hc := getProc_cursorOn hw h1
    obtain ⟨hc2, hk2, hv2⟩ := desFields_keeps (by rw [hc.base, hc.csize]; exact hw) h2
    refine ⟨hc.trans hc2, fun g hg => ?_, fun hd hv => hv2 (fun g hg => hd g (by simp [hg])) fun g => ?_⟩
    · rw [hk2 g (by simp_all), fv_set_other _ (by rintro rfl; simp at hg)]
    · by_cases hgf : g = f
      · subst hgf
        cases r with
        | none => exact hv g
        | some v =>
          have hdg := hd g (by simp)
          rw [fv_set_same]
          exact getProc_value (sizeBits_le _) hdg.2 hw h1
      · rw [fv_set_other _ hgf]; exact hv g

/-- `COL.DES` through a window in MEM never faults. -/
theorem desFields_total {fd : Vector FieldDesc 16} {m : Memory} : ∀ (l : List (Fin 16))
    (fv : Vector Word 16) {cu : Cursor}, cu.base.toNat + cu.size.toNat ≤ m.size →
    ∃ vc, desFields fd m l (fv, cu) = .ok vc
  | [], fv, cu, _ => ⟨_, rfl⟩
  | f :: l, fv, cu, hw => by
    obtain ⟨⟨r, cu1⟩, h1⟩ := getProc_total (m := m) fd[f].w.toNat (sizeBits fd[f].sz) fd[f].le hw
    have hc := getProc_cursorOn hw h1
    have hw1 : cu1.base.toNat + cu1.size.toNat ≤ m.size := by rw [hc.base, hc.csize]; exact hw
    clear hc
    obtain ⟨vc, h2⟩ : ∃ vc, desFields fd m l ((match r with | some v => fv.set f v | none => fv), cu1)
      = .ok vc := desFields_total l _ hw1
    exact ⟨vc, desFields_cons.2 ⟨r, cu1, h1, h2⟩⟩

/-- `COL.DES` on a bad cursor does nothing (R105). -/
theorem desFields_bad {fd : Vector FieldDesc 16} {m : Memory} : ∀ (l : List (Fin 16))
    (fv : Vector Word 16) {cu : Cursor}, cu.bad = true → desFields fd m l (fv, cu) = .ok (fv, cu)
  | [], _, _, _ => rfl
  | f :: l, fv, cu, hb =>
    desFields_cons.2 ⟨none, cu, by simp [getField, getProc, hb], desFields_bad l fv hb⟩

/-- The bits of fields, were their values `fv`. -/
def fieldsStream (fd : Vector FieldDesc 16) (fv : Vector Word 16) (l : List (Fin 16)) : List Bool :=
  l.flatMap fun f => wordStream fv[f] fd[f].w.toNat fd[f].le

theorem fieldsStream_length (fd : Vector FieldDesc 16) (fv : Vector Word 16) : ∀ l : List (Fin 16),
    (fieldsStream fd fv l).length = (l.map fun f => fd[f].w.toNat).sum
  | [] => rfl
  | f :: l => by
    have := fieldsStream_length fd fv l
    simp only [fieldsStream, List.flatMap_cons, List.length_append, wordStream_length, List.map_cons,
      List.sum_cons] at this ⊢
    omega

theorem fieldsStream_congr {fd : Vector FieldDesc 16} {fv fv' : Vector Word 16} {l : List (Fin 16)}
    (h : ∀ f ∈ l, fv'[f] = fv[f]) : fieldsStream fd fv' l = fieldsStream fd fv l := by
  induction l with
  | nil => rfl
  | cons f l ih =>
    simp only [fieldsStream, List.flatMap_cons] at ih ⊢
    rw [h f (by simp), ih fun g hg => h g (by simp [hg])]

/-- Everything `COL.DES` does through a good cursor (R103, R105, R144): the fields that fit take the bits
of MEM, the others keep their values. -/
theorem desFields_fits {fd : Vector FieldDesc 16} {m : Memory} : ∀ {l : List (Fin 16)}
    {fv : Vector Word 16} {cu : Cursor}, l.Nodup → (∀ f ∈ l, descOk fd[f]) → cu.bad = false →
    cu.base.toNat + cu.size.toNat ≤ m.size → cu.cursor.toNat ≤ 8 * cu.size.toNat →
    ∃ fv', desFields fd m l (fv, cu) = .ok (fv', cu.after (l.map fun f => fd[f].w.toNat)) ∧
      fieldsStream fd fv' l = m.stream cu.bitPos (fitBits (l.map fun f => fd[f].w.toNat) cu.room) ++
        (fieldsStream fd fv l).drop (fitBits (l.map fun f => fd[f].w.toNat) cu.room)
  | [], fv, cu, _, _, hb, _, _ =>
    ⟨fv, by simp [desFields, after_nil hb], by simp [fieldsStream, fitBits, Memory.stream]⟩
  | f :: l, fv, cu, hn, hd, hb, hw, hc => by
    have hfl : f ∉ l := (List.nodup_cons.1 hn).1
    have hdf := hd f (by simp)
    simp only [List.map_cons]
    by_cases hr : cu.room < fd[f].w.toNat
    · refine ⟨fv, desFields_cons.2 ⟨none, cu.setBad, ?_, ?_⟩, ?_⟩
      · have hv : violates cu fd[f].w.toNat (sizeBits fd[f].sz) = true := by
          unfold Cursor.room at hr
          simp only [violates, Bool.or_eq_true, decide_eq_true_eq]
          omega
        have h0 : fd[f].w.toNat ≠ 0 := by omega
        simp only [getField, getProc, hb, h0, hv, Bool.false_eq_true, if_false, if_true]
      · rw [after_short hr]; exact desFields_bad l fv rfl
      · simp [fitBits, hr, Memory.stream, -Fin.getElem_fin]
    · have hr' : cu.cursor.toNat + fd[f].w.toNat ≤ 8 * cu.size.toNat := by unfold Cursor.room at hr; omega
      have hlt := room_lt hr'
      have hmc := moved_cursor cu hlt
      by_cases h0 : fd[f].w.toNat = 0
      · obtain ⟨fv', h2, hs2⟩ := desFields_fits (fd := fd) (m := m) (l := l) (fv := fv) (cu := cu)
          (List.nodup_cons.1 hn).2 (fun g hg => hd g (by simp [hg])) hb hw hc
        refine ⟨fv', desFields_cons.2 ⟨none, cu, by simp [getField, getProc, h0, -Fin.getElem_fin], ?_⟩, ?_⟩
        · rw [h2, ← after_cons hr', h0, moved_zero]
        · simp only [fieldsStream, List.flatMap_cons, h0, fitBits, wordStream] at hs2 ⊢
          simpa [-Fin.getElem_fin] using hs2
      · have h1 := getProc_reads (le := fd[f].le) hb h0 hdf.1 hw hr'
        obtain ⟨fv', h2, hs2⟩ := desFields_fits (fd := fd) (m := m) (l := l)
          (fv := fv.set f (streamValue (m.stream cu.bitPos fd[f].w.toNat) fd[f].le))
          (cu := cu.moved fd[f].w.toNat) (List.nodup_cons.1 hn).2 (fun g hg => hd g (by simp [hg])) hb hw
          (by rw [hmc]; exact hr')
        refine ⟨fv', desFields_cons.2 ⟨_, _, h1, ?_⟩, ?_⟩
        · rw [h2, after_cons hr']
        · have hkeep := (desFields_keeps (cu := cu.moved fd[f].w.toNat) hw h2).2.1 f hfl
          have hval : fv'[f] = streamValue (m.stream cu.bitPos fd[f].w.toNat) fd[f].le := by
            rw [hkeep, fv_set_same]
          have hold : fieldsStream fd (fv.set f (streamValue (m.stream cu.bitPos fd[f].w.toNat) fd[f].le)) l
              = fieldsStream fd fv l :=
            fieldsStream_congr fun g hg => fv_set_other (some _) (by rintro rfl; exact hfl hg)
          rw [hold, moved_bitPos cu hlt, moved_room hr'] at hs2
          have hws := wordStream_streamValue (bits := m.stream cu.bitPos fd[f].w.toNat) (le := fd[f].le)
            (by have := hdf.1; have := sizeBits_le fd[f].sz; rw [stream_length]; omega)
            (by rw [stream_length]; exact hdf.2)
          rw [stream_length] at hws
          simp only [fieldsStream, List.flatMap_cons] at hs2 ⊢
          rw [hval, hws, hs2]
          simp only [fitBits, hr, if_false, stream_add, List.append_assoc]
          congr 2
          rw [List.drop_append]
          simp [List.drop_of_length_le]

/-! ### Header layouts through a reader -/

/-- The bits of a header's fields. -/
def layoutStream (b : Bank) (l : List (HdrField × Nat × Nat)) : List Bool :=
  l.flatMap fun e => wordStream (b.get e.1) e.2.1 false

/-- The width of a header register: all of its bits are the field's (R27, R28). -/
def registerWidth : HdrField → Nat
  | .version => 3 | .type => 1 | .shf => 1 | .apid => 11 | .seqflags => 2 | .seqcount => 14
  | .length => 16 | .tc => 64 | .anc => 64

theorem put_get_same (b : Bank) (fld : HdrField) (v : Word) (h : v.toNat < 2 ^ registerWidth fld) :
    (b.put fld v).get fld = v := by
  cases fld <;> simp only [registerWidth] at h <;> simp only [Bank.put, Bank.get] <;>
    apply BitVec.eq_of_toNat_eq <;> simp <;> omega

theorem put_get_other (b : Bank) {fld g : HdrField} (v : Word) (h : g ≠ fld) :
    (b.put fld v).get g = b.get g := by
  cases fld <;> cases g <;> first | rfl | exact absurd rfl h

@[simp] theorem put_tcb (b : Bank) (fld : HdrField) (v : Word) : (b.put fld v).tcb = b.tcb := by
  cases fld <;> rfl

@[simp] theorem put_ancb (b : Bank) (fld : HdrField) (v : Word) : (b.put fld v).ancb = b.ancb := by
  cases fld <;> rfl

/-- A bank is its two widths and its nine fields. -/
theorem bank_ext {b b' : Bank} (ht : b'.tcb = b.tcb) (ha : b'.ancb = b.ancb)
    (h : ∀ fld, b'.get fld = b.get fld) : b' = b := by
  have low : ∀ {n : Nat} {x y : BitVec n}, n ≤ 64 → x.setWidth 64 = y.setWidth 64 → x = y := by
    intro n x y hn hxy
    have := congrArg BitVec.toNat hxy
    have hx := x.isLt
    have hy := y.isLt
    have hp : 2 ^ n ≤ 2 ^ 64 := Nat.pow_le_pow_right (by decide) hn
    simp only [BitVec.toNat_setWidth] at this
    rw [Nat.mod_eq_of_lt (by omega), Nat.mod_eq_of_lt (by omega)] at this
    exact BitVec.eq_of_toNat_eq this
  cases b; cases b'
  simp only [Bank.mk.injEq]
  exact ⟨low (by decide) (h .version), low (by decide) (h .type), low (by decide) (h .shf),
    low (by decide) (h .apid), low (by decide) (h .seqflags), low (by decide) (h .seqcount),
    low (by decide) (h .length), ht, ha, h .tc, h .anc⟩

theorem desHeader_cons {m : Memory} {fld : HdrField} {W U : Nat} {l : List (HdrField × Nat × Nat)}
    {bc bc'' : Bank × Cursor} :
    desHeader m ((fld, W, U) :: l) bc = .ok bc'' ↔
      ∃ r cu, getProc m W U false bc.2 = .ok (r, cu) ∧
        desHeader m l ((match r with | some v => bc.1.put fld v | none => bc.1), cu) = .ok bc'' := by
  show (getProc m W U false bc.2 >>= fun rc => desHeader m l
    ((match rc.1 with | some v => bc.1.put fld v | none => bc.1), rc.2)) = _ ↔ _
  rw [bind_ok]
  exact ⟨fun ⟨a, h⟩ => ⟨a.1, a.2, h⟩, fun ⟨r, cu, h⟩ => ⟨(r, cu), h⟩⟩

/-- What a header get keeps: the cursor's window, the widths, the other fields. -/
theorem desHeader_keeps {m : Memory} : ∀ {l : List (HdrField × Nat × Nat)} {b b' : Bank} {cu cu' : Cursor},
    cu.base.toNat + cu.size.toNat ≤ m.size → desHeader m l (b, cu) = .ok (b', cu') →
    cursorOn cu cu' ∧ b'.tcb = b.tcb ∧ b'.ancb = b.ancb ∧
      (∀ g, g ∉ l.map Prod.fst → b'.get g = b.get g) ∧
      ((∀ e ∈ l, e.2.2 ≤ 64 ∧ e.2.1 ≤ registerWidth e.1) → ∀ (w : HdrField → Nat),
        (∀ e ∈ l, w e.1 = e.2.1) → (∀ g, (b.get g).toNat < 2 ^ w g) → ∀ g, (b'.get g).toNat < 2 ^ w g)
  | [], b, b', cu, cu', _, h => by
    cases h
    exact ⟨.refl _, rfl, rfl, fun _ _ => rfl, fun _ _ _ hv => hv⟩
  | (fld, W, U) :: l, b, b', cu, cu', hw, h => by
    obtain ⟨r, cu1, h1, h2⟩ := desHeader_cons.1 h
    have hc := getProc_cursorOn hw h1
    obtain ⟨hc2, ht2, ha2, hk2, hv2⟩ := desHeader_keeps (by rw [hc.base, hc.csize]; exact hw) h2
    refine ⟨hc.trans hc2, ?_, ?_, fun g hg => ?_,
      fun hd w hwid hv => hv2 (fun e he => hd e (by simp [he])) w (fun e he => hwid e (by simp [he]))
        fun g => ?_⟩
    · rw [ht2]; cases r <;> simp
    · rw [ha2]; cases r <;> simp
    · rw [hk2 g (by simp_all)]
      cases r with
      | none => rfl
      | some v => exact put_get_other _ _ (by rintro rfl; simp at hg)
    · cases r with
      | none => exact hv g
      | some v =>
        by_cases hgf : g = fld
        · subst hgf
          have hd1 := hd (g, W, U) (by simp)
          have hlt := getProc_value hd1.1 (by simp) hw h1
          rw [put_get_same _ _ _ (Nat.lt_of_lt_of_le hlt (Nat.pow_le_pow_right (by decide) hd1.2))]
          rw [hwid (g, W, U) (by simp)]
          exact hlt
        · rw [put_get_other _ _ hgf]; exact hv g

theorem desHeader_total {m : Memory} : ∀ (l : List (HdrField × Nat × Nat)) (b : Bank) {cu : Cursor},
    cu.base.toNat + cu.size.toNat ≤ m.size → ∃ bc, desHeader m l (b, cu) = .ok bc
  | [], b, cu, _ => ⟨_, rfl⟩
  | (fld, W, U) :: l, b, cu, hw => by
    obtain ⟨⟨r, cu1⟩, h1⟩ := getProc_total (m := m) W U false hw
    have hc := getProc_cursorOn hw h1
    have hw1 : cu1.base.toNat + cu1.size.toNat ≤ m.size := by rw [hc.base, hc.csize]; exact hw
    clear hc
    obtain ⟨bc, h2⟩ : ∃ bc, desHeader m l ((match r with | some v => b.put fld v | none => b), cu1)
      = .ok bc := desHeader_total l _ hw1
    exact ⟨bc, desHeader_cons.2 ⟨r, cu1, h1, h2⟩⟩

theorem desHeader_bad {m : Memory} : ∀ (l : List (HdrField × Nat × Nat)) (b : Bank) {cu : Cursor},
    cu.bad = true → desHeader m l (b, cu) = .ok (b, cu)
  | [], _, _, _ => rfl
  | (fld, W, U) :: l, b, cu, hb =>
    desHeader_cons.2 ⟨none, cu, by simp [getProc, hb], desHeader_bad l b hb⟩

theorem layoutStream_congr {b b' : Bank} {l : List (HdrField × Nat × Nat)}
    (h : ∀ e ∈ l, b'.get e.1 = b.get e.1) : layoutStream b' l = layoutStream b l := by
  induction l with
  | nil => rfl
  | cons e l ih =>
    simp only [layoutStream, List.flatMap_cons] at ih ⊢
    rw [h e (by simp), ih fun g hg => h g (by simp [hg])]

/-- Everything a header get through a good cursor does (R163, R164). -/
theorem desHeader_fits {m : Memory} : ∀ {l : List (HdrField × Nat × Nat)} {b : Bank} {cu : Cursor},
    (l.map Prod.fst).Nodup → (∀ e ∈ l, e.2.1 ≤ e.2.2 ∧ e.2.2 ≤ 64 ∧ e.2.1 ≤ registerWidth e.1) →
    cu.bad = false → cu.base.toNat + cu.size.toNat ≤ m.size → cu.cursor.toNat ≤ 8 * cu.size.toNat →
    ∃ b', desHeader m l (b, cu) = .ok (b', cu.after (l.map fun e => e.2.1)) ∧
      layoutStream b' l = m.stream cu.bitPos (fitBits (l.map fun e => e.2.1) cu.room) ++
        (layoutStream b l).drop (fitBits (l.map fun e => e.2.1) cu.room)
  | [], b, cu, _, _, hb, _, _ =>
    ⟨b, by simp [desHeader, after_nil hb], by simp [layoutStream, fitBits, Memory.stream]⟩
  | (fld, W, U) :: l, b, cu, hn, hd, hb, hw, hc => by
    obtain ⟨hfl, hn'⟩ : fld ∉ l.map Prod.fst ∧ (l.map Prod.fst).Nodup := by simpa using hn
    have hdf := hd (fld, W, U) (by simp)
    simp only at hdf
    simp only [List.map_cons]
    by_cases hr : cu.room < W
    · refine ⟨b, desHeader_cons.2 ⟨none, cu.setBad, ?_, ?_⟩, ?_⟩
      · have hv : violates cu W U = true := by
          simp [violates]; unfold Cursor.room at hr; right; omega
        have h0 : W ≠ 0 := by omega
        simp only [getProc, hb, h0, hv, Bool.false_eq_true, if_false, if_true]
      · rw [after_short hr]; exact desHeader_bad l b rfl
      · simp [fitBits, hr, Memory.stream]
    · have hr' : cu.cursor.toNat + W ≤ 8 * cu.size.toNat := by unfold Cursor.room at hr; omega
      have hlt := room_lt hr'
      have hmc := moved_cursor cu hlt
      by_cases h0 : W = 0
      · obtain ⟨b', h2, hs2⟩ := desHeader_fits (m := m) (l := l) (b := b) (cu := cu)
          hn' (fun g hg => hd g (by simp [hg])) hb hw hc
        refine ⟨b', desHeader_cons.2 ⟨none, cu, by simp [getProc, h0], ?_⟩, ?_⟩
        · rw [h2, ← after_cons hr', h0, moved_zero]
        · simp only [layoutStream, List.flatMap_cons, h0, fitBits, wordStream] at hs2 ⊢
          simpa using hs2
      · have h1 := getProc_reads (le := false) hb h0 hdf.1 hw hr'
        have hW : (streamValue (m.stream cu.bitPos W) false).toNat < 2 ^ registerWidth fld := by
          refine Nat.lt_of_lt_of_le (lt_of_bits (W := W) fun i hi => ?_)
            (Nat.pow_le_pow_right (by decide) hdf.2.2)
          exact streamValue_bit (by simp; omega) (by simp) i (by simpa using hi)
        obtain ⟨b', h2, hs2⟩ := desHeader_fits (m := m) (l := l)
          (b := b.put fld (streamValue (m.stream cu.bitPos W) false))
          (cu := cu.moved W) hn' (fun g hg => hd g (by simp [hg])) hb hw (by rw [hmc]; exact hr')
        refine ⟨b', desHeader_cons.2 ⟨_, _, h1, ?_⟩, ?_⟩
        · rw [h2, after_cons hr']
        · have hkeep := (desHeader_keeps (cu := cu.moved W) hw h2).2.2.2.1 fld hfl
          have hval : b'.get fld = streamValue (m.stream cu.bitPos W) false := by
            rw [hkeep, put_get_same _ _ _ hW]
          have hold : layoutStream (b.put fld (streamValue (m.stream cu.bitPos W) false)) l
              = layoutStream b l :=
            layoutStream_congr fun e he => put_get_other _ _ (by
              rintro rfl; exact hfl (List.mem_map.2 ⟨e, he, rfl⟩))
          rw [hold, moved_bitPos cu hlt, moved_room hr'] at hs2
          have hws := wordStream_streamValue (bits := m.stream cu.bitPos W) (le := false)
            (by simp; omega) (by simp)
          rw [stream_length] at hws
          simp only [layoutStream, List.flatMap_cons] at hs2 ⊢
          rw [hval, hws, hs2]
          simp only [fitBits, hr, if_false, stream_add, List.append_assoc]
          congr 2
          rw [List.drop_append]
          simp [List.drop_of_length_le]

/-! ### The primary header as a stream -/

theorem stream_of_append (n k : Nat) (x : BitVec n) (y : BitVec k) :
    ((List.range (n + k)).map fun i => (x ++ y).getLsbD (n + k - 1 - i)) =
      ((List.range n).map fun i => x.getLsbD (n - 1 - i)) ++
        ((List.range k).map fun i => y.getLsbD (k - 1 - i)) := by
  rw [List.range_add, List.map_append]
  congr 1
  · apply List.map_congr_left
    intro i hi
    have hi : i < n := by simpa using hi
    rw [BitVec.getLsbD_append, if_neg (by omega)]
    congr 1; omega
  · rw [List.map_map]
    apply List.map_congr_left
    intro i hi
    have hi : i < k := by simpa using hi
    simp only [Function.comp_apply, BitVec.getLsbD_append]
    rw [if_pos (by omega)]
    congr 1; omega

theorem wordStream_setWidth {n : Nat} (x : BitVec n) (h : n ≤ 64) :
    wordStream (x.setWidth 64) n false = (List.range n).map fun i => x.getLsbD (n - 1 - i) := by
  simp only [wordStream]
  apply List.map_congr_left
  intro i hi
  have hi : i < n := by simpa using hi
  simp only [Bool.false_eq_true, if_false, BitVec.getLsbD_setWidth]
  simp [show n - 1 - i < 64 by omega]

theorem primaryStream_eq (b : Bank) : primaryStream b = layoutStream b phLayout := by
  have h := stream_of_append
  simp only [layoutStream, phLayout, List.flatMap_cons, List.flatMap_nil, List.append_nil, Bank.get]
  rw [wordStream_setWidth b.version (by decide), wordStream_setWidth b.type (by decide),
    wordStream_setWidth b.shf (by decide), wordStream_setWidth b.apid (by decide),
    wordStream_setWidth b.seqflags (by decide), wordStream_setWidth b.seqcount (by decide),
    wordStream_setWidth b.length (by decide)]
  unfold primaryStream pack48
  rw [h 32 16, h 18 14, h 16 2, h 5 11, h 4 1, h 3 1]
  simp only [List.append_assoc]

@[simp] theorem primaryStream_length (b : Bank) : (primaryStream b).length = 48 := by
  simp [primaryStream]

theorem putBitsOf_ph (b : Bank) : putBitsOf (phLayout.map (headerPut b)) = primaryStream b := by
  rw [primaryStream_eq]
  simp [putBitsOf, layoutStream, headerPut, phLayout]

theorem secondaryStream_eq (b : Bank) : secondaryStream b = layoutStream b (shLayout b) := by
  simp [secondaryStream, layoutStream, shLayout, hdrWidth, Bank.get]

end Sys2Proof.Machine
end

