-- ==== Sys2Proof/Laws/Headers.lean ====
section
/-! SUPPORT. A packet's headers in MEM (R161, R165): what storing and loading them can do, said once. -/

namespace Sys2Proof.Machine

theorem beValue_getLsbD (m : Memory) : ∀ (n a : Nat) (acc : Word) (i : Nat), i < 64 →
    (beValue m a acc n).getLsbD i =
      if i < 8 * n then (m.octet (a + (n - 1 - i / 8))).getLsbD (i % 8) else acc.getLsbD (i - 8 * n)
  | 0, a, acc, i, _ => by simp [beValue]
  | n + 1, a, acc, i, hi => by
    rw [beValue, beValue_getLsbD m n (a + 1) _ i hi]
    by_cases h1 : i < 8 * n
    · rw [if_pos h1, if_pos (by omega)]
      congr 2
      omega
    · rw [if_neg h1, BitVec.getLsbD_or, BitVec.getLsbD_shiftLeft, BitVec.getLsbD_setWidth]
      by_cases h2 : i < 8 * (n + 1)
      · rw [if_pos h2, show n + 1 - 1 - i / 8 = 0 by omega, show i % 8 = i - 8 * n by omega]
        simp [show i - 8 * n < 64 by omega, show i - 8 * n < 8 by omega]
      · rw [if_neg h2]
        rw [BitVec.getLsbD_of_ge (m.octet a) (i - 8 * n) (by omega)]
        simp [show i - 8 * n < 64 by omega, show ¬ i - 8 * n < 8 by omega,
          show i - 8 * n - 8 = i - 8 * (n + 1) by omega]

/-- The big-endian value of octets has them as its octets. -/
theorem beValue_octet {m : Memory} {n a : Nat} (hn : n ≤ 8) (k : Nat) (hk : k < n) :
    (beValue m a 0 n >>> (8 * (n - 1 - k))).setWidth 8 = m.octet (a + k) := by
  apply BitVec.eq_of_getLsbD_eq
  intro i hi
  rw [BitVec.getLsbD_setWidth, BitVec.getLsbD_ushiftRight, beValue_getLsbD _ _ _ _ _ (by omega),
    if_pos (by omega), show n - 1 - (8 * (n - 1 - k) + i) / 8 = k by omega,
    show (8 * (n - 1 - k) + i) % 8 = i by omega]
  simp [hi]

theorem beValue_lt {m : Memory} {n a : Nat} : (beValue m a 0 n).toNat < 2 ^ (8 * n) := by
  refine lt_of_bits fun i hi => ?_
  by_cases h : i < 64
  · rw [beValue_getLsbD _ _ _ _ _ h, if_neg (by omega)]; simp
  · exact BitVec.getLsbD_of_ge _ _ (by omega)

/-- A value is its octets (R165). -/
theorem eq_of_octets {v v' : Word} {n : Nat} (h : v.toNat < 2 ^ (8 * n))
    (h' : v'.toNat < 2 ^ (8 * n))
    (ho : ∀ k, k < n → (v >>> (8 * (n - 1 - k))).setWidth 8 = (v' >>> (8 * (n - 1 - k))).setWidth 8) :
    v = v' := by
  apply BitVec.eq_of_getLsbD_eq
  intro i hi
  by_cases hin : i < 8 * n
  · have := congrArg (fun o => BitVec.getLsbD o (i % 8)) (ho (n - 1 - i / 8) (by omega))
    simp only [BitVec.getLsbD_setWidth, BitVec.getLsbD_ushiftRight,
      show 8 * (n - 1 - (n - 1 - i / 8)) + i % 8 = i by omega] at this
    simpa [show i % 8 < 8 by omega] using this
  · rw [bits_of_lt h i (by omega), bits_of_lt h' i (by omega)]

theorem headerOctets_length (b : Bank) : (headerOctets b).length = 6 + b.secSize := by
  simp [headerOctets, Bank.secSize]

theorem packOctet (b : Bank) {k : Nat} (hk : k < 6) :
    (((pack48 b).setWidth 64) >>> (8 * (6 - 1 - k))).setWidth 8 = (pack48 b).extractLsb' (40 - 8 * k) 8 := by
  apply BitVec.eq_of_getLsbD_eq
  intro i hi
  simp only [BitVec.getLsbD_setWidth, BitVec.getLsbD_ushiftRight, BitVec.getLsbD_extractLsb']
  rw [show 8 * (6 - 1 - k) + i = 40 - 8 * k + i by omega]
  simp [show 40 - 8 * k + i < 64 by omega]

theorem storedOctets.headerAt {m m' : Memory} {b : Bank} {base : Nat}
    (h : storedOctets m m' base (headerOctets b)) : headerAt m' b base where
  primary k hk := by
    rw [h.inside k (by rw [headerOctets_length]; omega)]
    simp only [headerOctets]
    rw [List.getElem_append_left (by simp; omega), List.getElem_append_left (by simpa using hk),
      octetsBE_get _ _ _ hk, packOctet b hk]
  tc k hk := by
    rw [Nat.add_assoc, h.inside (6 + k) (by rw [headerOctets_length]; unfold Bank.secSize; omega)]
    simp only [headerOctets]
    rw [List.getElem_append_left (by simp; omega), List.getElem_append_right (by simp)]
    simp only [octetsBE_length, Nat.add_sub_cancel_left]
    rw [octetsBE_get _ _ _ hk]
  anc k hk := by
    rw [show base + 6 + b.tcb.toNat + k = base + (6 + b.tcb.toNat + k) by omega,
      h.inside (6 + b.tcb.toNat + k) (by rw [headerOctets_length]; unfold Bank.secSize; omega)]
    simp only [headerOctets]
    rw [List.getElem_append_right (by simp)]
    simp only [List.length_append, octetsBE_length, Nat.add_sub_cancel_left]
    rw [octetsBE_get _ _ _ hk]

/-- `hdr_store` (R165): the header octets and nothing else. -/
theorem hdrStore_spec {b : Bank} {base : Nat} {m : Memory} (h : base + 6 + b.secSize ≤ m.size) :
    ∃ m', hdrStore b base m = .ok m' ∧ headerAt m' b base ∧ m'.size = m.size ∧
      (∀ a, a < base ∨ base + 6 + b.secSize ≤ a → m'.octet a = m.octet a) ∧ (m.wf → m'.wf) := by
  obtain ⟨m', hm, hs⟩ := memWriteList_spec (headerOctets b) m base (by rw [headerOctets_length]; omega)
  exact ⟨m', hm, hs.headerAt, hs.size,
    fun a ha => hs.outside a (by rw [headerOctets_length]; omega), hs.wf⟩

theorem pack_unpack48 (b : Bank) (p : BitVec 48) : pack48 (unpack48 b p) = p := by
  apply BitVec.eq_of_getLsbD_eq
  intro i hi
  simp only [pack48, unpack48, BitVec.getLsbD_append, BitVec.getLsbD_extractLsb']
  grind

theorem unpack_pack48 (b : Bank) : unpack48 b (pack48 b) = b := by
  cases b
  simp only [unpack48, pack48, Bank.mk.injEq]
  refine ⟨?_, ?_, ?_, ?_, ?_, ?_, ?_, trivial, trivial, trivial, trivial⟩ <;>
    apply BitVec.eq_of_getLsbD_eq <;> intro i hi <;>
    simp only [BitVec.getLsbD_append, BitVec.getLsbD_extractLsb'] <;> grind

/-- The seven registers of a primary header are what `pack48` says (R161). -/
theorem pack48_inj {b b' : Bank} (h : pack48 b' = pack48 b) (ht : b'.tcb = b.tcb) (ha : b'.ancb = b.ancb)
    (htc : b'.tc = b.tc) (hanc : b'.anc = b.anc) : b' = b := by
  have h1 := unpack_pack48 b'
  have h2 := unpack_pack48 b
  rw [h] at h1
  refine h1.symm.trans (Eq.trans ?_ h2)
  simp only [unpack48, ht, ha, htc, hanc]

/-- `hdr_load` (R165). -/
theorem hdrLoad_spec {b : Bank} {base : Nat} {m : Memory} (h : base + 6 + b.secSize ≤ m.size)
    (ht : b.tcb.toNat ≤ 8) (ha : b.ancb.toNat ≤ 8) :
    ∃ b', hdrLoad b base m = .ok b' ∧ b'.tcb = b.tcb ∧ b'.ancb = b.ancb ∧ headerAt m b' base ∧
      bankOk b' := by
  unfold Bank.secSize at h
  refine ⟨{ unpack48 b ((beValue m base 0 6).setWidth 48) with
      tc := beValue m (base + 6) 0 b.tcb.toNat
      anc := beValue m (base + 6 + b.tcb.toNat) 0 b.ancb.toNat }, ?_, ?_⟩
  · unfold hdrLoad
    rw [memReadBE_spec _ _ _ _ (by omega), memReadBE_spec _ _ _ _ (by omega),
      memReadBE_spec _ _ _ _ (by omega)]
    rfl
  · refine ⟨rfl, rfl, ⟨fun k hk => ?_, fun k hk => (beValue_octet ht k hk).symm,
      fun k hk => (beValue_octet ha k hk).symm⟩, ht, ha, beValue_lt, beValue_lt⟩
    have hp : pack48 { unpack48 b ((beValue m base 0 6).setWidth 48) with
        tc := beValue m (base + 6) 0 b.tcb.toNat
        anc := beValue m (base + 6 + b.tcb.toNat) 0 b.ancb.toNat } = (beValue m base 0 6).setWidth 48 :=
      pack_unpack48 b _
    rw [hp, ← beValue_octet (n := 6) (by decide) k hk]
    apply BitVec.eq_of_getLsbD_eq
    intro i hi
    simp only [BitVec.getLsbD_setWidth, BitVec.getLsbD_ushiftRight, BitVec.getLsbD_extractLsb']
    rw [show 8 * (6 - 1 - k) + i = 40 - 8 * k + i by omega]
    simp [show 40 - 8 * k + i < 48 by omega]

/-- MEM holds one bank at a place (R237): two banks of the same widths whose headers both stand there are
one. -/
theorem headerAt.unique {m : Memory} {b b' : Bank} {base : Nat} (h : headerAt m b base)
    (h' : headerAt m b' base) (hb : bankOk b) (hb' : bankOk b') (ht : b'.tcb = b.tcb)
    (ha : b'.ancb = b.ancb) : b' = b := by
  refine pack48_inj ?_ ht ha ?_ ?_
  · apply BitVec.eq_of_getLsbD_eq
    intro i hi
    have := (h'.primary (5 - i / 8) (by omega)).symm.trans (h.primary (5 - i / 8) (by omega))
    have := congrArg (fun o => BitVec.getLsbD o (i % 8)) this
    simp only [BitVec.getLsbD_extractLsb', show 40 - 8 * (5 - i / 8) + i % 8 = i by omega] at this
    simpa [show i % 8 < 8 by omega] using this
  · refine eq_of_octets (n := b.tcb.toNat) (by rw [← ht]; exact hb'.2.2.1) hb.2.2.1 fun k hk => ?_
    rw [← h.tc k hk]
    have := h'.tc k (by rw [ht]; exact hk)
    rw [ht] at this
    exact this.symm
  · refine eq_of_octets (n := b.ancb.toNat) (by rw [← ha]; exact hb'.2.2.2) hb.2.2.2 fun k hk => ?_
    rw [← h.anc k hk]
    have := h'.anc k (by rw [ha]; exact hk)
    rw [ha, ht] at this
    exact this.symm

theorem headerAt.congr {m m' : Memory} {b : Bank} {base : Nat} (h : headerAt m b base)
    (ho : ∀ a, base ≤ a → a < base + 6 + b.secSize → m'.octet a = m.octet a) : headerAt m' b base where
  primary k hk := by rw [ho _ (by omega) (by omega)]; exact h.primary k hk
  tc k hk := by
    unfold Bank.secSize at ho
    rw [ho _ (by omega) (by omega)]; exact h.tc k hk
  anc k hk := by
    unfold Bank.secSize at ho
    rw [ho _ (by omega) (by omega)]; exact h.anc k hk

/-- The widths of a bank are not read from MEM (R163, R164). -/
theorem desHeader_widths {m : Memory} : ∀ {l : List (HdrField × Nat × Nat)} {bc bc' : Bank × Cursor},
    desHeader m l bc = .ok bc' → bc'.1.tcb = bc.1.tcb ∧ bc'.1.ancb = bc.1.ancb
  | [], bc, bc', h => by cases h; exact ⟨rfl, rfl⟩
  | (fld, W, U) :: l, bc, bc', h => by
    obtain ⟨r, cu, -, h2⟩ := desHeader_cons.1 h
    obtain ⟨h3, h4⟩ := desHeader_widths h2
    cases r with
    | none => exact ⟨h3, h4⟩
    | some v => exact ⟨h3.trans (put_tcb _ _ _), h4.trans (put_ancb _ _ _)⟩

/-- The widths of a bank are not read from MEM (R165). -/
theorem hdrLoad_widths {b b' : Bank} {base : Nat} {m : Memory} (h : hdrLoad b base m = .ok b') :
    b'.tcb = b.tcb ∧ b'.ancb = b.ancb := by
  unfold hdrLoad at h
  obtain ⟨_, -, h⟩ := bind_ok.1 h
  obtain ⟨_, -, h⟩ := bind_ok.1 h
  obtain ⟨_, -, h⟩ := bind_ok.1 h
  cases h
  exact ⟨rfl, rfl⟩

end Sys2Proof.Machine
end

