-- ==== Sys2Proof/Laws/Invariant.lean ====
section
/-! SUPPORT. What each way a command ends keeps of the invariants of the state (R24, R28, R31, R34 to R36,
R261). -/

namespace Sys2Proof.Machine

/-- R263: after a command that completes, `LAST` is OK and no bit of `ESR` is asked for. -/
theorem statusOk_of_last {s : State} (h : s.last = 0) : statusOk s :=
  ⟨.ok, h, by simp [statusBit]⟩

/-- R261, R263: the code and the bit that a command leaves agree. -/
theorem statusOk_record (st : Status) (s : State) : statusOk (recordStatus st s) := by
  refine ⟨st, rfl, ?_⟩
  simp only [recordStatus]
  have hor : ∀ x y : BitVec 4, (x ||| y) &&& y = y := by decide
  exact hor _ _

theorem inv_recordStatus {s : State} (st : Status) (h : s.Inv) : (recordStatus st s).Inv :=
  { memWf := h.memWf, memSize := h.memSize
    cursors := fun c => by cases c <;> first | exact h.cursors .aw | exact h.cursors .xr | exact h.cursors .g2 |
      exact h.cursors .g3
    banks := fun u => by cases u <;> first | exact h.banks .a | exact h.banks .x | exact h.banks .d
    asm := h.asm, idle := h.idle, descs := h.descs, values := h.values, count := h.count
    schema := h.schema, status := statusOk_record st s }

/-- A refused command keeps the invariants (R262). -/
theorem inv_refuse {s t : State} {st : Status} (h : s.Inv) (ht : refuse st s = .next t) : t.Inv := by
  cases ht
  exact inv_recordStatus st h

/-- A command that writes the stream through cursor `c` keeps the invariants (R24, R66). -/
theorem inv_writer {s : State} {c : CurSel} {m : Memory} {cu : Cursor} (h : s.Inv)
    (hw : wentOn (s.mem, s.cur c) (m, cu)) :
    ({ ({ s with mem := m } : State).setCur c cu with last := 0 } : State).Inv := by
  have hsz : m.size = s.mem.size := hw.size
  have hcu : cursorOk s.mem.size cu := hw.cursor.ok (h.cursors c)
  have hall : ∀ d, cursorOk s.mem.size ((({ s with mem := m } : State).setCur c cu).cur d) := by
    intro d
    rw [setCur_cur]
    split
    · exact hcu
    · cases d <;> first | exact h.cursors .aw | exact h.cursors .xr | exact h.cursors .g2 |
      exact h.cursors .g3
  refine { memWf := ?_, memSize := ?_, cursors := fun d => ?_, banks := fun u => ?_, asm := ?_, idle := ?_
           descs := ?_, values := ?_, count := ?_, schema := ?_, status := statusOk_of_last rfl }
  · simpa using hw.wf h.memWf
  · simpa [hsz] using h.memSize
  · have := hall d
    cases d <;> simpa [State.cur, hsz] using this
  · have := h.banks u
    cases c <;> cases u <;> exact this
  · have hasm := h.asm
    unfold asmOk at hasm ⊢
    have hb : c = .aw → cu.base = s.aw.base ∧ cu.size = s.aw.size := by
      rintro rfl; exact ⟨hw.cursor.base, hw.cursor.csize⟩
    cases c <;> simp only [State.setCur, hsz] <;> try exact hasm
    rw [(hb rfl).1, (hb rfl).2]
    exact hasm
  · simpa using h.idle
  · simpa using h.descs
  · simpa using h.values
  · simpa using h.count
  · cases c <;> exact h.schema

/-- A command that moves cursor `c` and writes no octet keeps the invariants. -/
theorem inv_reader {s : State} {c : CurSel} {cu : Cursor} (h : s.Inv) (hc : cursorOn (s.cur c) cu) :
    ({ s.setCur c cu with last := 0 } : State).Inv := by
  have hok : cursorOk s.mem.size cu := hc.ok (h.cursors c)
  have hall : ∀ d, cursorOk s.mem.size ((s.setCur c cu).cur d) := by
    intro d
    rw [setCur_cur]
    split
    · exact hok
    · exact h.cursors d
  refine { memWf := ?_, memSize := ?_, cursors := fun d => ?_, banks := fun u => ?_, asm := ?_, idle := ?_
           descs := ?_, values := ?_, count := ?_, schema := ?_, status := statusOk_of_last rfl }
  · simpa using h.memWf
  · simpa using h.memSize
  · have := hall d
    cases d <;> simpa [State.cur] using this
  · have := h.banks u
    cases c <;> cases u <;> exact this
  · have hasm := h.asm
    unfold asmOk at hasm ⊢
    have hb : c = .aw → cu.base = s.aw.base ∧ cu.size = s.aw.size := by
      rintro rfl; exact ⟨hc.base, hc.csize⟩
    cases c <;> simp only [State.setCur] <;> try exact hasm
    rw [(hb rfl).1, (hb rfl).2]
    exact hasm
  · simpa using h.idle
  · simpa using h.descs
  · simpa using h.values
  · simpa using h.count
  · cases c <;> exact h.schema

/-- A command that writes `DOUT` and nothing else keeps the invariants (R37). -/
theorem inv_dout {s : State} (v : Word) (h : s.Inv) : ({ s with dout := v, last := 0 } : State).Inv :=
  { memWf := h.memWf, memSize := h.memSize
    cursors := fun c => by cases c <;> first | exact h.cursors .aw | exact h.cursors .xr | exact h.cursors .g2 |
      exact h.cursors .g3
    banks := fun u => by cases u <;> first | exact h.banks .a | exact h.banks .x | exact h.banks .d
    asm := h.asm, idle := h.idle, descs := h.descs, values := h.values, count := h.count
    schema := h.schema, status := statusOk_of_last rfl }

/-- New values of a bank's registers, its widths kept, keep the invariants (R28, R31). -/
theorem inv_bank {s : State} {u : BankSel} {b : Bank} (h : s.Inv) (hb : bankOk b)
    (ht : b.tcb = (s.bank u).tcb) (ha : b.ancb = (s.bank u).ancb) : (s.setBank u b).Inv := by
  have hsec : b.secSize = (s.bank u).secSize := by simp [Bank.secSize, ht, ha]
  refine { memWf := ?_, memSize := ?_, cursors := fun d => ?_, banks := fun v => ?_, asm := ?_, idle := ?_
           descs := ?_, values := ?_, count := ?_, schema := ?_, status := ?_ }
  · simpa using h.memWf
  · simpa using h.memSize
  · simpa using h.cursors d
  · rw [setBank_bank]
    split
    · exact hb
    · exact h.banks v
  · have hasm := h.asm
    unfold asmOk at hasm ⊢
    cases u <;> simp only [State.setBank] <;> try exact hasm
    rw [hsec]; exact hasm
  · simpa using h.idle
  · simpa using h.descs
  · simpa using h.values
  · simpa using h.count
  · cases u <;> exact h.schema
  · have := h.status
    unfold statusOk at this ⊢
    simpa using this

/-- New values of fields that fit their widths keep the invariants (R35). -/
theorem inv_values {s : State} {fv : Vector Word 16} (h : s.Inv)
    (hv : ∀ f : Fin 16, fv[f].toNat < 2 ^ s.fd[f].w.toNat) : ({ s with fv := fv } : State).Inv :=
  { memWf := h.memWf, memSize := h.memSize
    cursors := fun c => by cases c <;> first | exact h.cursors .aw | exact h.cursors .xr | exact h.cursors .g2 |
      exact h.cursors .g3
    banks := fun u => by cases u <;> first | exact h.banks .a | exact h.banks .x | exact h.banks .d
    asm := h.asm, idle := h.idle, descs := h.descs, values := hv, count := h.count
    schema := h.schema, status := h.status }

end Sys2Proof.Machine
end

