-- ==== Sys2Proof/Laws/PerInstr.lean ====
section
/-! SUPPORT. Statements about every instruction, one lemma per constructor of `Instr`. -/

namespace Sys2Proof.Laws.EncodeMatchesTable

/-- R82, R86: the command word of `i` has a listed opcode and equals `op << 24` under the mask of its
format. -/
def Statement (i : Instr) : Prop :=
  ∃ fmt, formatOf (encodeFields i).op = some fmt ∧
    (encode i).1 &&& fmt.mask = ((encodeFields i).op ++ 0#24 : BitVec 32)

theorem of_unusedZero {i : Instr} (fmt : Format) (h : formatOf (encodeFields i).op = some fmt)
    (hz : fmt.unusedZero (encodeFields i) = true) : Statement i :=
  ⟨fmt, h, (unusedZero_iff fmt (encodeFields i)).1 hz⟩

theorem nop : Statement .nop := of_unusedZero .N rfl rfl

theorem sysEsr : Statement .sysEsr := of_unusedZero .N rfl rfl

theorem curAttach (c : CurSel) (win : Window) : Statement (.curAttach c win) := of_unusedZero .C rfl rfl

theorem curPut (sz : Size) (le : Bool) (w : BitVec 7) (c : CurSel) (v : Word) : Statement (.curPut sz le w c v) := of_unusedZero .P rfl rfl

theorem curGet (sz : Size) (le : Bool) (w : BitVec 7) (c : CurSel) : Statement (.curGet sz le w c) := of_unusedZero .P rfl rfl

theorem curAppend (dst src : CurSel) : Statement (.curAppend dst src) := of_unusedZero .CC rfl rfl

theorem curPos (c : CurSel) : Statement (.curPos c) := of_unusedZero .C rfl rfl

theorem curBytes (c : CurSel) : Statement (.curBytes c) := of_unusedZero .C rfl rfl

theorem curBad (c : CurSel) : Statement (.curBad c) := of_unusedZero .C rfl rfl

theorem curCap (c : CurSel) : Statement (.curCap c) := of_unusedZero .C rfl rfl

theorem fldCfg (sz : Size) (le : Bool) (w : BitVec 7) (f : Fin 16) : Statement (.fldCfg sz le w f) := of_unusedZero .FP rfl rfl

theorem fldNfld (n : Fin 17) : Statement (.fldNfld n) := of_unusedZero .F rfl rfl

theorem fldSet (f : Fin 16) (v : Word) : Statement (.fldSet f v) := of_unusedZero .F rfl rfl

theorem fldGet (f : Fin 16) : Statement (.fldGet f) := of_unusedZero .F rfl rfl

theorem fldInc (f : Fin 16) : Statement (.fldInc f) := of_unusedZero .F rfl rfl

theorem fldDec (f : Fin 16) : Statement (.fldDec f) := of_unusedZero .F rfl rfl

theorem fldGetbit (b : BitVec 7) (f : Fin 16) : Statement (.fldGetbit b f) := of_unusedZero .FB rfl rfl

theorem fldSetbit (b : BitVec 7) (f : Fin 16) (bit : Bool) : Statement (.fldSetbit b f bit) := of_unusedZero .FB rfl rfl

theorem fldSer (c : CurSel) (f : Fin 16) : Statement (.fldSer c f) := of_unusedZero .FC rfl rfl

theorem fldDes (c : CurSel) (f : Fin 16) : Statement (.fldDes c f) := of_unusedZero .FC rfl rfl

theorem fldWidth (f : Fin 16) : Statement (.fldWidth f) := of_unusedZero .F rfl rfl

theorem colSer (c : CurSel) : Statement (.colSer c) := of_unusedZero .C rfl rfl

theorem colDes (c : CurSel) : Statement (.colDes c) := of_unusedZero .C rfl rfl

theorem colWidth : Statement .colWidth := of_unusedZero .N rfl rfl

theorem hdrCfgsh (u : BankSel) (tcb ancb : BitVec 4) : Statement (.hdrCfgsh u tcb ancb) := of_unusedZero .UF rfl rfl

theorem hdrSet (u : BankSel) (fld : HdrField) (v : Word) : Statement (.hdrSet u fld v) := of_unusedZero .UF rfl rfl

theorem hdrGet (u : BankSel) (fld : HdrField) : Statement (.hdrGet u fld) := of_unusedZero .UF rfl rfl

theorem hdrLenoct (u : BankSel) : Statement (.hdrLenoct u) := of_unusedZero .U rfl rfl

theorem hdrSetlenoct (u : BankSel) (v : Word) : Statement (.hdrSetlenoct u v) := of_unusedZero .U rfl rfl

theorem hdrIsidle (u : BankSel) : Statement (.hdrIsidle u) := of_unusedZero .U rfl rfl

theorem hdrIsvalid (u : BankSel) : Statement (.hdrIsvalid u) := of_unusedZero .U rfl rfl

theorem phSer (u : BankSel) (c : CurSel) : Statement (.phSer u c) := of_unusedZero .UC rfl rfl

theorem phDes (u : BankSel) (c : CurSel) : Statement (.phDes u c) := of_unusedZero .UC rfl rfl

theorem shSer (u : BankSel) (c : CurSel) : Statement (.shSer u c) := of_unusedZero .UC rfl rfl

theorem shDes (u : BankSel) (c : CurSel) : Statement (.shDes u c) := of_unusedZero .UC rfl rfl

theorem asmBegin (win : Window) : Statement (.asmBegin win) := of_unusedZero .N rfl rfl

theorem asmBeginidle (win : Window) : Statement (.asmBeginidle win) := of_unusedZero .N rfl rfl

theorem asmCfgidle (sz : Size) (v : Word) : Statement (.asmCfgidle sz v) := of_unusedZero .S rfl rfl

theorem asmFinalize : Statement .asmFinalize := of_unusedZero .N rfl rfl

theorem asmSize : Statement .asmSize := of_unusedZero .N rfl rfl

theorem asmValid : Statement .asmValid := of_unusedZero .N rfl rfl

theorem extOpen (win : Window) : Statement (.extOpen win) := of_unusedZero .N rfl rfl

theorem disFrombuf (win : Window) : Statement (.disFrombuf win) := of_unusedZero .N rfl rfl

theorem disTobuf (win : Window) : Statement (.disTobuf win) := of_unusedZero .N rfl rfl

theorem disFinalize : Statement .disFinalize := of_unusedZero .N rfl rfl

theorem disSize : Statement .disSize := of_unusedZero .N rfl rfl

end Sys2Proof.Laws.EncodeMatchesTable
end

