-- ==== Sys2Proof/Tests/Slice0.lean ====
section
/-! SUPPORT. Small tests of the model. Words and values are those of the tables of spec/95, 96 and 97 (the
vector is named in each comment) or worked out by hand from the rule named; none is the model's own
answer. -/

namespace Sys2Proof.Tests

open Sys2Proof.Machine

/-! ### The checks of WellFormed -/

theorem test_wellFormed_accepts : (Instr.hdrCfgsh .a 8 8).wellFormed = true := by decide
theorem test_wellFormed_tcb : (Instr.hdrCfgsh .a 9 8).wellFormed = false := by decide
theorem test_wellFormed_ancb : (Instr.hdrCfgsh .a 8 9).wellFormed = false := by decide
theorem test_wellFormed_both : (Instr.hdrCfgsh .x 15 15).wellFormed = false := by decide

/-- V48: both ill-formed forms, and bank 3. -/
theorem test_decode_refuses_selectors (v : Word) :
    decode 0x30000109 v = .error .selectorRange ∧ decode 0x30000190 v = .error .selectorRange ∧
    decode 0x30000300 v = .error .selectorRange := ⟨rfl, rfl, rfl⟩

/-- V80. -/
theorem test_decode_refuses_opcodes (v : Word) :
    decode 0x00000000 v = .error .unlistedOpcode ∧ decode 0xFF000000 v = .error .unlistedOpcode ∧
    decode 0x18000000 v = .error .unlistedOpcode ∧ decode 0x2E000000 v = .error .unlistedOpcode ∧
    decode 0x46000000 v = .error .unlistedOpcode ∧ decode 0x64000000 v = .error .unlistedOpcode :=
  ⟨rfl, rfl, rfl, rfl, rfl, rfl⟩

/-- V80. -/
theorem test_decode_refuses_fields (v : Word) :
    decode 0x01000001 v = .error .unusedField ∧ decode 0x01400000 v = .error .unusedField ∧
    decode 0x10001001 v = .error .unusedField ∧ decode 0x26200000 v = .error .unusedField ∧
    decode 0x50000100 v = .error .unusedField ∧ decode 0x60004000 v = .error .unusedField :=
  ⟨rfl, rfl, rfl, rfl, rfl, rfl⟩

/-- V80: the largest legal selectors and the first illegal ones. -/
theorem test_decode_selector_bounds (v : Word) :
    decode 0x10002000 v = .error .selectorRange ∧ decode 0x14003800 v = .error .selectorRange ∧
    decode 0x21000010 v = .ok (.fldNfld 16) ∧ decode 0x21000011 v = .error .selectorRange ∧
    decode 0x2200000F v = .ok (.fldSet 15 v) ∧ decode 0x22000010 v = .error .selectorRange ∧
    decode 0x31000008 v = .ok (.hdrSet .a .anc v) ∧ decode 0x31000009 v = .error .selectorRange :=
  ⟨rfl, rfl, rfl, rfl, rfl, rfl, rfl, rfl⟩

/-! ### Decoding: every constructor, its word from the tables of the vectors -/

theorem test_decode_nop : decode 0x01000000 5 = .ok .nop := rfl
theorem test_decode_sysEsr : decode 0x02000000 0 = .ok .sysEsr := rfl
theorem test_decode_curAttach : decode 0x10001000 0x400001002 = .ok (.curAttach .g2 ⟨0x1002, 4⟩) := rfl
theorem test_decode_curPut : decode 0x11664800 0x1234 = .ok (.curPut .h true 25 .xr 0x1234) := rfl
theorem test_decode_curGet : decode 0x12C31000 0 = .ok (.curGet .d false 12 .g2) := rfl
theorem test_decode_curAppend : decode 0x13001A00 0 = .ok (.curAppend .g3 .g2) := rfl
theorem test_decode_curPos : decode 0x14000800 0 = .ok (.curPos .xr) := rfl
theorem test_decode_curBytes : decode 0x15001800 0 = .ok (.curBytes .g3) := rfl
theorem test_decode_curBad : decode 0x16000000 0 = .ok (.curBad .aw) := rfl
theorem test_decode_curCap : decode 0x17000800 0 = .ok (.curCap .xr) := rfl
theorem test_decode_fldCfg : decode 0x20860006 0 = .ok (.fldCfg .w false 24 6) := rfl
theorem test_decode_fldNfld : decode 0x21000008 0 = .ok (.fldNfld 8) := rfl
theorem test_decode_fldSet : decode 0x22000007 0x5A = .ok (.fldSet 7 0x5A) := rfl
theorem test_decode_fldGet : decode 0x23000006 0 = .ok (.fldGet 6) := rfl
theorem test_decode_fldInc : decode 0x24000001 0 = .ok (.fldInc 1) := rfl
theorem test_decode_fldDec : decode 0x25000002 0 = .ok (.fldDec 2) := rfl
theorem test_decode_fldGetbit : decode 0x26010001 0 = .ok (.fldGetbit 4 1) := rfl
theorem test_decode_fldSetbit : decode 0x2700C001 0xFE = .ok (.fldSetbit 3 1 false) := rfl
theorem test_decode_fldSer : decode 0x28001006 0 = .ok (.fldSer .g2 6) := rfl
theorem test_decode_fldDes : decode 0x29001806 0 = .ok (.fldDes .g3 6) := rfl
theorem test_decode_fldWidth : decode 0x2A000002 0 = .ok (.fldWidth 2) := rfl
theorem test_decode_colSer : decode 0x2B001000 0 = .ok (.colSer .g2) := rfl
theorem test_decode_colDes : decode 0x2C001800 0 = .ok (.colDes .g3) := rfl
theorem test_decode_colWidth : decode 0x2D000000 0 = .ok .colWidth := rfl
theorem test_decode_hdrCfgsh : decode 0x30000212 0 = .ok (.hdrCfgsh .d 2 1) := rfl
theorem test_decode_hdrSet : decode 0x31000107 9 = .ok (.hdrSet .x .tc 9) := rfl
theorem test_decode_hdrGet : decode 0x32000204 0 = .ok (.hdrGet .d .seqflags) := rfl
theorem test_decode_hdrLenoct : decode 0x33000100 0 = .ok (.hdrLenoct .x) := rfl
theorem test_decode_hdrSetlenoct : decode 0x34000100 0x10 = .ok (.hdrSetlenoct .x 0x10) := rfl
theorem test_decode_hdrIsidle : decode 0x35000200 0 = .ok (.hdrIsidle .d) := rfl
theorem test_decode_hdrIsvalid : decode 0x36000100 0 = .ok (.hdrIsvalid .x) := rfl
theorem test_decode_phSer : decode 0x37001A00 0 = .ok (.phSer .d .g3) := rfl
theorem test_decode_phDes : decode 0x38001200 0 = .ok (.phDes .d .g2) := rfl
theorem test_decode_shSer : decode 0x39001100 0 = .ok (.shSer .x .g2) := rfl
theorem test_decode_shDes : decode 0x3A001900 0 = .ok (.shDes .x .g3) := rfl
theorem test_decode_asmBegin : decode 0x40000000 0x1600000200 = .ok (.asmBegin ⟨0x200, 22⟩) := rfl
theorem test_decode_asmBeginidle : decode 0x41000000 0x10300000400 = .ok (.asmBeginidle ⟨0x400, 259⟩) := rfl
theorem test_decode_asmCfgidle : decode 0x42800000 0xA1B2C3D4 = .ok (.asmCfgidle .w 0xA1B2C3D4) := rfl
theorem test_decode_asmFinalize : decode 0x43000000 0 = .ok .asmFinalize := rfl
theorem test_decode_asmSize : decode 0x44000000 0 = .ok .asmSize := rfl
theorem test_decode_asmValid : decode 0x45000000 0 = .ok .asmValid := rfl
theorem test_decode_extOpen : decode 0x50000000 0x1600000200 = .ok (.extOpen ⟨0x200, 22⟩) := rfl
theorem test_decode_disFrombuf : decode 0x60000000 0x1300000800 = .ok (.disFrombuf ⟨0x800, 19⟩) := rfl
theorem test_decode_disTobuf : decode 0x61000000 0x1300000900 = .ok (.disTobuf ⟨0x900, 19⟩) := rfl
theorem test_decode_disFinalize : decode 0x62000000 0 = .ok .disFinalize := rfl
theorem test_decode_disSize : decode 0x63000000 0 = .ok .disSize := rfl

/-- One word of each family, field by field as R81 lays it out: op, sz, le, w, c, s, idx. -/
theorem test_decode_bits (v : Word) :
    decode (0x11#8 ++ 0b11#2 ++ 1#1 ++ 64#7 ++ 2#3 ++ 0#3 ++ 0#8) v = .ok (.curPut .d true 64 .g2 v) ∧
    decode (0x27#8 ++ 0b00#2 ++ 0#1 ++ 5#7 ++ 0#3 ++ 0#3 ++ 3#8) v = .ok (.fldSetbit 5 3 (v.getLsbD 0)) ∧
    decode (0x30#8 ++ 0b00#2 ++ 0#1 ++ 0#7 ++ 0#3 ++ 2#3 ++ 0x12#8) v = .ok (.hdrCfgsh .d 2 1) ∧
    decode (0x37#8 ++ 0b00#2 ++ 0#1 ++ 0#7 ++ 3#3 ++ 2#3 ++ 0#8) v = .ok (.phSer .d .g3) ∧
    decode (0x42#8 ++ 0b10#2 ++ 0#1 ++ 0#7 ++ 0#3 ++ 0#3 ++ 0#8) v = .ok (.asmCfgidle .w v) ∧
    decode (0x50#8 ++ 0#24) 0x0000000600001000 = .ok (.extOpen ⟨0x1000, 6⟩) ∧
    decode (0x61#8 ++ 0#24) 0x0000001300000800 = .ok (.disTobuf ⟨0x800, 19⟩) ∧
    decode (0x02#8 ++ 0#24) v = .ok .sysEsr := ⟨rfl, rfl, rfl, rfl, rfl, rfl, rfl, rfl⟩

/-- R91: encoding writes the worked words. -/
theorem test_encode :
    encode .nop = (0x01000000, 0) ∧
    encode (.curPut .b false 8 .aw 0xAB) = (0x11020000, 0xAB) ∧
    encode (.curAppend .aw .g2) = (0x13000200, 0) ∧
    encode (.hdrCfgsh .a 0 4) = (0x30000040, 0) ∧
    encode (.fldSetbit 5 3 true) = (0x27014003, 1) ∧
    encode (.asmBegin ⟨0x100, 7⟩) = (0x40000000, 0x700000100) := by decide

/-- R80, R83: the row of `FLD.SETBIT`, `cw` in bits 31..0 and `arg` above it; then cut to 32 bits. -/
theorem test_decodeTableWord :
    decodeTableWord 96 (0x27014003 + 2 ^ 32) = some (.fldSetbit 5 3 true) ∧
    decodeTableWord 32 (0x27014003 + 2 ^ 32) = some (.fldSetbit 5 3 false) ∧
    decodeTableWord 32 0 = none := by decide

/-! ### One step on a small state -/

/-- The host presents one command; the state after it, if there is one. -/
def send (cw : CmdWord) (arg : Word) (s : State) : Option State :=
  match step { s with input := [.command cw arg] } with
  | .next t => some t
  | .fault _ => none
  | .refused _ => none

/-- Status and `DOUT` after one command. -/
def reply (cw : CmdWord) (arg : Word) (s : State) : Option (Nat × Nat) :=
  (send cw arg s).map fun t => (t.last.toNat, t.dout.toNat)

/-- After reset, over an unwritten MEM of the size that the spec's vectors take. -/
def start : State := { State.reset with mem := { size := 0x20000, cells := [] } }

/-- The memory whose octets from `0x1000` on are these. -/
def memOf (bs : List Byte) : Memory :=
  { size := 0x20000, cells := bs.zipIdx.map fun p => (0x1000 + p.2, p.1) }

/-- The `n` octets from `0x1000` on. -/
def octets (n : Nat) (t : State) : List Byte := (List.range n).map fun k => t.mem.octet (0x1000 + k)

/-- A good cursor at `0x1000`. -/
def at1000 (size cursor : Nat) : Cursor :=
  { base := 0x1000, size := BitVec.ofNat 32 size, cursor := BitVec.ofNat 35 cursor, bad := false }

/-- After reset, `G2` at `0x1000` over these octets. -/
def withG2 (bs : List Byte) (cursor : Nat) : State :=
  { start with mem := memOf bs, g2 := at1000 bs.length cursor }

/-- After reset, field 1 of this shape and value. -/
def withField (w : BitVec 7) (sz : Size) (v : Word) : State :=
  { start with fd := start.fd.set 1 { w := w, sz := sz, le := false }, fv := start.fv.set 1 v }

/-- V82, V81. -/
theorem test_nop : reply 0x01000000 9 { start with dout := 0xA5, last := 3 } = some (0, 0xA5) := by decide
theorem test_sysEsr : reply 0x02000000 0 { start with esr := 0xE, last := 2 } = some (0, 0x2E) := by decide
/-- V14: the last window inside MEM, and the first one outside. -/
theorem test_curAttach : (send 0x10001000 0x2000000000000 start).map State.g2 =
    some { base := 0, size := 0x20000, cursor := 0, bad := false } := by decide
theorem test_curAttach_range : reply 0x10001000 0x100020000 start = some (2, 0) := by decide
/-- V1. -/
theorem test_curPut : (send 0x1142D000 0x7FF (withG2 [0xA0, 0xFF] 3)).map
    (fun t => (octets 2 t, t.g2)) = some ([0xBF, 0xFC], at1000 2 14) := by decide
/-- V8. -/
theorem test_curPut_le : (send 0x11641000 0x1234 (withG2 [0xF0, 0xFF, 0xFF] 4)).map (octets 3) =
    some [0xF3, 0x41, 0x20] := by decide
/-- V12. -/
theorem test_curGet : (send 0x12C31000 0 (withG2 [0x12, 0x34, 0x56, 0x78] 0)).map
    (fun t => (t.dout, t.g2)) = some (0x123, at1000 4 12) := by decide
/-- V7. -/
theorem test_curGet_le : reply 0x12A61000 0 (withG2 [0xEF, 0xCD, 0xAB] 0) = some (0, 0xABCDEF) := by decide
/-- P6: two octets fit, the third does not. -/
theorem test_curAppend : (send 0x13001A00 0 { withG2 [0xAB, 0xC1, 0x23, 0x45, 0xF0, 0, 0] 32 with
      g3 := { base := 0x1004, size := 3, cursor := 4, bad := false } }).map
    (fun t => (octets 7 t, t.g3)) = some ([0xAB, 0xC1, 0x23, 0x45, 0xFA, 0xBC, 0x10],
      { base := 0x1004, size := 3, cursor := 20, bad := true }) := by decide
/-- V16: a self-append. -/
theorem test_curAppend_self : (send 0x13001200 0 (withG2 [0xEE, 0xFF] 8)).map
    (fun t => (octets 2 t, t.g2, t.last)) =
      some ([0xEE, 0xFF], { at1000 2 8 with bad := true }, 0) := by decide
/-- V1, P6, V6, V6b. -/
theorem test_curPos : reply 0x14001000 0 (withG2 [0xBF, 0xFC] 14) = some (0, 0xE) := by decide
theorem test_curBytes : reply 0x15001000 0 (withG2 [0, 0, 0, 0, 0] 36) = some (0, 5) := by decide
theorem test_curBad : reply 0x16001000 0 { start with g2 := { at1000 1 5 with bad := true } } =
    some (0, 1) := by decide
theorem test_curCap : reply 0x17001000 0 (withG2 [0xFD] 8) = some (0, 1) := by decide
/-- V20, V24. -/
theorem test_fldCfg : (send 0x20010001 0 (withField 4 .b 0xA)).map (fun t => (t.fd[1], t.fv[1])) =
    some ({ w := 4, sz := .b, le := false }, 0) := by decide
theorem test_fldCfg_shape : reply 0x20630002 0 start = some (3, 0) := by decide
/-- R133: field 0 is not configured; with no field the schema is empty. -/
theorem test_fldNfld : reply 0x21000001 0 (withField 4 .b 0) = some (3, 0) := by decide
theorem test_fldNfld_zero : (send 0x21000000 0 { start with nfld := 1 }).map State.nfld = some 0 := by
  decide
/-- V21, V22. -/
theorem test_fldSet : (send 0x22000001 0x1F (withField 4 .b 0)).map (fun t => t.fv[1]) = some 0xF := by decide
theorem test_fldGet : reply 0x23000001 0 (withField 4 .b 0xB) = some (0, 0xB) := by decide
theorem test_fldInc : (send 0x24000001 0 (withField 4 .b 0xF)).map (fun t => t.fv[1]) = some 0 := by decide
theorem test_fldInc_64 : (send 0x24000001 0 (withField 64 .d 0xFFFFFFFFFFFFFFFF)).map (fun t => t.fv[1]) =
    some 0 := by decide
theorem test_fldDec : (send 0x25000001 0 (withField 4 .b 0)).map (fun t => t.fv[1]) = some 0xF := by decide
theorem test_fldDec_64 : (send 0x25000001 0 (withField 64 .d 0)).map (fun t => t.fv[1]) =
    some 0xFFFFFFFFFFFFFFFF := by decide
/-- V23. -/
theorem test_fldGetbit : reply 0x26004001 0 (withField 4 .b 0xA) = some (0, 1) := by decide
theorem test_fldGetbit_index : reply 0x26010001 0 (withField 4 .b 0xA) = some (1, 0) := by decide
theorem test_fldSetbit : (send 0x2700C001 0 (withField 4 .b 0xB)).map (fun t => t.fv[1]) = some 3 := by decide
theorem test_fldSetbit_arg : (send 0x27008001 0xFFFFFFFFFFFFFFFE (withField 4 .b 3)).map (fun t => t.fv[1]) =
    some 3 := by decide
/-- V25: a 24-bit field. -/
theorem test_fldSer : (send 0x28001001 0 { withField 24 .w 0xABCDEF with
      mem := memOf [0xFF, 0xFF, 0xFF, 0xFF], g2 := at1000 4 0 }).map (fun t => (octets 4 t, t.g2)) =
    some ([0xAB, 0xCD, 0xEF, 0xFF], at1000 4 24) := by decide
theorem test_fldDes : (send 0x29001001 0 { withField 24 .w 0 with
      mem := memOf [0xAB, 0xCD, 0xEF, 0xFF], g2 := at1000 4 0 }).map (fun t => t.fv[1]) =
    some 0xABCDEF := by decide
/-- V25: the second get does not fit; the field keeps its value. -/
theorem test_fldDes_overrun : (send 0x29001001 0 { withField 24 .w 0x111111 with
      mem := memOf [0xAB, 0xCD, 0xEF, 0xFF], g2 := at1000 4 24 }).map (fun t => (t.fv[1], t.g2.bad)) =
    some (0x111111, true) := by decide
/-- V20. -/
theorem test_fldWidth : reply 0x2A000001 0 (withField 16 .h 0) = some (0, 16) := by decide
theorem test_fldWidth_unconfigured : reply 0x2A000000 0 { start with dout := 7 } = some (0, 0) := by decide

/-- The fields of P5's octet 14, `1010` and then `1 0 1 1`, as a schema of two. -/
def withSchema : State :=
  { start with
    fd := (start.fd.set 0 { w := 4, sz := .b, le := false }).set 1 { w := 4, sz := .b, le := false }
    fv := (start.fv.set 0 0xA).set 1 0xB
    nfld := 2, mem := memOf [0xFF, 0xFF], g2 := at1000 2 0 }

/-- P5: octet 14. -/
theorem test_colSer : (send 0x2B001000 0 withSchema).map (fun t => (octets 2 t, t.g2)) =
    some ([0xAB, 0xFF], at1000 2 8) := by decide
theorem test_colDes : (send 0x2C001000 0 { withSchema with
      mem := memOf [0xAB, 0xFF], fv := start.fv }).map (fun t => (t.fv[0], t.fv[1])) = some (0xA, 0xB) := by decide
theorem test_colWidth : reply 0x2D000000 0 withSchema = some (0, 8) := by decide

/-- After reset, bank `D` these registers. -/
def withD (b : Bank) : State := { start with bankD := b }

/-- V49: bank A's `HDR.CFGSH` ends the packet in progress. -/
theorem test_hdrCfgsh : (send 0x30000004 0 { start with
      asm := { base := 0x1000, size := 16, active := true }, aw := at1000 10 8
      bankA := { Bank.zero with apid := 5 } }).map (fun t => (t.bankA, t.asm, t.aw)) =
    some ({ Bank.zero with tcb := 4 }, { base := 0, size := 0, active := false },
      { base := 0, size := 0, cursor := 0, bad := false }) := by decide
/-- V48. -/
theorem test_hdrCfgsh_range : reply 0x30000190 0 start = some (1, 0) := by decide
/-- V42, V48. -/
theorem test_hdrSet : (send 0x31000203 0x1802 (withD Bank.zero)).map State.bankD =
    some { Bank.zero with apid := 2 } := by decide
theorem test_hdrSet_tc : (send 0x31000207 0xFF1234 (withD { Bank.zero with tcb := 2 })).map State.bankD =
    some { Bank.zero with tcb := 2, tc := 0x1234 } := by decide
/-- V42. -/
theorem test_hdrGet : reply 0x32000206 0 (withD { Bank.zero with length := 0x2345 }) = some (0, 0x2345) := by
  decide
/-- V40, V43. -/
theorem test_hdrLenoct : reply 0x33000200 0 (withD { Bank.zero with length := 0xFFFF }) = some (0, 0x10000) := by
  decide
theorem test_hdrSetlenoct : (send 0x34000200 0x10001 (withD { Bank.zero with length := 7 })).map
    (fun t => t.bankD.length) = some 0 := by decide
theorem test_hdrSetlenoct_zero : reply 0x34000200 0 start = some (1, 0) := by decide
/-- V44. -/
theorem test_hdrIsidle : reply 0x35000200 0 (withD { Bank.zero with apid := 0x7FE }) = some (0, 0) := by decide
theorem test_hdrIsvalid : reply 0x36000200 0 (withD { Bank.zero with apid := 0x7FF, shf := 1 }) = some (0, 0) := by
  decide
theorem test_hdrIsvalid_idle : reply 0x36000200 0 (withD { Bank.zero with apid := 0x7FF }) = some (0, 1) := by
  decide
/-- V45: the length does not fit. -/
theorem test_phSer : (send 0x37001200 0 { withG2 [0xFF, 0xFF, 0xFF, 0xFF, 0xFF] 0 with
      bankD := { Bank.zero with apid := 2, seqflags := 3, length := 0xBEEF } }).map
    (fun t => (octets 5 t, t.g2)) =
      some ([0x00, 0x02, 0xC0, 0x00, 0xFF], { at1000 5 32 with bad := true }) := by decide
/-- V46: the first window. -/
theorem test_phDes : (send 0x38001200 0 (withG2 [0x08, 0x1F, 0xC0, 0x00, 0x00, 0x0F] 0)).map State.bankD =
    some { Bank.zero with shf := 1, apid := 0x1F, seqflags := 3, length := 0xF } := by decide
/-- V48. -/
theorem test_shSer : (send 0x39001200 0 { withG2 [0xFF, 0xFF, 0xFF] 0 with
      bankD := { Bank.zero with tcb := 2, ancb := 1, tc := 0x1234, anc := 0x56 } }).map (octets 3) =
    some [0x12, 0x34, 0x56] := by decide
theorem test_shDes : (send 0x3A001200 0 { withG2 [0x12, 0x34, 0x56] 0 with
      bankD := { Bank.zero with tcb := 2, ancb := 1 } }).map State.bankD =
    some { Bank.zero with tcb := 2, ancb := 1, tc := 0x1234, anc := 0x56 } := by decide
/-- P2: the window carved behind a secondary header of four octets. -/
theorem test_asmBegin : (send 0x40000000 0x1600000200 { start with
      bankA := { Bank.zero with ancb := 4, apid := 9 } }).map (fun t => (t.bankA, t.asm, t.aw)) =
    some ({ Bank.zero with ancb := 4 }, { base := 0x200, size := 22, active := true },
      { base := 0x20A, size := 12, cursor := 0, bad := false }) := by decide
/-- V51: one octet short of the header. -/
theorem test_asmBegin_range : reply 0x40000000 0x500001000 start = some (2, 0) := by decide
/-- V55: the fill, cut off in the middle of the pattern. -/
theorem test_asmBeginidle : (send 0x41000000 0x1000001000 { start with
      mem := memOf [], idle := { pat := 0xA1B2C3D4, ps := .w } }).map
    (fun t => (List.range 10).map fun k => t.mem.octet (0x1006 + k)) =
      some [0xA1, 0xB2, 0xC3, 0xD4, 0xA1, 0xB2, 0xC3, 0xD4, 0xA1, 0xB2] := by decide +kernel
/-- V59. -/
theorem test_asmCfgidle : (send 0x42800000 0x1FFFFFFFF start).map State.idle =
    some { pat := 0xFFFFFFFF, ps := .w } := by decide

/-- A packet in progress at `0x1000`, no secondary header, one octet of user data put. -/
def inProgress : State :=
  { start with
    asm := { base := 0x1000, size := 7, active := true }
    bankA := { Bank.zero with apid := 2, seqflags := 3 }
    aw := { base := 0x1006, size := 1, cursor := 8, bad := false }
    mem := memOf [0xFF, 0xFF, 0xFF, 0xFF, 0xFF, 0xFF, 0xAB] }

/-- P1: the bytes of the source's first scenario. -/
theorem test_asmFinalize : (send 0x43000000 0 inProgress).map (octets 7) =
    some [0x00, 0x02, 0xC0, 0x00, 0x00, 0x00, 0xAB] := by decide
/-- V51: no user data at all; the length wraps. -/
theorem test_asmFinalize_empty : (send 0x43000000 0 { inProgress with
      aw := { base := 0x1006, size := 0, cursor := 0, bad := false } }).map (fun t => t.bankA.length) =
    some 0xFFFF := by decide
/-- P1, V50, V53. -/
theorem test_asmSize : reply 0x44000000 0 inProgress = some (0, 7) := by decide
theorem test_asmValid : reply 0x45000000 0 inProgress = some (0, 1) := by decide
theorem test_asmValid_bits : reply 0x45000000 0 { inProgress with
    aw := { base := 0x1006, size := 1, cursor := 3, bad := false } } = some (0, 0) := by decide
/-- V61: with two and two octets configured, the four octets after the header are the secondary header. -/
theorem test_extOpen : (send 0x50000000 0xA00001000 { start with
      mem := memOf [0x08, 0x1F, 0xC0, 0x00, 0x00, 0x03, 0x12, 0x34, 0x56, 0x78]
      bankX := { Bank.zero with tcb := 2, ancb := 2 } }).map (fun t => (t.bankX, t.xr)) =
    some ({ Bank.zero with shf := 1, apid := 0x1F, seqflags := 3, length := 3, tcb := 2, ancb := 2
                           tc := 0x1234, anc := 0x5678 },
      { base := 0x100A, size := 0, cursor := 0, bad := false }) := by decide
/-- V60. -/
theorem test_extOpen_range : reply 0x50000000 0x500001000 start = some (2, 0) := by decide
/-- V75: a little-endian field. -/
theorem test_disFrombuf : (send 0x60000000 0x800001000 { start with
      mem := memOf [0x00, 0x02, 0xC0, 0x00, 0x00, 0x01, 0x34, 0x12]
      fd := start.fd.set 0 { w := 16, sz := .h, le := true }, nfld := 1 }).map
    (fun t => (t.bankD, t.fv[0])) =
      some ({ Bank.zero with apid := 2, seqflags := 3, length := 1 }, 0x1234) := by decide
/-- V73. -/
theorem test_disTobuf : (send 0x61000000 0xA00001000 { start with
      mem := memOf []
      bankD := { Bank.zero with shf := 1, apid := 0x10, seqflags := 3, length := 3, tcb := 2, ancb := 1
                                tc := 0x1234, anc := 0x56 }
      fd := start.fd.set 0 { w := 8, sz := .b, le := false }
      fv := start.fv.set 0 0x77, nfld := 1 }).map (octets 10) =
    some [0x08, 0x10, 0xC0, 0x00, 0x00, 0x03, 0x12, 0x34, 0x56, 0x77] := by decide +kernel
/-- V71. -/
theorem test_disTobuf_range : reply 0x61000000 0x700001000 { withSchema with
    bankD := { Bank.zero with tcb := 1 } } = some (2, 0) := by decide
/-- V72. -/
theorem test_disFinalize : (send 0x62000000 0 { withSchema with
      bankD := { Bank.zero with length := 0x7777, shf := 1 } }).map State.bankD = some Bank.zero := by decide
/-- V70. -/
theorem test_disSize : reply 0x63000000 0 { withSchema with bankD := { Bank.zero with tcb := 1 } } =
    some (0, 8) := by decide
theorem test_disSize_shape : reply 0x63000000 0 start = some (3, 0) := by decide

/-- R51: one response, status and `DOUT`; the command is gone and counted. -/
theorem test_step_response : (send 0x14001000 0 (withG2 [0xBF, 0xFC] 14)).map
    (fun t => (t.rsp, t.input, t.pos)) = some ([{ status := 0, data := 0xE }], [], 1) := by decide
/-- V80: an illegal word changes `LAST` and `ESR` and is answered. -/
theorem test_step_illegal : (send 0x00000000 0 { start with dout := 7 }).map
    (fun t => (t.last, t.esr, t.rsp)) = some (1, 1, [{ status := 1, data := 7 }]) := by decide
/-- R41, R45: `rst_n` resets `DOUT` and `ESR` and leaves MEM. -/
theorem test_step_reset : (match step { withG2 [0x12] 3 with input := [.reset], dout := 5, esr := 3 } with
    | .next t => some (octets 1 t, t.g2.size, t.dout, t.esr)
    | .fault _ => none
    | .refused _ => none) = some ([0x12], 0, 0, 0) := by decide
/-- R72: a host write of the last octet of MEM; there is none behind it (R60). -/
theorem test_step_poke : (match step { start with input := [.poke 0x1FFFF 9] } with
    | .next t => some (t.mem.octet 0x1FFFF)
    | .fault _ => none
    | .refused _ => none) = some 9 := by decide
theorem test_step_poke_outside : (match step { start with input := [.poke 0x20000 9] } with
    | .next _ => none
    | .fault f => some f
    | .refused _ => none) = some (.hostOutsideMem 0x20000) := by decide
/-- The first step after reset runs the word that `withFetchWord` places (V50). -/
theorem test_withFetchWord : (match step (State.reset.withFetchWord 32 0x44000000) with
    | .next t => some (t.dout, t.last)
    | .fault _ => none
    | .refused _ => none) = some (6, 0) := by decide

/-! ### Witnesses: for each statement with hypotheses, a state and operands that meet them -/

/-- The invariants of a state, as a check. -/
def invCheck (s : State) : Bool :=
  decide s.mem.wf && (1 ≤ s.mem.size && s.mem.size ≤ Config.memBytesMax) &&
  ([CurSel.aw, .xr, .g2, .g3].all fun c =>
    (s.cur c).base.toNat + (s.cur c).size.toNat ≤ s.mem.size &&
      (s.cur c).cursor.toNat ≤ 8 * (s.cur c).size.toNat) &&
  ([BankSel.a, .x, .d].all fun u =>
    (s.bank u).tcb.toNat ≤ 8 && (s.bank u).ancb.toNat ≤ 8 &&
      (s.bank u).tc.toNat < 2 ^ (8 * (s.bank u).tcb.toNat) &&
      (s.bank u).anc.toNat < 2 ^ (8 * (s.bank u).ancb.toNat)) &&
  (!s.asm.active || (s.asm.base.toNat + s.asm.size.toNat ≤ s.mem.size &&
    s.aw.base.toNat = s.asm.base.toNat + 6 + s.bankA.secSize &&
    s.asm.size.toNat = 6 + s.bankA.secSize + s.aw.size.toNat)) &&
  s.idle.pat.toNat < 2 ^ sizeBits s.idle.ps &&
  ((List.finRange 16).all fun f => s.fd[f].w.toNat ≤ sizeBits s.fd[f].sz &&
    (!s.fd[f].le || s.fd[f].w.toNat % 8 = 0) && s.fv[f].toNat < 2 ^ s.fd[f].w.toNat) &&
  s.nfld.toNat ≤ 16 && (s.schema.all fun f => s.fd[f].w ≠ 0) && s.last = 0

theorem inv_of_check {s : State} (h : invCheck s = true) : s.Inv := by
  simp only [invCheck, Bool.and_eq_true, decide_eq_true_eq, List.all_eq_true, List.mem_cons,
    List.not_mem_nil, or_false, Bool.or_eq_true, Bool.not_eq_true'] at h
  obtain ⟨⟨⟨⟨⟨⟨⟨⟨⟨hm, hs⟩, hc⟩, hb⟩, ha⟩, hi⟩, hd⟩, hn⟩, hf⟩, hl⟩ := h
  exact
    { memWf := hm, memSize := hs
      cursors := fun c => hc c (by cases c <;> simp)
      banks := fun u => by
        obtain ⟨⟨⟨h1, h2⟩, h3⟩, h4⟩ := hb u (by cases u <;> simp)
        exact ⟨h1, h2, h3, h4⟩
      asm := fun hact => by
        rcases ha with ha | ⟨⟨h1, h2⟩, h3⟩
        · simp [ha] at hact
        · exact ⟨h1, h2, h3⟩
      idle := hi
      descs := fun f => by
        obtain ⟨⟨h1, h2⟩, -⟩ := hd f (List.mem_finRange f)
        exact ⟨h1, fun hle => h2.resolve_left fun h0 => by rw [hle] at h0; exact absurd h0 (by decide)⟩
      values := fun f => (hd f (List.mem_finRange f)).2
      count := hn, schema := hf
      status := ⟨.ok, hl, by simp [statusBit]⟩ }

/-- A state in the middle of everything: a packet of 16 octets at `0x1000` in progress with two octets of
user data put, an extractor and a dissector configured like the assembler (`tcb = 2`, `ancb = 1`), a schema
of a big-endian octet and a little-endian pair, and both general cursors in use. -/
def busy : State :=
  { start with
    aw := { base := 0x1009, size := 7, cursor := 16, bad := false }
    xr := { base := 0x1000, size := 16, cursor := 4, bad := false }
    g2 := { base := 0x1000, size := 16, cursor := 8, bad := false }
    g3 := { base := 0x1100, size := 4, cursor := 3, bad := false }
    bankA := { Bank.zero with apid := 2, tcb := 2, ancb := 1, tc := 0x1234, anc := 0x56 }
    bankX := { Bank.zero with tcb := 2, ancb := 1 }
    bankD := { Bank.zero with apid := 5, tcb := 2, ancb := 1, tc := 0xFFFF, anc := 1 }
    asm := { base := 0x1000, size := 16, active := true }
    idle := { pat := 0xFF, ps := .b }
    fd := ((start.fd.set 0 { w := 8, sz := .b, le := false }).set 1
      { w := 16, sz := .h, le := true }).set 2 { w := 64, sz := .d, le := false }
    fv := (start.fv.set 0 0xAB).set 1 0xFFFF
    nfld := 2, dout := 7, esr := 2
    mem := memOf [0, 1, 2, 3, 4, 5, 6, 7, 8, 9, 10, 11, 12, 13, 14, 15]
    input := [.poke 0x1FFFF 9, .resetDuring 0x11020800 1, .command 0x43000000 0] }

/-- `busy` with the flag of every cursor set. -/
def stuck : State :=
  { busy with
    aw := { busy.aw with bad := true }, xr := { busy.xr with bad := true }
    g2 := { busy.g2 with bad := true }, g3 := { busy.g3 with bad := true } }

theorem busy_inv : busy.Inv := inv_of_check (by decide +kernel)
theorem stuck_inv : stuck.Inv := inv_of_check (by decide +kernel)

/-- The state a command leaves, where it leaves one. -/
def after (i : Instr) (s : State) : State :=
  match exec i s with
  | .next t => t
  | .fault _ => s
  | .refused _ => s

theorem witness_StepRunsDecodedCommand :
    ∃ (s : State) (cw : CmdWord) (arg : Word) (rest : List HostMove) (i : Instr), s.input = HostMove.command cw arg :: rest ∧ decode cw arg = .ok i :=
  ⟨{ busy with input := [.command 0x11020000 5] }, 0x11020000, 5, [], .curPut .b false 8 .aw 5, rfl, rfl⟩

theorem witness_IllegalCommandsRefused : ∃ (s : State) (cw : CmdWord) (arg : Word) (rest : List HostMove),
    s.input = HostMove.command cw arg :: rest ∧ ¬ legalCommand cw := by
  refine ⟨{ busy with input := [.command 0x31000009 5] }, 0x31000009, 5, [], rfl, ?_⟩
  rintro ⟨fmt, h1, -, h3⟩
  have : fmt = .UF := by simpa using h1.symm.trans (rfl : formatOf _ = some .UF)
  subst this
  exact absurd h3 (by unfold selectorsLegal; decide)

theorem witness_DecodeOfEncode : (Instr.hdrCfgsh .d 8 8).wellFormed = true := by decide

theorem witness_EncodeOfDecode : decode 0x30000288 0xFFFFFFFFFFFFFFFF = .ok (.hdrCfgsh .d 8 8) := rfl

theorem witness_ResetValues : ∃ (s : State) (rest : List HostMove), s.input = HostMove.reset :: rest :=
  ⟨{ busy with input := [.reset] }, [], rfl⟩

theorem witness_ResetAnswers : resetRegisters State.reset :=
  { cursors := fun c => by cases c <;> rfl, banks := fun u => by cases u <;> rfl, asm := rfl, idle := rfl
    descs := by decide, values := by decide, count := rfl, dout := rfl, esr := rfl, last := rfl }

theorem witness_StepKeepsInv : busy.Inv ∧ ∃ t, step busy = .next t := ⟨busy_inv, _, rfl⟩

theorem witness_EveryCommandEnds : busy.Inv := busy_inv

theorem witness_RunsNeverStop : busy.Inv ∧ hostInMem busy := by
  refine ⟨busy_inv, fun a v h => ?_⟩
  simp only [busy, List.mem_cons, HostMove.poke.injEq, List.not_mem_nil, or_false, reduceCtorEq] at h
  rw [h.1]
  decide

/-- A command that completes, and one that is refused. -/
theorem witness_HowCommandsEnd :
    (∃ t, exec .colWidth busy = .next t) ∧ ∃ t, exec (.hdrSetlenoct .a 0) busy = .next t ∧ t.last = 1 :=
  ⟨⟨_, rfl⟩, _, rfl, rfl⟩

/-- A good cursor and a bad one. -/
theorem witness_CursorsOnlyAdvance :
    (busy.Inv ∧ (∃ t, exec (.curPut .b false 8 .g2 5) busy = .next t) ∧
      reattaches .g2 (.curPut .b false 8 .g2 5) = false) ∧
    stuck.Inv ∧ (stuck.cur .g2).bad = true ∧ ∃ t, exec (.curPut .b false 8 .g2 5) stuck = .next t :=
  ⟨⟨busy_inv, ⟨_, rfl⟩, rfl⟩, stuck_inv, rfl, _, rfl⟩

/-- An octet that the command writes, and one that it does not. -/
theorem witness_MemoryFootprint : busy.Inv ∧ exec (.curPut .b false 8 .g2 5) busy =
      .next (after (.curPut .b false 8 .g2 5) busy) ∧
    0x1001 ∈ writtenOctets (.curPut .b false 8 .g2 5) busy (after (.curPut .b false 8 .g2 5) busy) ∧
    0x1002 ∉ writtenOctets (.curPut .b false 8 .g2 5) busy (after (.curPut .b false 8 .g2 5) busy) :=
  ⟨busy_inv, rfl, by decide +kernel, by decide +kernel⟩

/-- `NOP` writes nothing; a refused command that would reply has `LAST` other than 0. -/
theorem witness_RegisterWriters :
    ((∃ t, exec .nop busy = .next t) ∧ writesMem .nop = false ∧ replies .nop = false ∧
      writesFv .nop = false ∧ writesFd .nop = false ∧ writesNfld .nop = false ∧
      writesBank .a .nop = false ∧ writesWidths .a .nop = false ∧ writesCur .g2 .nop = false ∧
      writesAsm .nop = false ∧ writesIdle .nop = false) ∧
    ∃ t, exec (.curGet .b false 8 .aw) busy = .next t ∧ t.last ≠ 0 :=
  ⟨⟨⟨_, rfl⟩, rfl, rfl, rfl, rfl, rfl, rfl, rfl, rfl, rfl, rfl⟩, _, rfl, by decide⟩

/-- The first and the last octet of MEM. -/
theorem witness_HostWritesOctet :
    (∃ (s : State) (v : Byte) (rest : List HostMove), s.input = HostMove.poke 0x1FFFF v :: rest ∧ (0x1FFFF : BitVec 32).toNat < s.mem.size) ∧
    ∃ (s : State) (v : Byte) (rest : List HostMove), s.input = HostMove.poke 0 v :: rest ∧ (0 : BitVec 32).toNat < s.mem.size :=
  ⟨⟨busy, 9, _, rfl, by decide⟩, { busy with input := [.poke 0 1] }, 1, [], rfl, by decide⟩

/-- A put of 8 bits through `G2`, cut short: octet `0x1001` is its only one. -/
theorem witness_ResetCutsCommand :
    (∃ rest, ({ busy with input := [.resetDuring 0x11021000 1] } : State).Inv ∧
      ({ busy with input := [.resetDuring 0x11021000 1] } : State).input =
        HostMove.resetDuring 0x11021000 1 :: rest) ∧
    decode 0x11021000 1 = .ok (.curPut .b false 8 .g2 1) ∧
    0x1002 ∉ writtenOctets (.curPut .b false 8 .g2 1) busy (after (.curPut .b false 8 .g2 1) busy) :=
  ⟨⟨[], inv_of_check (by decide +kernel), rfl⟩, rfl, by decide +kernel⟩

theorem witness_SystemCommands : ∃ (s : State) (arg : Word) (rest : List HostMove), s.input = HostMove.command 0x01000000 arg :: rest :=
  ⟨{ busy with input := [.command 0x01000000 5] }, 5, [], rfl⟩

/-- The last window inside MEM and the first outside. -/
theorem witness_AttachResult :
    (0x1FFFF : BitVec 32).toNat + (1 : BitVec 32).toNat ≤ busy.mem.size ∧
    busy.mem.size < (0x1FFFF : BitVec 32).toNat + (2 : BitVec 32).toNat := by decide

theorem witness_LittleEndianRefused : (12 : BitVec 7).toNat % 8 ≠ 0 ∧ (65 : BitVec 7).toNat % 8 ≠ 0 := by decide

theorem witness_ZeroBitsDoNothing : writable .aw = true ∧ readable .xr = true := by decide

/-- A width above the container; a width one bit above the room; through a writer and a reader. -/
theorem witness_ViolationSetsBad :
    ((busy.cur .g2).bad = false ∧ (9 : BitVec 7) ≠ 0 ∧ sizeBits .b < (9 : BitVec 7).toNat ∧
      writable .g2 = true ∧ readable .g2 = true) ∧
    (busy.cur .g3).bad = false ∧ (30 : BitVec 7) ≠ 0 ∧
      8 * (busy.cur .g3).size.toNat < (busy.cur .g3).cursor.toNat + (30 : BitVec 7).toNat := by decide

theorem witness_BadCursorMovesNothing :
    (stuck.cur .g2).bad = true ∧ writable .g2 = true ∧ readable .g2 = true ∧ CurSel.g3 ≠ .g2 ∧
    cursorOk stuck.mem.size (stuck.cur .g3) ∧ stuck.fd[1].w ≠ 0 :=
  ⟨rfl, rfl, rfl, by decide, stuck_inv.cursors .g3, by decide⟩

/-- The room used up exactly; and little-endian. -/
theorem witness_PutWritesBits :
    (writable .g3 = true ∧ (29 : BitVec 7).toNat ≤ sizeBits .w ∧
      hasRoom busy (busy.cur .g3) (29 : BitVec 7).toNat) ∧
    (true = true → (16 : BitVec 7).toNat % 8 = 0) ∧ hasRoom busy (busy.cur .g3) (16 : BitVec 7).toNat := by
  unfold hasRoom; decide

theorem witness_GetReadsBits :
    readable .xr = true ∧ (60 : BitVec 7).toNat ≤ sizeBits .d ∧ (60 : BitVec 7) ≠ 0 ∧
      hasRoom busy (busy.cur .xr) (60 : BitVec 7).toNat := by
  unfold hasRoom; decide

/-- `busy` with `G2` in the middle of the octet of zeros at `0x1000`. -/
def midOctet : State := { busy with g2 := { base := 0x1000, size := 16, cursor := 4, bad := false } }

theorem witness_PutThenGet :
    let t := after (.curPut .h false 12 .g2 0xABC) midOctet
    let t' : State := { t with g3 := { base := 0x1000, size := 2, cursor := 4, bad := false } }
    writable .g2 = true ∧ readable .g3 = true ∧ (12 : BitVec 7) ≠ 0 ∧ (12 : BitVec 7).toNat ≤ sizeBits .h ∧
    hasRoom midOctet (midOctet.cur .g2) (12 : BitVec 7).toNat ∧ (midOctet.cur .g2).bitPos % 8 ≠ 0 ∧
    (∀ n, (midOctet.cur .g2).bitPos ≤ n → n / 8 = (midOctet.cur .g2).bitPos / 8 →
      midOctet.mem.bit n = false) ∧
    exec (.curPut .h false 12 .g2 0xABC) midOctet = .next t ∧
    (∀ a, t'.mem.octet a = t.mem.octet a) ∧ hasRoom t' (t'.cur .g3) (12 : BitVec 7).toNat ∧
    (t'.cur .g3).bitPos = (midOctet.cur .g2).bitPos := by
  refine ⟨rfl, rfl, by decide, by decide, by unfold hasRoom; decide, by decide, fun n h1 h2 => ?_, rfl,
    fun _ => rfl, by unfold hasRoom; decide +kernel, rfl⟩
  have h3 : (midOctet.cur .g2).bitPos = 0x8004 := by decide
  rw [h3] at h1 h2
  have h4 : n = 0x8004 ∨ n = 0x8005 ∨ n = 0x8006 ∨ n = 0x8007 := by omega
  rcases h4 with rfl | rfl | rfl | rfl <;> decide

/-- V1's two puts, and the one put of their 14 bits. -/
theorem witness_PutsAreOneStream :
    let ps : List (Size × Bool × BitVec 7 × Word) := [(.b, false, 3, 5), (.h, false, 11, 0x7FF)]
    let qs : List (Size × Bool × BitVec 7 × Word) := [(.h, false, 14, 0x2FFF)]
    (∀ p ∈ ps ++ qs, p.2.2.1.toNat ≤ sizeBits p.1 ∧ (p.2.1 = true → p.2.2.1.toNat % 8 = 0)) ∧
    hasRoom busy (busy.cur .g2) (ps.map fun p => p.2.2.1.toNat).sum ∧
    (ps.flatMap fun p => wordStream p.2.2.2 p.2.2.1.toNat p.2.1) =
      (qs.flatMap fun p => wordStream p.2.2.2 p.2.2.1.toNat p.2.1) := by
  unfold hasRoom; decide

theorem witness_PutsAreOneStream_widths : 32 + 32 ≤ 64 := by decide

/-- A source that does not overlap the destination. -/
theorem witness_AppendCopies :
    writable .g3 = true ∧ CurSel.g3 ≠ .g2 ∧ (busy.cur .g3).bad = false ∧
    cursorOk busy.mem.size (busy.cur .g3) ∧ cursorOk busy.mem.size (busy.cur .g2) ∧
    disjoint (busy.cur .g3).base.toNat (busy.cur .g3).size.toNat (busy.cur .g2).base.toNat
      (ceilDiv (busy.cur .g2).cursor.toNat 8) :=
  ⟨rfl, by decide, rfl, busy_inv.cursors .g3, busy_inv.cursors .g2, by unfold disjoint; decide⟩

theorem witness_UnconfiguredRefused : busy.fd[15].w = 0 ∧ writable .aw = true ∧ readable .xr = true := by decide

/-- Each shape that is refused, and the largest that is not; a count that is refused and one that is not. -/
theorem witness_FieldShapes :
    sizeBits .b < (9 : BitVec 7).toNat ∧ (12 : BitVec 7).toNat % 8 ≠ 0 ∧
    (64 : BitVec 7) ≠ 0 ∧ (64 : BitVec 7).toNat ≤ sizeBits .d ∧ (64 : BitVec 7).toNat % 8 = 0 ∧
    (∃ f : Fin 16, f.val < 4 ∧ busy.fd[f].w = 0) ∧ ∀ f : Fin 16, f.val < 3 → busy.fd[f].w ≠ 0 := by decide

theorem witness_FieldRegisters : busy.fd[3].w = 0 ∧ busy.fd[2].w ≠ 0 := by decide

/-- The last bit of a field and the one behind it. -/
theorem witness_FieldArithmetic :
    busy.fd[3].w = 0 ∧ busy.fd[1].w ≠ 0 ∧ (15 : BitVec 7).toNat < busy.fd[1].w.toNat ∧
    busy.fd[1].w.toNat ≤ (16 : BitVec 7).toNat := by decide

theorem witness_FieldSerializes :
    writable .g3 = true ∧ busy.fd[1].w ≠ 0 ∧ descOk busy.fd[1] ∧ (busy.cur .g3).bad = false ∧
    cursorOk busy.mem.size (busy.cur .g3) :=
  ⟨rfl, by decide, busy_inv.descs 1, rfl, busy_inv.cursors .g3⟩

/-- A field that fits (16 bits into 29), and one that does not (64). -/
theorem witness_FieldDeserializes :
    readable .g3 = true ∧ busy.fd[1].w ≠ 0 ∧ descOk busy.fd[1] ∧ (busy.cur .g3).bad = false ∧
    cursorOk busy.mem.size (busy.cur .g3) ∧ busy.fd[1].w.toNat ≤ (busy.cur .g3).room ∧
    (busy.cur .g3).room < busy.fd[2].w.toNat ∧ descOk busy.fd[2] :=
  ⟨rfl, by decide, busy_inv.descs 1, rfl, busy_inv.cursors .g3, by decide, by decide, busy_inv.descs 2⟩

theorem witness_CollectionSerializes :
    writable .g3 = true ∧ (∀ f ∈ busy.schema, descOk busy.fd[f]) ∧ busy.schema ≠ [] ∧
    (busy.cur .g3).bad = false ∧ cursorOk busy.mem.size (busy.cur .g3) :=
  ⟨rfl, fun f _ => busy_inv.descs f, by decide, rfl, busy_inv.cursors .g3⟩

theorem witness_CollectionDeserializes :
    readable .g3 = true ∧ (∀ f ∈ busy.schema, descOk busy.fd[f]) ∧
    (∀ f : Fin 16, busy.fv[f].toNat < 2 ^ busy.fd[f].w.toNat) ∧ (busy.cur .g3).bad = false ∧
    cursorOk busy.mem.size (busy.cur .g3) ∧ (3 : Fin 16) ∉ busy.schema :=
  ⟨rfl, fun f _ => busy_inv.descs f, busy_inv.values, rfl, busy_inv.cursors .g3, by decide⟩

theorem witness_CollectionIsItsFields :
    (∀ f ∈ busy.schema, busy.fd[f].w ≠ 0) ∧ writable .g2 = true ∧ readable .g2 = true :=
  ⟨busy_inv.schema, rfl, rfl⟩

/-- The largest widths, and the first that are refused. -/
theorem witness_SecondaryConfigures :
    (8 : BitVec 4).toNat ≤ 8 ∧ 8 < (9 : BitVec 4).toNat ∧ (0 : BitVec 4).toNat ≤ 8 := by decide

/-- An octet count of 0, and the least and the greatest others. -/
theorem witness_HeaderWrites :
    (0 : Word) = 0 ∧ (1 : Word) ≠ 0 ∧ (0xFFFFFFFFFFFFFFFF : Word) ≠ 0 ∧ HdrField.tc ≠ .anc := by decide

theorem witness_HeaderSerializes :
    writable .g3 = true ∧ bankOk (busy.bank .a) ∧ (busy.cur .g3).bad = false ∧
    cursorOk busy.mem.size (busy.cur .g3) :=
  ⟨rfl, busy_inv.banks .a, rfl, busy_inv.cursors .g3⟩

theorem witness_HeaderDeserializes :
    readable .xr = true ∧ bankOk (busy.bank .x) ∧ (busy.cur .xr).bad = false ∧
    cursorOk busy.mem.size (busy.cur .xr) :=
  ⟨rfl, busy_inv.banks .x, rfl, busy_inv.cursors .xr⟩

theorem witness_HeaderIsItsPuts : writable .aw = true ∧ writable .g2 = true := by decide

/-- One octet beyond MEM, with a dissector whose shape is legal. -/
theorem witness_WindowOutsideRefused :
    busy.mem.size < (0x1FFFF : BitVec 32).toNat + (2 : BitVec 32).toNat ∧ attachable .g2 = true ∧
    busy.colw % 8 = 0 ∧ 0 < busy.colw := by decide

/-- With a secondary header of three octets: a window outside MEM, a window of 8 octets, one of 9. -/
theorem witness_AssemblerBegins :
    busy.mem.size < (0x1FFFF : BitVec 32).toNat + (9 : BitVec 32).toNat ∧
    (8 : BitVec 32).toNat < 6 + (busy.bankA.tcb.toNat + busy.bankA.ancb.toNat) ∧
    (0x1FFF7 : BitVec 32).toNat + (9 : BitVec 32).toNat ≤ busy.mem.size ∧
    6 + (busy.bankA.tcb.toNat + busy.bankA.ancb.toNat) ≤ (9 : BitVec 32).toNat := by decide

/-- Windows of 5 and 6 octets, the latter the last of MEM; and one with an octet of user data. -/
theorem witness_IdlePacketBegins :
    busy.mem.size < (0x1FFFF : BitVec 32).toNat + (6 : BitVec 32).toNat ∧ (5 : BitVec 32).toNat < 6 ∧
    busy.mem.size ≤ Config.memBytesMax ∧
    (0x1FFFA : BitVec 32).toNat + (6 : BitVec 32).toNat ≤ busy.mem.size ∧ 6 ≤ (6 : BitVec 32).toNat ∧
    0 < (7 : BitVec 32).toNat - 6 := by decide

theorem witness_AssemblerFinalizes :
    start.asm.active = false ∧ busy.asm.active = true ∧
    busy.asm.base.toNat + 6 + (busy.bankA.tcb.toNat + busy.bankA.ancb.toNat) ≤ busy.mem.size := by decide

theorem witness_LengthLaw :
    busy.Inv ∧ busy.asm.active = true ∧ 1 ≤ busy.bankA.secSize + busy.userBytes ∧
    busy.bankA.secSize + busy.userBytes ≤ 65536 := ⟨busy_inv, rfl, by decide, by decide⟩

theorem witness_FinalizeIdempotent :
    busy.Inv ∧ busy.asm.active = true ∧ ∃ t, exec .asmFinalize busy = .next t := ⟨busy_inv, rfl, _, rfl⟩

/-- A window outside MEM, one too small, one that is exactly the two headers. -/
theorem witness_ExtractorOpens :
    busy.mem.size < (0x1FFFF : BitVec 32).toNat + (9 : BitVec 32).toNat ∧
    (8 : BitVec 32).toNat < 6 + (busy.bankX.tcb.toNat + busy.bankX.ancb.toNat) ∧
    (0x1FFF7 : BitVec 32).toNat + (9 : BitVec 32).toNat ≤ busy.mem.size ∧
    6 + (busy.bankX.tcb.toNat + busy.bankX.ancb.toNat) ≤ (9 : BitVec 32).toNat ∧ bankOk busy.bankX :=
  ⟨by decide, by decide, by decide, by decide, busy_inv.banks .x⟩

theorem witness_AssembleThenExtract :
    busy.Inv ∧ busy.asm.active = true ∧ busy.bankX.tcb = busy.bankA.tcb ∧ busy.bankX.ancb = busy.bankA.ancb :=
  ⟨busy_inv, rfl, rfl, rfl⟩

/-- A schema of 4 bits; nothing at all; `busy`; and a secondary header alone. -/
theorem witness_DissectorShapeAndSize :
    (withField 4 .b 0).colw = 0 ∧ (withField 4 .b 0).bankD.tcb.toNat + (withField 4 .b 0).bankD.ancb.toNat = 0 ∧
    ({ withSchema with nfld := 1 } : State).colw % 8 ≠ 0 ∧
    busy.colw % 8 = 0 ∧ 0 < busy.colw ∧ ({ busy with nfld := 0 } : State).colw % 8 = 0 ∧
    0 < busy.bankD.tcb.toNat + busy.bankD.ancb.toNat := by decide

/-- `busy` needs 12 octets: a window outside MEM, one of 11, one of 12. -/
theorem witness_DissectorReads :
    busy.Inv ∧ busy.colw % 8 = 0 ∧ 0 < busy.colw ∧
    busy.mem.size < (0x1FFFF : BitVec 32).toNat + (12 : BitVec 32).toNat ∧
    (11 : BitVec 32).toNat < 6 + busy.bankD.secSize + busy.colw / 8 ∧
    (0x1FFF4 : BitVec 32).toNat + (12 : BitVec 32).toNat ≤ busy.mem.size ∧
    6 + busy.bankD.secSize + busy.colw / 8 ≤ (12 : BitVec 32).toNat ∧ (2 : Fin 16) ∉ busy.schema :=
  ⟨busy_inv, by decide, by decide, by decide, by decide, by decide, by decide, by decide⟩

theorem witness_DissectorWrites :
    busy.Inv ∧ busy.colw % 8 = 0 ∧ 0 < busy.bankD.secSize ∧
    busy.mem.size < (0x1FFFF : BitVec 32).toNat + (12 : BitVec 32).toNat ∧
    (11 : BitVec 32).toNat < 6 + busy.bankD.secSize + busy.colw / 8 ∧
    (0x1FFF4 : BitVec 32).toNat + (12 : BitVec 32).toNat ≤ busy.mem.size ∧
    6 + busy.bankD.secSize + busy.colw / 8 ≤ (12 : BitVec 32).toNat :=
  ⟨busy_inv, by decide, by decide, by decide, by decide, by decide, by decide⟩

/-- The values of bank D and of the schema lost in between. -/
theorem witness_DissectorRoundTrip :
    let win : Window := { base := 0x1000, size := 12 }
    let win' : Window := { base := 0x1FFF4, size := 12 }
    let t := after (.disTobuf win) busy
    let s' : State := { t with bankD := { Bank.zero with tcb := 2, ancb := 1 }, fv := start.fv }
    busy.Inv ∧ exec (.disTobuf win) busy = .next t ∧ t.last = 0 ∧ s'.Inv ∧ s'.mem = t.mem ∧
    s'.fd = busy.fd ∧ s'.nfld = busy.nfld ∧ s'.bankD.tcb = busy.bankD.tcb ∧
    s'.bankD.ancb = busy.bankD.ancb ∧ (∀ f : Fin 16, f ∉ busy.schema → s'.fv[f] = busy.fv[f]) ∧
    win'.base.toNat + win'.size.toNat ≤ busy.mem.size ∧ busy.dsize ≤ win'.size.toNat :=
  ⟨busy_inv, rfl, rfl, inv_of_check (by decide +kernel), rfl, rfl, rfl, rfl, rfl, by decide, by decide, by decide⟩

end Sys2Proof.Tests
end

section
/-! The invariants of the state after reset (R42 to R46): each part of `State.Inv` at its reset value. -/

namespace Sys2Proof.Machine

/-- R24, R42: the empty window at address 0 lies in any MEM, and position 0 in it. -/
theorem cursorOk_zero (size : Nat) : cursorOk size Cursor.zero :=
  ⟨Nat.zero_le size, Nat.le_refl 0⟩

/-- R28, R43: no octet of time code or ancillary data, and the value 0 for each. -/
theorem bankOk_zero : bankOk Bank.zero := by unfold bankOk; decide

/-- R34, R44: an unconfigured descriptor has a legal shape. -/
theorem descOk_zero : descOk FieldDesc.zero := by unfold descOk; decide

section
variable (m : Memory) (inp : List HostMove) (p : Nat) (r : List Response) (n : Nat)

@[simp] theorem afterReset_fd (f : Fin 16) : (State.afterReset m inp p r n).fd[f] = FieldDesc.zero :=
  Vector.getElem_replicate f.isLt

@[simp] theorem afterReset_fv (f : Fin 16) : (State.afterReset m inp p r n).fv[f] = 0 :=
  Vector.getElem_replicate f.isLt

/-- R31: no packet is in progress after reset. -/
theorem asmOk_afterReset : asmOk (State.afterReset m inp p r n) :=
  fun (hactive : false = true) => absurd hactive Bool.false_ne_true

end

/-- Reset establishes the invariants of the registers; those of MEM, which it does not write (R45), are the
premises. -/
theorem inv_afterReset {m : Memory} (hwf : m.wf) (hsize : 1 ≤ m.size ∧ m.size ≤ Config.memBytesMax)
    (inp : List HostMove) (p : Nat) (r : List Response) (n : Nat) :
    (State.afterReset m inp p r n).Inv where
  memWf := hwf
  memSize := hsize
  cursors c := by rw [afterReset_cur]; exact cursorOk_zero m.size
  banks u := by rw [afterReset_bank]; exact bankOk_zero
  asm := asmOk_afterReset m inp p r n
  idle := Nat.two_pow_pos _
  descs f := by rw [afterReset_fd]; exact descOk_zero
  values f := by rw [afterReset_fv]; exact Nat.two_pow_pos _
  count := Nat.zero_le 16
  schema f hf := by simp at hf
  status := statusOk_of_last rfl

/-- Settles O8: the registers at reset meet the invariants over any legal MEM, and MEM at reset is one: no
octet written, and a size of which only R8's bounds are known. -/
theorem resetInv : Obligations.ResetInv :=
  inv_afterReset reset_mem_wf memBytes_bounds [] 0 [] 0

end Sys2Proof.Machine
end

section
/-! The ports (R48, R50, R72), reset (R42 to R45) and the roles of the cursors (R25, R101): what a step
makes of each move of the host, and the refusals that need no state. -/

namespace Sys2Proof.Machine

/-- R20: a pending move is taken off the port and performed. -/
theorem step_move {s : State} {mv : HostMove} {rest : List HostMove} (h : s.input = mv :: rest) :
    step s = hostMove mv (takeMove rest s) := by
  simp only [step, h]

/-- R50, R88: a pair that decodes is executed. -/
theorem runCommand_of_decode {cw : CmdWord} {arg : Word} {i : Instr} (h : decode cw arg = .ok i)
    (s : State) : runCommand cw arg s = exec i s := by
  simp only [runCommand, h]

/-- Settles O1: taking the command and counting it are the two updates of the state that `exec` runs in,
and `respond` is the update of the state that it leaves. -/
theorem stepRunsDecodedCommand : Obligations.StepRunsDecodedCommand := by
  intro s cw arg rest i hin hdec
  have hstep : step s = acceptCommand cw arg (takeMove rest s) := step_move hin
  rw [hstep, acceptCommand, runCommand_of_decode hdec]
  rfl

/-- R42 to R44: reset gives every register its reset value, whatever it leaves alone. -/
theorem resetRegisters_afterReset (m : Memory) (inp : List HostMove) (p : Nat) (r : List Response)
    (n : Nat) : resetRegisters (State.afterReset m inp p r n) where
  cursors c := afterReset_cur m inp p r n c
  banks u := afterReset_bank m inp p r n u
  asm := rfl
  idle := rfl
  descs f := afterReset_fd m inp p r n f
  values f := afterReset_fv m inp p r n f
  count := rfl
  dout := rfl
  esr := rfl
  last := rfl

/-- Settles O6: `State.reset` and the state after a reset move are both made by `State.afterReset`, the
second over the MEM that was there. -/
theorem resetValues : Obligations.ResetValues :=
  ⟨resetRegisters_afterReset _ _ _ _ _, fun s rest hin =>
    ⟨assertReset (takeMove rest s), step_move hin, resetRegisters_afterReset _ _ _ _ _, rfl⟩⟩

/-- R72: a host write inside MEM. -/
theorem hostPoke_of_lt {s : State} {a : Nat} (v : Byte) (h : a < s.mem.size) :
    hostPoke a v s = .next { s with mem := s.mem.set a v } := by
  simp only [hostPoke, memWrite_of_lt v h]

/-- Settles O16: the move is one `Memory.set`, which its read-after-write law describes. -/
theorem hostWritesOctet : Obligations.HostWritesOctet := fun s a v _ hin ha =>
  ⟨s.mem.set a.toNat v, (step_move hin).trans (hostPoke_of_lt v ha), set_size _ _ _, octet_set_same _ _ _,
    fun _ hb => octet_set_other _ v hb⟩

/-- Settles O21: the role is the first check of each of these commands, so that the refusal holds by
definition, whatever the other operands and the state are. -/
theorem roleRefusals : Obligations.RoleRefusals := fun _ =>
  ⟨fun _ => ⟨rfl, rfl⟩, fun _ _ _ _ => rfl, fun _ _ _ => rfl, fun _ => rfl, fun _ => ⟨rfl, rfl⟩, rfl, rfl,
    fun _ => ⟨rfl, rfl, rfl, rfl⟩⟩

end Sys2Proof.Machine
end

section
/-! Values that fit their widths (R28, R31, R35): the masks and bit updates of the commands, and a bank's
two values seen as two of its nine fields. -/

namespace Sys2Proof.Machine

/-- R11: a masked value fits the width. -/
theorem toNat_and_mask_lt (v : Word) (w : Nat) : (v &&& mask w).toNat < 2 ^ w := by
  have hand : (v &&& mask w).toNat ≤ (mask w).toNat := by
    rw [BitVec.toNat_and]
    exact Nat.and_le_right
  have hmask : (mask w).toNat ≤ 2 ^ w - 1 := by
    rw [mask, BitVec.toNat_ofNat]
    exact Nat.mod_le _ _
  have hpos := Nat.two_pow_pos w
  omega

/-- R139: a bit below the width is replaced within the width. -/
theorem setBit_lt {v : Word} {w b : Nat} (bit : Bool) (hv : v.toNat < 2 ^ w) (hb : b < w) :
    ((v &&& ~~~((1 : Word) <<< b)) ||| (boolWord bit <<< b)).toNat < 2 ^ w := by
  refine lt_of_bits fun j hj => ?_
  have hbit : (boolWord bit).getLsbD (j - b) = false := by
    have hne : j - b ≠ 0 := by omega
    cases bit <;> simp [boolWord, hne]
  rw [BitVec.getLsbD_or, BitVec.getLsbD_and, bits_of_lt hv j hj, BitVec.getLsbD_shiftLeft, hbit]
  simp

/-- One entry of a file of sixteen registers replaced. -/
theorem getElem_set_fin {α : Type} (xs : Vector α 16) (f g : Fin 16) (x : α) :
    (xs.set f x)[g] = if g = f then x else xs[g] := by
  simp only [Fin.getElem_fin, Vector.getElem_set, Fin.ext_iff, eq_comm]

/-- R35: one field takes a value that fits its width. -/
theorem values_set {fd : Vector FieldDesc 16} {fv : Vector Word 16} {f : Fin 16} {v : Word}
    (h : ∀ g : Fin 16, fv[g].toNat < 2 ^ fd[g].w.toNat) (hv : v.toNat < 2 ^ fd[f].w.toNat) (g : Fin 16) :
    (fv.set f v)[g].toNat < 2 ^ fd[g].w.toNat := by
  rw [getElem_set_fin]
  split
  next hg => exact hg ▸ hv
  next => exact h g

/-- R28: the two values of a bank fit exactly if all nine of its fields fit the widths of R167. -/
theorem bankOk_iff_get {b : Bank} : bankOk b ↔
    b.tcb.toNat ≤ 8 ∧ b.ancb.toNat ≤ 8 ∧ ∀ fld, (b.get fld).toNat < 2 ^ hdrWidth b fld := by
  have low : ∀ {n : Nat} (x : BitVec n), (x.setWidth 64).toNat < 2 ^ n := fun x => by
    rw [BitVec.toNat_setWidth]
    exact Nat.lt_of_le_of_lt (Nat.mod_le _ _) x.isLt
  constructor
  · rintro ⟨ht, ha, htc, hanc⟩
    refine ⟨ht, ha, fun fld => ?_⟩
    cases fld with
    | tc => exact htc
    | anc => exact hanc
    | version | type | shf | apid | seqflags | seqcount | length => exact low _
  · rintro ⟨ht, ha, hget⟩
    exact ⟨ht, ha, hget .tc, hget .anc⟩

/-- R27, R28: a field of a legal bank fits its register. -/
theorem hdrWidth_le_registerWidth {b : Bank} (h : bankOk b) (fld : HdrField) :
    hdrWidth b fld ≤ registerWidth fld := by
  obtain ⟨ht, ha, -, -⟩ := h
  cases fld <;> simp only [hdrWidth, registerWidth] <;> omega

/-- R167: the width of a field depends on the bank's two widths only. -/
theorem hdrWidth_congr {b b' : Bank} (ht : b'.tcb = b.tcb) (ha : b'.ancb = b.ancb) (fld : HdrField) :
    hdrWidth b' fld = hdrWidth b fld := by
  cases fld <;> simp only [hdrWidth, ht, ha]

/-- R28: one field of a legal bank takes a value that fits it. -/
theorem bankOk_put {b : Bank} {fld : HdrField} {v : Word} (h : bankOk b)
    (hv : v.toNat < 2 ^ hdrWidth b fld) : bankOk (b.put fld v) := by
  obtain ⟨ht, ha, hget⟩ := bankOk_iff_get.1 h
  refine bankOk_iff_get.2 ⟨by rwa [put_tcb], by rwa [put_ancb], fun g => ?_⟩
  rw [hdrWidth_congr (put_tcb b fld v) (put_ancb b fld v)]
  by_cases hg : g = fld
  · subst hg
    rw [put_get_same]
    · exact hv
    · exact Nat.lt_of_lt_of_le hv (Nat.pow_le_pow_right (by decide) (hdrWidth_le_registerWidth h g))
  · rw [put_get_other b v hg]
    exact hget g

/-- R163, R164: gets into a legal bank, each of a field's own width, leave it legal. -/
theorem bankOk_desHeader {m : Memory} {l : List (HdrField × Nat × Nat)} {b b' : Bank} {cu cu' : Cursor}
    (hl : ∀ e ∈ l, e.2.1 = hdrWidth b e.1 ∧ e.2.2 ≤ 64) (hb : bankOk b)
    (hw : cu.base.toNat + cu.size.toNat ≤ m.size) (h : desHeader m l (b, cu) = .ok (b', cu')) :
    bankOk b' := by
  obtain ⟨ht, ha, hget⟩ := bankOk_iff_get.1 hb
  obtain ⟨-, ht', ha', -, hfit⟩ := desHeader_keeps hw h
  refine bankOk_iff_get.2 ⟨by rwa [ht'], by rwa [ha'], fun fld => ?_⟩
  rw [hdrWidth_congr ht' ha']
  refine hfit (fun e he => ?_) (hdrWidth b) (fun e he => (hl e he).1.symm) hget fld
  obtain ⟨hwid, hcont⟩ := hl e he
  exact ⟨hcont, hwid ▸ hdrWidth_le_registerWidth hb e.1⟩

theorem phLayout_widths (b : Bank) : ∀ e ∈ phLayout, e.2.1 = hdrWidth b e.1 ∧ e.2.2 ≤ 64 := by
  simp [phLayout, hdrWidth]

theorem shLayout_widths (b : Bank) : ∀ e ∈ shLayout b, e.2.1 = hdrWidth b e.1 ∧ e.2.2 ≤ 64 := by
  simp [shLayout]

/-- R166, R192: a cleared bank of legal widths is legal. -/
theorem bankOk_cleared {tcb ancb : BitVec 4} (ht : tcb.toNat ≤ 8) (ha : ancb.toNat ≤ 8) :
    bankOk (Bank.cleared tcb ancb) :=
  ⟨ht, ha, Nat.two_pow_pos _, Nat.two_pow_pos _⟩

/-- R24: a window of MEM, freshly attached. -/
theorem cursorOk_attached {base size n : Nat} (h : base + size ≤ n) : cursorOk n (attached base size) := by
  refine ⟨?_, Nat.zero_le _⟩
  simp only [attached, BitVec.toNat_ofNat]
  have hb := Nat.mod_le base (2 ^ 32)
  have hs := Nat.mod_le size (2 ^ 32)
  omega

end Sys2Proof.Machine
end

section
/-! What the updates of a bank and of a unit leave unchanged (R52, R166). -/

namespace Sys2Proof.Machine

/-! ### The registers that `HDR.CFGSH` returns to reset (R166) -/

section
variable (s : State) (u : BankSel)
@[simp] theorem resetUnit_mem : (resetUnit s u).mem = s.mem := by cases u <;> rfl
@[simp] theorem resetUnit_dout : (resetUnit s u).dout = s.dout := by cases u <;> rfl
@[simp] theorem resetUnit_fv : (resetUnit s u).fv = s.fv := by cases u <;> rfl
@[simp] theorem resetUnit_fd : (resetUnit s u).fd = s.fd := by cases u <;> rfl
@[simp] theorem resetUnit_nfld : (resetUnit s u).nfld = s.nfld := by cases u <;> rfl
@[simp] theorem resetUnit_idle : (resetUnit s u).idle = s.idle := by cases u <;> rfl
@[simp] theorem resetUnit_bank (v : BankSel) : (resetUnit s u).bank v = s.bank v := by
  cases u <;> cases v <;> rfl
theorem resetUnit_asm (h : u ≠ .a) : (resetUnit s u).asm = s.asm := by
  cases u with
  | a => exact absurd rfl h
  | x | d => rfl
theorem resetUnit_cur {c : CurSel} (h : ((u = .a && c = .aw) || (u = .x && c = .xr)) = false) :
    (resetUnit s u).cur c = s.cur c := by
  cases u with
  | a =>
    cases c with
    | aw => cases h
    | xr | g2 | g3 => rfl
  | x =>
    cases c with
    | xr => cases h
    | aw | g2 | g3 => rfl
  | d => rfl
end

/-! ### Banks beside the one written (R52) -/

theorem setBank_bank_other {s : State} {u v : BankSel} {b : Bank} (h : v ≠ u) :
    (s.setBank u b).bank v = s.bank v := by
  rw [setBank_bank, if_neg h]

/-- A bank whose widths are those of the bank that it replaces. -/
theorem setBank_widths {s : State} {u : BankSel} {b : Bank} (ht : b.tcb = (s.bank u).tcb)
    (ha : b.ancb = (s.bank u).ancb) (v : BankSel) :
    ((s.setBank u b).bank v).tcb = (s.bank v).tcb ∧ ((s.setBank u b).bank v).ancb = (s.bank v).ancb := by
  rw [setBank_bank]
  split
  next hv => subst hv; exact ⟨ht, ha⟩
  next => exact ⟨rfl, rfl⟩

end Sys2Proof.Machine
end

section
/-! The invariants of the state (R8, R24, R28, R31, R34 to R36, R261), one rule per update of the state. -/

namespace Sys2Proof.Machine

/-- The invariants do not speak of `DOUT` nor of the host's side of the ports. -/
theorem inv_unconstrained {s : State} (h : s.Inv) (dout : Word) (inp : List HostMove) (pos : Nat)
    (rsp : List Response) (n : Nat) :
    ({ s with dout := dout, input := inp, pos := pos, rsp := rsp, freeNext := n } : State).Inv :=
  { memWf := h.memWf, memSize := h.memSize
    cursors := h.cursors, banks := h.banks
    asm := h.asm, idle := h.idle, descs := h.descs, values := h.values, count := h.count
    schema := h.schema, status := h.status }

/-- A state meets the invariants if it does with `LAST` at OK and its own status is legal. -/
theorem inv_of_last {s : State} (h : ({ s with last := 0 } : State).Inv) (hst : statusOk s) : s.Inv :=
  { memWf := h.memWf, memSize := h.memSize
    cursors := h.cursors, banks := h.banks
    asm := h.asm, idle := h.idle, descs := h.descs, values := h.values, count := h.count
    schema := h.schema, status := hst }

/-- R24, R66: MEM and a cursor after a sequence of puts. -/
theorem inv_setWriter {s : State} {c : CurSel} {m : Memory} {cu : Cursor} (h : s.Inv)
    (hw : wentOn (s.mem, s.cur c) (m, cu)) : (({ s with mem := m } : State).setCur c cu).Inv :=
  inv_of_last (inv_writer h hw) (by simpa [statusOk] using h.status)

/-- R24: a cursor that has moved in its window. -/
theorem inv_setCur {s : State} {c : CurSel} {cu : Cursor} (h : s.Inv) (hc : cursorOn (s.cur c) cu) :
    (s.setCur c cu).Inv :=
  inv_of_last (inv_reader h hc) (by simpa [statusOk] using h.status)

/-- MEM rewritten, of the same size. -/
theorem inv_setMem {s : State} {m : Memory} (h : s.Inv) (hsize : m.size = s.mem.size)
    (hwf : s.mem.wf → m.wf) : ({ s with mem := m } : State).Inv where
  memWf := hwf h.memWf
  memSize := hsize ▸ h.memSize
  cursors c := by
    show cursorOk m.size (s.cur c)
    exact hsize ▸ h.cursors c
  banks := h.banks
  asm hactive := by
    show _ ≤ m.size ∧ _
    rw [hsize]
    exact h.asm hactive
  idle := h.idle
  descs := h.descs
  values := h.values
  count := h.count
  schema := h.schema
  status := h.status

/-- R24, R31: a cursor attached anew, other than the one that a packet in progress is written through. -/
theorem inv_attach {s : State} {c : CurSel} {cu : Cursor} (h : s.Inv) (hcu : cursorOk s.mem.size cu)
    (hc : c ≠ .aw) : (s.setCur c cu).Inv where
  memWf := by simpa using h.memWf
  memSize := by simpa using h.memSize
  cursors d := by
    rw [setCur_mem, setCur_cur]
    split
    · exact hcu
    · exact h.cursors d
  banks u := by simpa using h.banks u
  asm := by
    cases c with
    | aw => exact absurd rfl hc
    | xr | g2 | g3 => exact h.asm
  idle := by simpa using h.idle
  descs := by simpa using h.descs
  values := by simpa using h.values
  count := by simpa using h.count
  schema := by cases c <;> exact h.schema
  status := by simpa [statusOk] using h.status

/-- R31, R193: a pattern that fits its size. -/
theorem inv_setIdle {s : State} {idle : IdleCfg} (h : s.Inv)
    (hidle : idle.pat.toNat < 2 ^ sizeBits idle.ps) : ({ s with idle := idle } : State).Inv :=
  { memWf := h.memWf, memSize := h.memSize
    cursors := h.cursors, banks := h.banks
    asm := h.asm, idle := hidle, descs := h.descs, values := h.values, count := h.count
    schema := h.schema, status := h.status }

/-- R36, R133: a schema of configured fields. -/
theorem inv_setNfld {s : State} {n : BitVec 5} (h : s.Inv) (hn : n.toNat ≤ 16)
    (hcfg : ∀ f ∈ (List.finRange 16).take n.toNat, s.fd[f].w ≠ 0) : ({ s with nfld := n } : State).Inv :=
  { memWf := h.memWf, memSize := h.memSize
    cursors := h.cursors, banks := h.banks
    asm := h.asm, idle := h.idle, descs := h.descs, values := h.values, count := hn
    schema := hcfg, status := h.status }

/-- R34, R132: field `f` takes a legal shape and the value 0. -/
theorem inv_setField {s : State} {f : Fin 16} {d : FieldDesc} (h : s.Inv) (hd : descOk d) (hw : d.w ≠ 0) :
    (({ s with fd := s.fd.set f d } : State).setFv f 0).Inv := by
  have hdescs : ∀ g : Fin 16, descOk (s.fd.set f d)[g] := fun g => by
    rw [getElem_set_fin]
    split
    next => exact hd
    next => exact h.descs g
  have hvalues : ∀ g : Fin 16, (s.fv.set f 0)[g].toNat < 2 ^ (s.fd.set f d)[g].w.toNat := fun g => by
    rw [getElem_set_fin, getElem_set_fin]
    split
    next => exact Nat.two_pow_pos _
    next => exact h.values g
  have hschema : ∀ g ∈ s.schema, (s.fd.set f d)[g].w ≠ 0 := fun g hg => by
    rw [getElem_set_fin]
    split
    next => exact hw
    next => exact h.schema g hg
  exact
    { memWf := h.memWf, memSize := h.memSize
      cursors := h.cursors, banks := h.banks
      asm := h.asm, idle := h.idle, descs := hdescs, values := hvalues, count := h.count
      schema := hschema, status := h.status }

/-- A bank, the assembler's window and `AW` replaced together (R166, R192): bank A legal, `AW` in MEM, and
the three in agreement. -/
theorem inv_setAssembler {s : State} {b : Bank} {asm : AsmUnit} {aw : Cursor} (h : s.Inv) (hb : bankOk b)
    (haw : cursorOk s.mem.size aw) (hasm : asmOk { s with bankA := b, asm := asm, aw := aw }) :
    ({ s with bankA := b, asm := asm, aw := aw } : State).Inv :=
  { memWf := h.memWf, memSize := h.memSize
    cursors := fun c => by cases c; exacts [haw, h.cursors .xr, h.cursors .g2, h.cursors .g3]
    banks := fun u => by cases u; exacts [hb, h.banks .x, h.banks .d]
    asm := hasm, idle := h.idle, descs := h.descs, values := h.values, count := h.count
    schema := h.schema, status := h.status }

/-- R28, R31: a bank other than the assembler's may take new widths. -/
theorem inv_setBank {s : State} {u : BankSel} {b : Bank} (h : s.Inv) (hb : bankOk b) (hu : u ≠ .a) :
    (s.setBank u b).Inv where
  memWf := by simpa using h.memWf
  memSize := by simpa using h.memSize
  cursors c := by simpa using h.cursors c
  banks v := by
    rw [setBank_bank]
    split
    · exact hb
    · exact h.banks v
  asm := by
    cases u with
    | a => exact absurd rfl hu
    | x | d => exact h.asm
  idle := by simpa using h.idle
  descs := by simpa using h.descs
  values := by simpa using h.values
  count := by simpa using h.count
  schema := by cases u <;> exact h.schema
  status := by simpa [statusOk] using h.status

/-- R166: the bank that `HDR.CFGSH` clears, and the unit that it returns to reset. -/
theorem inv_resetUnit {s : State} {tcb ancb : BitVec 4} (u : BankSel) (h : s.Inv) (ht : tcb.toNat ≤ 8)
    (ha : ancb.toNat ≤ 8) : (resetUnit (s.setBank u (Bank.cleared tcb ancb)) u).Inv := by
  have hb := bankOk_cleared ht ha
  cases u with
  | a =>
    exact inv_setAssembler (s := s) h hb (cursorOk_zero _)
      fun (hactive : false = true) => absurd hactive Bool.false_ne_true
  | x =>
    exact inv_attach (c := .xr) (inv_setBank (u := .x) h hb (by decide)) (cursorOk_zero _)
      (by decide)
  | d => exact inv_setBank (u := .d) h hb (by decide)

/-- R192, R194: a window of MEM with room for the headers, carved into them and the user data. -/
theorem inv_carve {s : State} {win : Window} {b : Bank} (h : s.Inv) (hb : bankOk b)
    (hwin : win.base.toNat + win.size.toNat ≤ s.mem.size)
    (hroom : Config.phBytes + b.secSize ≤ win.size.toNat) : (carve win b s).Inv := by
  obtain ⟨-, hmax⟩ := h.memSize
  unfold Config.phBytes at hroom
  unfold Config.memBytesMax at hmax
  refine inv_setAssembler h hb (cursorOk_attached (by unfold Config.phBytes; omega)) fun _ => ?_
  simp only [attached, BitVec.toNat_ofNat, Config.phBytes]
  omega

end Sys2Proof.Machine
end

section
/-! What the procedures of the commands keep of a cursor, of MEM and of a bank (R24, R28, R66, R105). -/

namespace Sys2Proof.Machine

/-- R105, R113: a cursor keeps its window and position when its flag is set. -/
theorem cursorOn_setBad_any (cu : Cursor) : cursorOn cu cu.setBad where
  base := rfl
  csize := rfl
  le := Nat.le_refl _
  room := id
  stuck hb := by
    obtain ⟨_, _, _, _⟩ := cu
    cases hb
    rfl

/-- R143: the puts of a legal field file. -/
theorem serFields_wentOn {fd : Vector FieldDesc 16} {fv : Vector Word 16} {l : List (Fin 16)}
    {mc mc' : Memory × Cursor} (hd : ∀ f : Fin 16, descOk fd[f]) (h : serFields fd fv l mc = .ok mc') :
    wentOn mc mc' := by
  rw [serFields_eq] at h
  refine putSeq_wentOn (fun p hp => ?_) h
  obtain ⟨f, -, rfl⟩ := List.mem_map.1 hp
  exact (fieldPut_legal fv (hd f)).1

/-- R194: the puts of the idle fill. -/
theorem fillIdle_wentOn {idle : IdleCfg} {k j : Nat} {mc mc' : Memory × Cursor}
    (h : fillIdle idle k j mc = .ok mc') : wentOn mc mc' := by
  rw [fillIdle_eq] at h
  refine putSeq_wentOn (fun p hp => ?_) h
  obtain ⟨n, -, rfl⟩ := List.mem_map.1 hp
  exact (idlePut_legal idle n).1

/-- R165: headers stored in MEM where there is room for them. -/
theorem hdrStore_keeps {b : Bank} {base : Nat} {m m' : Memory} (hroom : base + 6 + b.secSize ≤ m.size)
    (h : hdrStore b base m = .ok m') : m'.size = m.size ∧ (m.wf → m'.wf) := by
  obtain ⟨x, hx, -, hsize, -, hwf⟩ := hdrStore_spec hroom
  rw [hx] at h
  cases h
  exact ⟨hsize, hwf⟩

/-- R165: headers loaded from MEM. -/
theorem bankOk_hdrLoad {b b' : Bank} {base : Nat} {m : Memory} (hroom : base + 6 + b.secSize ≤ m.size)
    (hb : bankOk b) (h : hdrLoad b base m = .ok b') : bankOk b' := by
  obtain ⟨ht, ha, -, -⟩ := hb
  obtain ⟨x, hx, -, -, -, hok⟩ := hdrLoad_spec hroom ht ha
  rw [hx] at h
  cases h
  exact hok

end Sys2Proof.Machine
end

section
/-! What a command can do, said once (R20, R260, R262): it is refused, or it completes with one of the
updates of the state listed in `Completes`. Each command is sorted into that list here; no later proof
opens an `exec…` again. -/

namespace Sys2Proof.Machine

/-- R194: the window of an idle packet, carved before the fill. -/
def carveIdle (win : Window) (s : State) : State :=
  carve win { Bank.cleared 0 0 with apid := Config.idleApid } s

/-- The updates of the state that a command can complete with. A command that is not named is tied to its
update by the writer tables (R52, R66, R86). What an update keeps of the invariants holds in a state that
meets them, since only there every window lies in MEM. -/
inductive Completes (s : State) : Instr → State → Prop
  /-- `NOP`. -/
  | nothing : Completes s .nop s
  /-- A value replied in `DOUT`. -/
  | replied {i : Instr} (v : Word) (hi : replies i = true) : Completes s i { s with dout := v }
  /-- Puts through a cursor. -/
  | wrote {i : Instr} (c : CurSel) (m : Memory) (cu : Cursor) (hm : writesMem i = true)
      (hc : writesCur c i = true) (hw : s.Inv → wentOn (s.mem, s.cur c) (m, cu)) :
      Completes s i (({ s with mem := m } : State).setCur c cu)
  /-- A get into `DOUT`. -/
  | got {i : Instr} (c : CurSel) (cu : Cursor) (v : Word) (hi : replies i = true)
      (hc : writesCur c i = true) (hcu : s.Inv → cursorOn (s.cur c) cu) :
      Completes s i (({ s with dout := v } : State).setCur c cu)
  /-- Gets into the field values. -/
  | gotValues {i : Instr} (c : CurSel) (cu : Cursor) (fv : Vector Word 16) (hi : writesFv i = true)
      (hc : writesCur c i = true) (hcu : s.Inv → cursorOn (s.cur c) cu)
      (hv : s.Inv → ∀ f : Fin 16, fv[f].toNat < 2 ^ s.fd[f].w.toNat) :
      Completes s i (({ s with fv := fv } : State).setCur c cu)
  /-- Gets into a bank. -/
  | gotBank {i : Instr} (u : BankSel) (b : Bank) (c : CurSel) (cu : Cursor) (hi : writesBank u i = true)
      (hc : writesCur c i = true) (ht : b.tcb = (s.bank u).tcb) (ha : b.ancb = (s.bank u).ancb)
      (hcu : s.Inv → cursorOn (s.cur c) cu) (hb : s.Inv → bankOk b) :
      Completes s i ((s.setBank u b).setCur c cu)
  /-- `CUR.ATTACH`. -/
  | curAttach (c : CurSel) (win : Window) (hc : c ≠ .aw)
      (hwin : win.base.toNat + win.size.toNat ≤ s.mem.size) :
      Completes s (.curAttach c win) (s.setCur c (attached win.base.toNat win.size.toNat))
  /-- Field values computed. -/
  | setValues {i : Instr} (fv : Vector Word 16) (hi : writesFv i = true)
      (hv : s.Inv → ∀ f : Fin 16, fv[f].toNat < 2 ^ s.fd[f].w.toNat) :
      Completes s i { s with fv := fv }
  /-- `FLD.CFG`. -/
  | fldCfg (sz : Size) (le : Bool) (w : BitVec 7) (f : Fin 16) (hd : descOk { w := w, sz := sz, le := le })
      (hw : w ≠ 0) : Completes s (.fldCfg sz le w f)
        (({ s with fd := s.fd.set f { w := w, sz := sz, le := le } } : State).setFv f 0)
  /-- `FLD.NFLD`. -/
  | fldNfld (n : Fin 17) (hcfg : ∀ f ∈ (List.finRange 16).take n, s.fd[f].w ≠ 0) :
      Completes s (.fldNfld n) { s with nfld := BitVec.ofNat 5 n }
  /-- The value registers of a bank, its widths kept. -/
  | setBank {i : Instr} (u : BankSel) (b : Bank) (hi : writesBank u i = true)
      (ht : b.tcb = (s.bank u).tcb) (ha : b.ancb = (s.bank u).ancb) (hb : s.Inv → bankOk b) :
      Completes s i (s.setBank u b)
  /-- `HDR.CFGSH`. -/
  | hdrCfgsh (u : BankSel) (tcb ancb : BitVec 4) (ht : tcb.toNat ≤ 8) (ha : ancb.toNat ≤ 8) :
      Completes s (.hdrCfgsh u tcb ancb) (resetUnit (s.setBank u (Bank.cleared tcb ancb)) u)
  /-- `ASM.CFGIDLE`. -/
  | asmCfgidle (sz : Size) (v : Word) :
      Completes s (.asmCfgidle sz v) { s with idle := { pat := v &&& mask (sizeBits sz), ps := sz } }
  /-- `ASM.BEGIN`. -/
  | asmBegin (win : Window) (hwin : win.base.toNat + win.size.toNat ≤ s.mem.size)
      (hroom : Config.phBytes + s.bankA.secSize ≤ win.size.toNat) :
      Completes s (.asmBegin win) (carve win (Bank.cleared s.bankA.tcb s.bankA.ancb) s)
  /-- `ASM.BEGINIDLE`: the window is carved, and the fill goes through `AW`. -/
  | asmBeginidle (win : Window) (m : Memory) (cu : Cursor)
      (hwin : win.base.toNat + win.size.toNat ≤ s.mem.size) (hroom : Config.phBytes ≤ win.size.toNat)
      (hw : wentOn (s.mem, (carveIdle win s).cur .aw) (m, cu)) :
      Completes s (.asmBeginidle win) (({ carveIdle win s with mem := m } : State).setCur .aw cu)
  /-- `ASM.FINALIZE`: headers stored in MEM, and two registers of bank A. -/
  | asmFinalize (b : Bank) (m : Memory) (ht : b.tcb = s.bankA.tcb) (ha : b.ancb = s.bankA.ancb)
      (hb : s.Inv → bankOk b) (hm : s.Inv → m.size = s.mem.size ∧ (s.mem.wf → m.wf)) :
      Completes s .asmFinalize (({ s with mem := m } : State).setBank .a b)
  /-- `EXT.OPEN`: bank X loaded from MEM, and `XR` attached. -/
  | extOpen (win : Window) (b : Bank) (cu : Cursor) (ht : b.tcb = s.bankX.tcb) (ha : b.ancb = s.bankX.ancb)
      (hb : s.Inv → bankOk b) (hcu : cursorOk s.mem.size cu) :
      Completes s (.extOpen win) ((s.setBank .x b).setCur .xr cu)
  /-- `DIS.FROMBUF`: bank D and the values loaded from MEM. -/
  | disFrombuf (win : Window) (b : Bank) (fv : Vector Word 16) (ht : b.tcb = s.bankD.tcb)
      (ha : b.ancb = s.bankD.ancb) (hb : s.Inv → bankOk b)
      (hv : s.Inv → ∀ f : Fin 16, fv[f].toNat < 2 ^ s.fd[f].w.toNat) :
      Completes s (.disFrombuf win) (({ s with fv := fv } : State).setBank .d b)
  /-- `DIS.TOBUF`: a packet stored in MEM. -/
  | disTobuf (win : Window) (m : Memory) (hm : s.Inv → m.size = s.mem.size ∧ (s.mem.wf → m.wf)) :
      Completes s (.disTobuf win) { s with mem := m }

/-- R262: refused, with `LAST` and one bit of `ESR` written and nothing else. -/
def Refused (s t : State) : Prop := ∃ st : Status, st ≠ .ok ∧ t = recordStatus st s

/-- A result of command `i` from state `s`, where it is a next state: a refusal or a completion. -/
def Ends (i : Instr) (s : State) (r : Result) : Prop :=
  ∀ t, r = .next t → Refused s t ∨ ∃ u, Completes s i u ∧ t = recordStatus .ok u

/-! ### Rules for the ways a command ends -/

section
variable {i : Instr} {s : State}

theorem ends_refuse {st : Status} (hst : st ≠ .ok) : Ends i s (refuse st s) := by
  rintro t ⟨⟩
  exact .inl ⟨st, hst, rfl⟩

theorem ends_complete {u : State} (h : Completes s i u) : Ends i s (complete u) := by
  rintro t ⟨⟩
  exact .inr ⟨u, h, rfl⟩

theorem ends_reply {v : Word} (h : replies i = true) : Ends i s (reply v s) :=
  ends_complete (.replied v h)

/-- R88, R266: a check made before the rest of the command. -/
theorem ends_guard {p : Prop} [Decidable p] {st : Status} {r : Result} (hst : st ≠ .ok)
    (h : ¬ p → Ends i s r) : Ends i s (if p then refuse st s else r) := by
  split
  next => exact ends_refuse hst
  next hp => exact h hp

theorem ends_completeWith {α : Type} {r : Except Fault α} {k : α → State}
    (h : ∀ x, r = .ok x → Completes s i (k x)) : Ends i s (completeWith r k) := by
  cases r with
  | ok x => exact ends_complete (h x rfl)
  | error f => rintro t ⟨⟩

theorem ends_writer {c : CurSel} {proc : Memory × Cursor → Except Fault (Memory × Cursor)}
    (hm : writesMem i = true) (hc : writesCur c i = true)
    (h : s.Inv → ∀ mc', proc (s.mem, s.cur c) = .ok mc' → wentOn (s.mem, s.cur c) mc') :
    Ends i s (throughWriter s c proc) :=
  ends_completeWith fun mc hmc => .wrote c mc.1 mc.2 hm hc fun hs => h hs mc hmc

end

/-! ### The checks of a command, read -/

theorem inMem_of_not {s : State} {win : Window} (h : ¬ (!inMem s win) = true) :
    win.base.toNat + win.size.toNat ≤ s.mem.size := by
  simpa [inMem] using h

/-- R107: a put or a get that passes the check is one of whole octets if it is little-endian. -/
theorem octets_of_not_leIllegal {le : Bool} {w : Nat} (h : ¬ leIllegal le w = true) :
    le = true → w % 8 = 0 := by
  simpa [leIllegal] using h

/-- R132: a shape that `FLD.CFG` accepts. -/
theorem descOk_of_not_badShape {sz : Size} {le : Bool} {w : BitVec 7} (h : ¬ badShape sz le w = true) :
    w ≠ 0 ∧ descOk { w := w, sz := sz, le := le } := by
  simp only [badShape, Bool.or_eq_true, decide_eq_true_eq, not_or, Nat.not_lt] at h
  obtain ⟨⟨hw, hsz⟩, hle⟩ := h
  exact ⟨hw, hsz, octets_of_not_leIllegal hle⟩

/-- R24: in a state that meets the invariants a cursor's window lies in MEM. -/
theorem State.Inv.window {s : State} (h : s.Inv) (c : CurSel) :
    (s.cur c).base.toNat + (s.cur c).size.toNat ≤ s.mem.size := (h.cursors c).1

/-! ### The bit cursors (41_bitcursor.md) -/

section
variable (s : State)

theorem ends_curAttach (c : CurSel) (win : Window) : Ends (.curAttach c win) s (execCurAttach c win s) :=
  ends_guard (by decide) fun hrole => ends_guard (by decide) fun hwin =>
    ends_complete (.curAttach c win (by rintro rfl; exact hrole rfl) (inMem_of_not hwin))

theorem ends_curPut (sz : Size) (le : Bool) (w : BitVec 7) (c : CurSel) (v : Word) :
    Ends (.curPut sz le w c v) s (execCurPut sz le w c v s) :=
  ends_guard (by decide) fun _ => ends_guard (by decide) fun hle =>
    ends_writer rfl (by simp [writesCur]) fun _ _ h =>
      putProc_wentOn (sizeBits_le sz) (octets_of_not_leIllegal hle) h

theorem ends_curGet (sz : Size) (le : Bool) (w : BitVec 7) (c : CurSel) :
    Ends (.curGet sz le w c) s (execCurGet sz le w c s) :=
  ends_guard (by decide) fun _ => ends_guard (by decide) fun _ =>
    ends_completeWith fun rc h => .got c rc.2 (rc.1.getD s.dout) rfl (by simp [writesCur])
      fun hs => getProc_cursorOn (hs.window c) h

theorem ends_curAppend (dst src : CurSel) : Ends (.curAppend dst src) s (execCurAppend dst src s) := by
  refine ends_guard (by decide) fun _ => ?_
  have hc : writesCur dst (.curAppend dst src) = true := by simp [writesCur]
  split
  next =>
    have hstill : wentOn (s.mem, s.cur dst) (s.mem, (s.cur dst).setBad) :=
      ⟨cursorOn_setBad_any _, rfl, fun _ => rfl, fun _ _ => rfl, id⟩
    exact ends_complete (.wrote dst s.mem _ rfl hc fun _ => hstill)
  next => exact ends_writer rfl hc fun _ _ h => appendStream_wentOn h

/-! ### The field file (42_field.md) -/

theorem ends_fldCfg (sz : Size) (le : Bool) (w : BitVec 7) (f : Fin 16) :
    Ends (.fldCfg sz le w f) s (execFldCfg sz le w f s) :=
  ends_guard (by decide) fun hshape =>
    have ⟨hw, hd⟩ := descOk_of_not_badShape hshape
    ends_complete (.fldCfg sz le w f hd hw)

theorem ends_fldNfld (n : Fin 17) : Ends (.fldNfld n) s (execFldNfld n s) :=
  ends_guard (by decide) fun hcfg => ends_complete (.fldNfld n (by simpa [unconfigured] using hcfg))

/-- A field command that checks the shape and sets one value. -/
theorem completes_setFv {i : Instr} (hi : writesFv i = true) (f : Fin 16) (v : Word)
    (hv : s.Inv → v.toNat < 2 ^ s.fd[f].w.toNat) : Completes s i (s.setFv f v) :=
  .setValues (s.fv.set f v) hi fun hs => values_set hs.values (hv hs)

theorem ends_fldSet (f : Fin 16) (v : Word) : Ends (.fldSet f v) s (execFldSet f v s) :=
  ends_guard (by decide) fun _ =>
    ends_complete (completes_setFv s rfl f _ fun _ => toNat_and_mask_lt _ _)

theorem ends_fldGet (f : Fin 16) : Ends (.fldGet f) s (execFldGet f s) :=
  ends_guard (by decide) fun _ => ends_reply rfl

theorem ends_fldInc (f : Fin 16) : Ends (.fldInc f) s (execFldInc f s) :=
  ends_guard (by decide) fun _ =>
    ends_complete (completes_setFv s rfl f _ fun _ => toNat_and_mask_lt _ _)

theorem ends_fldDec (f : Fin 16) : Ends (.fldDec f) s (execFldDec f s) :=
  ends_guard (by decide) fun _ =>
    ends_complete (completes_setFv s rfl f _ fun _ => toNat_and_mask_lt _ _)

theorem ends_fldGetbit (b : BitVec 7) (f : Fin 16) : Ends (.fldGetbit b f) s (execFldGetbit b f s) :=
  ends_guard (by decide) fun _ => ends_guard (by decide) fun _ => ends_reply rfl

theorem ends_fldSetbit (b : BitVec 7) (f : Fin 16) (bit : Bool) :
    Ends (.fldSetbit b f bit) s (execFldSetbit b f bit s) :=
  ends_guard (by decide) fun _ => ends_guard (by decide) fun hb =>
    ends_complete (completes_setFv s rfl f _ fun hs => setBit_lt bit (hs.values f) (Nat.lt_of_not_le hb))

theorem ends_fldSer (c : CurSel) (f : Fin 16) : Ends (.fldSer c f) s (execFldSer c f s) :=
  ends_guard (by decide) fun _ => ends_guard (by decide) fun _ =>
    ends_writer rfl (by simp [writesCur]) fun hs _ h =>
      putProc_wentOn (sizeBits_le _) (hs.descs f).2 h

theorem ends_fldDes (c : CurSel) (f : Fin 16) : Ends (.fldDes c f) s (execFldDes c f s) := by
  refine ends_guard (by decide) fun _ => ends_guard (by decide) fun _ => ends_completeWith fun rc h => ?_
  have hvalue : s.Inv → (rc.1.getD s.fv[f]).toNat < 2 ^ s.fd[f].w.toNat := fun hs => by
    obtain ⟨r, cu⟩ := rc
    cases r with
    | none => exact hs.values f
    | some v => exact getProc_value (sizeBits_le _) (hs.descs f).2 (hs.window c) h
  exact .gotValues c rc.2 _ rfl (by simp [writesCur]) (fun hs => getProc_cursorOn (hs.window c) h)
    fun hs => values_set hs.values (hvalue hs)

theorem ends_colSer (c : CurSel) : Ends (.colSer c) s (execColSer c s) :=
  ends_guard (by decide) fun _ =>
    ends_writer rfl (by simp [writesCur]) fun hs _ h => serFields_wentOn hs.descs h

theorem ends_colDes (c : CurSel) : Ends (.colDes c) s (execColDes c s) :=
  ends_guard (by decide) fun _ => ends_completeWith fun vc h =>
    .gotValues c vc.2 vc.1 rfl (by simp [writesCur]) (fun hs => (desFields_keeps (hs.window c) h).1)
      fun hs => (desFields_keeps (hs.window c) h).2.2 (fun f _ => hs.descs f) hs.values

/-! ### The header banks (43_header.md) -/

theorem ends_hdrCfgsh (u : BankSel) (tcb ancb : BitVec 4) :
    Ends (.hdrCfgsh u tcb ancb) s (execHdrCfgsh u tcb ancb s) :=
  ends_guard (by decide) fun h => by
    simp only [Bool.or_eq_true, decide_eq_true_eq, not_or, Nat.not_lt] at h
    exact ends_complete (.hdrCfgsh u tcb ancb h.1 h.2)

theorem ends_hdrSet (u : BankSel) (fld : HdrField) (v : Word) :
    Ends (.hdrSet u fld v) s (execHdrSet u fld v s) :=
  ends_complete (.setBank u _ (by simp [writesBank]) (put_tcb _ _ _) (put_ancb _ _ _)
    fun hs => bankOk_put (hs.banks u) (toNat_and_mask_lt _ _))

theorem ends_hdrSetlenoct (u : BankSel) (v : Word) : Ends (.hdrSetlenoct u v) s (execHdrSetlenoct u v s) :=
  ends_guard (by decide) fun _ =>
    ends_complete (.setBank u _ (by simp [writesBank]) rfl rfl fun hs => hs.banks u)

/-- A header layout put through a writer (R162, R164). -/
theorem ends_serHeader {i : Instr} {b : Bank} {l : List (HdrField × Nat × Nat)} {c : CurSel}
    (hm : writesMem i = true) (hc : writesCur c i = true) (hl : ∀ p ∈ l.map (headerPut b), p.legal) :
    Ends i s (throughWriter s c (serHeader b l)) :=
  ends_writer hm hc fun _ _ h => putSeq_wentOn hl (serHeader_eq b l _ ▸ h)

theorem ends_phSer (u : BankSel) (c : CurSel) : Ends (.phSer u c) s (execPhSer u c s) :=
  ends_guard (by decide) fun _ =>
    ends_serHeader s rfl (by simp [writesCur]) fun p hp => (phLayout_legal _ p hp).1

theorem ends_shSer (u : BankSel) (c : CurSel) : Ends (.shSer u c) s (execShSer u c s) :=
  ends_guard (by decide) fun _ => ends_serHeader s rfl (by simp [writesCur]) (shLayout_legal _)

/-- A header layout got through a reader into a bank (R163, R164). -/
theorem ends_desHeader {i : Instr} {u : BankSel} {l : List (HdrField × Nat × Nat)} {c : CurSel}
    (hi : writesBank u i = true) (hc : writesCur c i = true)
    (hl : ∀ e ∈ l, e.2.1 = hdrWidth (s.bank u) e.1 ∧ e.2.2 ≤ 64) :
    Ends i s (completeWith (desHeader s.mem l (s.bank u, s.cur c)) fun bc =>
      (s.setBank u bc.1).setCur c bc.2) :=
  ends_completeWith fun bc h =>
    have ⟨ht, ha⟩ := desHeader_widths h
    .gotBank u bc.1 c bc.2 hi hc ht ha (fun hs => (desHeader_keeps (hs.window c) h).1)
      fun hs => bankOk_desHeader hl (hs.banks u) (hs.window c) h

theorem ends_phDes (u : BankSel) (c : CurSel) : Ends (.phDes u c) s (execPhDes u c s) :=
  ends_guard (by decide) fun _ =>
    ends_desHeader s (by simp [writesBank]) (by simp [writesCur]) (phLayout_widths _)

theorem ends_shDes (u : BankSel) (c : CurSel) : Ends (.shDes u c) s (execShDes u c s) :=
  ends_guard (by decide) fun _ =>
    ends_desHeader s (by simp [writesBank]) (by simp [writesCur]) (shLayout_widths _)

/-! ### The packet units (44_assembler.md to 46_dissector.md) -/

theorem ends_asmBegin (win : Window) : Ends (.asmBegin win) s (execAsmBegin win s) :=
  ends_guard (by decide) fun hwin => ends_guard (by decide) fun hroom =>
    ends_complete (.asmBegin win (inMem_of_not hwin) (Nat.le_of_not_lt hroom))

theorem ends_asmBeginidle (win : Window) : Ends (.asmBeginidle win) s (execAsmBeginidle win s) :=
  ends_guard (by decide) fun hwin => ends_guard (by decide) fun hroom =>
    ends_completeWith fun mc h =>
      .asmBeginidle win mc.1 mc.2 (inMem_of_not hwin) (Nat.le_of_not_lt hroom) (fillIdle_wentOn h)

theorem ends_asmFinalize : Ends .asmFinalize s (execAsmFinalize s) := by
  refine ends_guard (by decide) fun hactive => ends_completeWith fun m h => ?_
  refine .asmFinalize (finalizedBank s.bankA (s.bankA.secSize + s.userBytes)) m rfl rfl
    (fun hs => hs.banks .a) fun hs => hdrStore_keeps ?_ h
  obtain ⟨hwin, -, hsize⟩ := hs.asm (by simpa using hactive)
  show s.asm.base.toNat + 6 + s.bankA.secSize ≤ s.mem.size
  omega

theorem ends_extOpen (win : Window) : Ends (.extOpen win) s (execExtOpen win s) := by
  refine ends_guard (by decide) fun hwin => ends_guard (by decide) fun hroom =>
    ends_completeWith fun b h => ?_
  have hwin := inMem_of_not hwin
  unfold Config.phBytes at hroom
  have hfit : win.base.toNat + 6 + s.bankX.secSize ≤ s.mem.size := by omega
  obtain ⟨ht, ha⟩ := hdrLoad_widths h
  exact .extOpen win b _ ht ha (fun hs => bankOk_hdrLoad hfit (hs.banks .x) h)
    (cursorOk_attached (by unfold Config.phBytes; omega))

/-- R232, R233: a window that the dissector accepts holds the headers and the user data. -/
theorem dissector_room {win : Window} (hwin : win.base.toNat + win.size.toNat ≤ s.mem.size)
    (hroom : ¬ win.size.toNat < s.dsize) : win.base.toNat + 6 + s.bankD.secSize ≤ s.mem.size ∧
      (userCursor s win).base.toNat + (userCursor s win).size.toNat ≤ s.mem.size := by
  unfold State.dsize Config.phBytes at hroom
  have hcu : cursorOk s.mem.size (userCursor s win) :=
    cursorOk_attached (by unfold Config.phBytes; omega)
  exact ⟨by omega, hcu.1⟩

theorem ends_disFrombuf (win : Window) : Ends (.disFrombuf win) s (execDisFrombuf win s) := by
  refine ends_guard (by decide) fun _ => ends_guard (by decide) fun hwin =>
    ends_guard (by decide) fun hroom => ends_completeWith fun bv h => ?_
  obtain ⟨hfit, hcu⟩ := dissector_room s (inMem_of_not hwin) hroom
  obtain ⟨b, hload, h⟩ := bind_ok.1 h
  obtain ⟨⟨fv, cu⟩, hdes, h⟩ := bind_ok.1 h
  cases h
  obtain ⟨ht, ha⟩ := hdrLoad_widths hload
  exact .disFrombuf win b fv ht ha (fun hs => bankOk_hdrLoad hfit (hs.banks .d) hload)
    fun hs => (desFields_keeps hcu hdes).2.2 (fun f _ => hs.descs f) hs.values

theorem ends_disTobuf (win : Window) : Ends (.disTobuf win) s (execDisTobuf win s) := by
  refine ends_guard (by decide) fun _ => ends_guard (by decide) fun hwin =>
    ends_guard (by decide) fun hroom => ends_completeWith fun mc h => ?_
  obtain ⟨hfit, -⟩ := dissector_room s (inMem_of_not hwin) hroom
  obtain ⟨m, hstore, hser⟩ := bind_ok.1 h
  refine .disTobuf win mc.1 fun hs => ?_
  obtain ⟨hsize, hwf⟩ := hdrStore_keeps hfit hstore
  have hon := serFields_wentOn hs.descs hser
  exact ⟨hon.size.trans hsize, fun hm => hon.wf (hwf hm)⟩

theorem ends_disFinalize : Ends .disFinalize s (execDisFinalize s) :=
  ends_guard (by decide) fun _ =>
    ends_complete (.setBank .d (finalizedBank s.bankD _) rfl rfl rfl fun hs => hs.banks .d)

theorem ends_disSize : Ends .disSize s (execDisSize s) :=
  ends_guard (by decide) fun _ => ends_reply rfl

/-- Every command that answers a next state is refused, or completes with one of the updates. -/
theorem exec_ends (i : Instr) : Ends i s (exec i s) := by
  cases i with
  | nop => exact ends_complete .nothing
  | curAttach c win => exact ends_curAttach s c win
  | curPut sz le w c v => exact ends_curPut s sz le w c v
  | curGet sz le w c => exact ends_curGet s sz le w c
  | curAppend dst src => exact ends_curAppend s dst src
  | fldCfg sz le w f => exact ends_fldCfg s sz le w f
  | fldNfld n => exact ends_fldNfld s n
  | fldSet f v => exact ends_fldSet s f v
  | fldGet f => exact ends_fldGet s f
  | fldInc f => exact ends_fldInc s f
  | fldDec f => exact ends_fldDec s f
  | fldGetbit b f => exact ends_fldGetbit s b f
  | fldSetbit b f bit => exact ends_fldSetbit s b f bit
  | fldSer c f => exact ends_fldSer s c f
  | fldDes c f => exact ends_fldDes s c f
  | colSer c => exact ends_colSer s c
  | colDes c => exact ends_colDes s c
  | hdrCfgsh u tcb ancb => exact ends_hdrCfgsh s u tcb ancb
  | hdrSet u fld v => exact ends_hdrSet s u fld v
  | hdrSetlenoct u v => exact ends_hdrSetlenoct s u v
  | phSer u c => exact ends_phSer s u c
  | phDes u c => exact ends_phDes s u c
  | shSer u c => exact ends_shSer s u c
  | shDes u c => exact ends_shDes s u c
  | asmBegin win => exact ends_asmBegin s win
  | asmBeginidle win => exact ends_asmBeginidle s win
  | asmCfgidle sz v => exact ends_complete (.asmCfgidle sz v)
  | asmFinalize => exact ends_asmFinalize s
  | extOpen win => exact ends_extOpen s win
  | disFrombuf win => exact ends_disFrombuf s win
  | disTobuf win => exact ends_disTobuf s win
  | disFinalize => exact ends_disFinalize s
  | disSize => exact ends_disSize s
  | sysEsr | curPos | curBytes | curBad | curCap | fldWidth | colWidth | hdrGet | hdrLenoct | hdrIsidle
  | hdrIsvalid | asmSize | asmValid => exact ends_reply rfl

end

/-- What a command that answers a next state has done. -/
theorem exec_cases {i : Instr} {s t : State} (h : exec i s = .next t) :
    Refused s t ∨ ∃ u, Completes s i u ∧ t = recordStatus .ok u :=
  exec_ends s i t h

end Sys2Proof.Machine
end

section
/-! The invariants along every command (R24, R28, R31, R34 to R36): each update of `Completes` keeps them. -/

namespace Sys2Proof.Machine

/-- R194: the bank of an idle packet. -/
theorem bankOk_idle : bankOk { Bank.cleared 0 0 with apid := Config.idleApid } := by
  unfold bankOk
  decide

/-- An update keeps the invariants: each register that it writes takes a legal value. -/
theorem Completes.inv {s u : State} {i : Instr} (h : Completes s i u) (hs : s.Inv) : u.Inv := by
  have hdout : ∀ v, ({ s with dout := v } : State).Inv := fun v =>
    inv_unconstrained hs v s.input s.pos s.rsp s.freeNext
  cases h with
  | nothing => exact hs
  | replied v => exact hdout v
  | wrote c m cu hm hc hw => exact inv_setWriter hs (hw hs)
  | got c cu v hi hc hcu => exact inv_setCur (hdout v) (hcu hs)
  | gotValues c cu fv hi hc hcu hv => exact inv_setCur (inv_values hs (hv hs)) (hcu hs)
  | gotBank w b c cu hi hc ht ha hcu hb =>
    exact inv_setCur (inv_bank hs (hb hs) ht ha) (by rw [setBank_cur]; exact hcu hs)
  | curAttach c win hc hwin => exact inv_attach hs (cursorOk_attached hwin) hc
  | setValues fv hi hv => exact inv_values hs (hv hs)
  | fldCfg sz le w f hd hw => exact inv_setField hs hd hw
  | fldNfld n hcfg =>
    have hn : (BitVec.ofNat 5 n).toNat = n := by
      rw [BitVec.toNat_ofNat]
      omega
    exact inv_setNfld hs (by omega) (by rw [hn]; exact hcfg)
  | setBank w b hi ht ha hb => exact inv_bank hs (hb hs) ht ha
  | hdrCfgsh w tcb ancb ht ha => exact inv_resetUnit w hs ht ha
  | asmCfgidle sz v => exact inv_setIdle hs (toNat_and_mask_lt v _)
  | asmBegin win hwin hroom =>
    obtain ⟨ht, ha, -, -⟩ := hs.banks .a
    exact inv_carve hs (bankOk_cleared ht ha) hwin hroom
  | asmBeginidle win m cu hwin hroom hw =>
    exact inv_setWriter (s := carveIdle win s) (inv_carve hs bankOk_idle hwin hroom) hw
  | asmFinalize b m ht ha hb hm =>
    obtain ⟨hsize, hwf⟩ := hm hs
    exact inv_bank (inv_setMem hs hsize hwf) (hb hs) ht ha
  | extOpen win b cu ht ha hb hcu =>
    exact inv_attach (inv_bank hs (hb hs) ht ha) (by rw [setBank_mem]; exact hcu) (by decide)
  | disFrombuf win b fv ht ha hb hv => exact inv_bank (inv_values hs (hv hs)) (hb hs) ht ha
  | disTobuf win m hm =>
    obtain ⟨hsize, hwf⟩ := hm hs
    exact inv_setMem hs hsize hwf

/-- Every command keeps the invariants, refused or not. -/
theorem exec_inv {i : Instr} {s t : State} (hs : s.Inv) (h : exec i s = .next t) : t.Inv := by
  obtain ⟨st, -, rfl⟩ | ⟨u, hu, rfl⟩ := exec_cases h
  · exact inv_recordStatus st hs
  · exact inv_recordStatus .ok (hu.inv hs)

end Sys2Proof.Machine
end

section
/-! A cursor keeps its window and only advances, except by a re-attach (R24, R105). -/

namespace Sys2Proof.Machine

/-- A cursor replaced by one that has moved in its window: every cursor is as `cursorOn` says. -/
theorem cursorOn_setCur {s : State} {c : CurSel} {cu : Cursor} (h : cursorOn (s.cur c) cu) (d : CurSel) :
    cursorOn (s.cur d) ((s.setCur c cu).cur d) := by
  rw [setCur_cur]
  split
  next hd => exact hd ▸ h
  next => exact .refl _

/-- An update leaves each cursor that it does not re-attach alone, or moves it by puts or gets. -/
theorem Completes.cursors {s u : State} {i : Instr} {c : CurSel} (h : Completes s i u) (hs : s.Inv)
    (hc : reattaches c i = false) : cursorOn (s.cur c) (u.cur c) := by
  have hsame : ∀ {cu}, cu = s.cur c → cursorOn (s.cur c) cu := fun e => e ▸ .refl _
  cases h with
  | wrote d m cu hm hd hw => exact cursorOn_setCur (s := { s with mem := m }) (hw hs).cursor c
  | got d cu v hi hd hcu => exact cursorOn_setCur (s := { s with dout := v }) (hcu hs) c
  | gotValues d cu fv hi hd hcu hv => exact cursorOn_setCur (s := { s with fv := fv }) (hcu hs) c
  | gotBank w b d cu hi hd ht ha hcu hb =>
    have := cursorOn_setCur (s := s.setBank w b) (c := d) (by rw [setBank_cur]; exact hcu hs) c
    rwa [setBank_cur] at this
  | curAttach d win hd hwin =>
    have hne : c ≠ d := by rintro rfl; simp [reattaches] at hc
    exact hsame (setCur_cur_other _ _ _ hne)
  | hdrCfgsh => exact hsame (by rw [resetUnit_cur _ _ hc, setBank_cur])
  | asmBegin | asmBeginidle =>
    cases c with
    | aw => cases hc
    | xr | g2 | g3 => exact .refl _
  | extOpen =>
    cases c with
    | xr => cases hc
    | aw | g2 | g3 => exact .refl _
  | setBank | asmFinalize | disFrombuf => exact hsame (setBank_cur _ _ _ _)
  | nothing | replied | setValues | fldCfg | fldNfld | asmCfgidle | disTobuf => exact .refl _

theorem exec_cursorOn {i : Instr} {s t : State} {c : CurSel} (hs : s.Inv) (h : exec i s = .next t)
    (hc : reattaches c i = false) : cursorOn (s.cur c) (t.cur c) := by
  obtain ⟨st, -, rfl⟩ | ⟨u, hu, rfl⟩ := exec_cases h
  · rw [recordStatus_cur]; exact .refl _
  · rw [recordStatus_cur]; exact hu.cursors hs hc

/-- Settles O13: a command that does not re-attach a cursor leaves it alone or moves it by puts or gets,
which `cursorOn` describes; the bound on its position is that of the invariants before the command. -/
theorem cursorsOnlyAdvance : Obligations.CursorsOnlyAdvance := by
  intro i s t c hs h hc
  have hon := exec_cursorOn hs h hc
  refine ⟨hon.base, hon.csize, hon.le, ?_, hon.stuck⟩
  rw [hon.csize]
  exact hon.room (hs.cursors c).2

end Sys2Proof.Machine
end

section
/-! The invariants along every move of the host (R41, R60, R72, R300), and so along every step. -/

namespace Sys2Proof.Machine

/-! ### The octets of a command that reset cuts short (R66, R300) -/

/-- R66: what a cursor passes over in its window are octets of MEM. -/
theorem cursorSpan_lt {size a : Nat} {before after : Cursor} (hok : cursorOk size before)
    (hon : cursorOn before after) (ha : a ∈ cursorSpan before after) : a < size := by
  obtain ⟨hwin, hpos⟩ := hok
  have hroom := hon.room hpos
  unfold cursorSpan at ha
  split at ha
  next => simp at ha
  next =>
    obtain ⟨-, hlt⟩ := List.mem_range'_1.1 ha
    simp only [Cursor.addr, Cursor.sizeBytes, ceilDiv] at hlt
    omega

/-- A check made before the rest of a command, where the command was not refused. -/
theorem guard_passed {p : Prop} [Decidable p] {st : Status} {s t : State} {r : Result} (hst : st ≠ .ok)
    (h : (if p then refuse st s else r) = .next t) (h0 : t.last = 0) : ¬ p ∧ r = .next t := by
  split at h
  next =>
    cases h
    have hcode : statusCode st ≠ 0 := by cases st <;> simp_all [statusCode]
    exact absurd h0 hcode
  next hp => exact ⟨hp, h⟩

/-- R60, R66: the octets that a command writes are octets of MEM. -/
theorem writtenOctets_lt {i : Instr} {s t : State} {a : Nat} (hs : s.Inv) (h : exec i s = .next t)
    (ha : a ∈ writtenOctets i s t) : a < s.mem.size := by
  have hspan : ∀ c, reattaches c i = false → a ∈ cursorSpan (s.cur c) (t.cur c) → a < s.mem.size :=
    fun c hc => cursorSpan_lt (hs.cursors c) (exec_cursorOn hs h hc)
  unfold writtenOctets at ha
  split at ha
  next => simp at ha
  next hlast =>
    have h0 : t.last = 0 := Decidable.not_not.1 hlast
    cases i with
    | curPut | curAppend | fldSer | colSer | phSer | shSer => exact hspan _ rfl ha
    | asmBeginidle win =>
      obtain ⟨hwin, h⟩ := guard_passed (by decide) h h0
      obtain ⟨hroom, -⟩ := guard_passed (by decide) h h0
      have hwin := inMem_of_not hwin
      obtain ⟨-, hlt⟩ := List.mem_range'_1.1 ha
      omega
    | asmFinalize =>
      obtain ⟨hactive, -⟩ := guard_passed (by decide) h h0
      obtain ⟨hwin, -, hsize⟩ := hs.asm (by simpa using hactive)
      obtain ⟨-, hlt⟩ := List.mem_range'_1.1 ha
      unfold Config.phBytes at hlt
      omega
    | disTobuf win =>
      obtain ⟨-, h⟩ := guard_passed (by decide) h h0
      obtain ⟨hwin, h⟩ := guard_passed (by decide) h h0
      obtain ⟨hroom, -⟩ := guard_passed (by decide) h h0
      have hwin := inMem_of_not hwin
      obtain ⟨-, hlt⟩ := List.mem_range'_1.1 ha
      omega
    | _ => simp at ha

/-- U5: free values in octets of MEM keep its size and its canonical form. -/
theorem scramble_keeps : ∀ (octets : List Nat) (n : Nat) {m : Memory}, (∀ a ∈ octets, a < m.size) →
    (scramble octets n m).size = m.size ∧ (m.wf → (scramble octets n m).wf)
  | [], _, _, _ => ⟨rfl, id⟩
  | a :: rest, n, m, h => by
    obtain ⟨hsize, hwf⟩ := scramble_keeps rest (n + 1) (m := m.set a (Config.cutOctet n))
      fun b hb => h b (List.mem_cons_of_mem a hb)
    exact ⟨hsize, fun hm => hwf (set_wf _ hm (h a List.mem_cons_self))⟩

/-- R300: what a command that reset cuts short leaves: the registers at reset, and MEM of the same size
with free values in octets of MEM. -/
theorem cutByReset_next {cw : CmdWord} {arg : Word} {s t : State} (hs : s.Inv)
    (h : cutByReset cw arg s = .next t) : ∃ octets : List Nat, (∀ a ∈ octets, a < s.mem.size) ∧
      t = State.afterReset (scramble octets s.freeNext s.mem) s.input (s.pos + 1) s.rsp
        (s.freeNext + octets.length) := by
  unfold cutByReset at h
  split at h
  next u hu =>
    cases h
    refine ⟨_, fun a ha => ?_, rfl⟩
    split at ha
    next i hi => exact writtenOctets_lt hs (runCommand_of_decode hi s ▸ hu) ha
    next => simp at ha
  next => cases h
  next => cases h

theorem cutByReset_inv {cw : CmdWord} {arg : Word} {s t : State} (hs : s.Inv)
    (h : cutByReset cw arg s = .next t) : t.Inv := by
  obtain ⟨octets, hlt, rfl⟩ := cutByReset_next hs h
  obtain ⟨hsize, hwf⟩ := scramble_keeps octets s.freeNext hlt
  exact inv_afterReset (hwf hs.memWf) (hsize ▸ hs.memSize) _ _ _ _

/-! ### Every move of the host -/

theorem runCommand_inv {cw : CmdWord} {arg : Word} {s t : State} (hs : s.Inv)
    (h : runCommand cw arg s = .next t) : t.Inv := by
  unfold runCommand at h
  split at h
  next => exact exec_inv hs h
  next => exact inv_refuse hs h

theorem acceptCommand_next {cw : CmdWord} {arg : Word} {s t : State}
    (h : acceptCommand cw arg s = .next t) :
    ∃ u, runCommand cw arg (countCommand s) = .next u ∧ t = respond u := by
  unfold acceptCommand at h
  split at h
  next u hu => cases h; exact ⟨u, hu, rfl⟩
  next => cases h
  next => cases h

theorem acceptCommand_inv {cw : CmdWord} {arg : Word} {s t : State} (hs : s.Inv)
    (h : acceptCommand cw arg s = .next t) : t.Inv := by
  obtain ⟨u, hu, rfl⟩ := acceptCommand_next h
  have hcount : (countCommand s).Inv := inv_unconstrained hs s.dout s.input (s.pos + 1) s.rsp s.freeNext
  exact inv_unconstrained (runCommand_inv hcount hu) u.dout u.input u.pos _ u.freeNext

theorem hostPoke_inv {a : Nat} {v : Byte} {s t : State} (hs : s.Inv) (h : hostPoke a v s = .next t) :
    t.Inv := by
  unfold hostPoke at h
  split at h
  next m hm =>
    cases h
    obtain ⟨ha, rfl⟩ := memWrite_ok.1 hm
    exact inv_setMem hs (set_size _ _ _) fun hwf => set_wf v hwf ha
  next => cases h

theorem hostMove_inv {mv : HostMove} {s t : State} (hs : s.Inv) (h : hostMove mv s = .next t) : t.Inv := by
  cases mv with
  | command cw arg => exact acceptCommand_inv hs h
  | poke addr v => exact hostPoke_inv hs h
  | reset => cases h; exact inv_afterReset hs.memWf hs.memSize _ _ _ _
  | resetDuring cw arg => exact cutByReset_inv hs h

/-- Settles O9: an idle step changes nothing, and every move of the host keeps the invariants, a command by
`exec_inv`. -/
theorem stepKeepsInv : Obligations.StepKeepsInv := by
  intro s t hs h
  unfold step at h
  split at h
  next => cases h; exact hs
  next mv rest _ =>
    exact hostMove_inv (inv_unconstrained hs s.dout rest s.pos s.rsp s.freeNext) h

end Sys2Proof.Machine
end

section
/-! The writer tables (R37, R52, R66, R86): what each update of `Completes` leaves unchanged, one lemma per
register. In each, the updates that write the register come first, and belong to commands that the table
names. -/

namespace Sys2Proof.Machine

section
variable {s t : State} {i : Instr} (h : Completes s i t)
include h

theorem Completes.mem (hi : writesMem i = false) : t.mem = s.mem := by
  cases h with
  | wrote c m cu hm => exact Bool.noConfusion (hi.symm.trans hm)
  | asmBeginidle | asmFinalize | disTobuf => cases hi
  | _ => simp [carve]

theorem Completes.dout (hi : replies i = false) : t.dout = s.dout := by
  cases h with
  | replied v hr | got c cu v hr => exact Bool.noConfusion (hi.symm.trans hr)
  | _ => simp [carve, carveIdle]

theorem Completes.fv (hi : writesFv i = false) : t.fv = s.fv := by
  cases h with
  | gotValues c cu fv hf | setValues fv hf => exact Bool.noConfusion (hi.symm.trans hf)
  | fldCfg | disFrombuf => cases hi
  | _ => simp [carve, carveIdle]

theorem Completes.fd (hi : writesFd i = false) : t.fd = s.fd := by
  cases h with
  | fldCfg => cases hi
  | _ => simp [carve, carveIdle]

theorem Completes.nfld (hi : writesNfld i = false) : t.nfld = s.nfld := by
  cases h with
  | fldNfld => cases hi
  | _ => simp [carve, carveIdle]

theorem Completes.idle (hi : writesIdle i = false) : t.idle = s.idle := by
  cases h with
  | asmCfgidle => cases hi
  | _ => simp [carve, carveIdle]

theorem Completes.asm (hi : writesAsm i = false) : t.asm = s.asm := by
  cases h with
  | asmBegin | asmBeginidle => cases hi
  | hdrCfgsh u tcb ancb =>
    rw [resetUnit_asm _ _ (by simpa [writesAsm] using hi), setBank_asm]
  | _ => simp

/-- R48, R51: the host's side of the ports. -/
theorem Completes.ports :
    t.input = s.input ∧ t.pos = s.pos ∧ t.rsp = s.rsp ∧ t.freeNext = s.freeNext := by
  cases h with
  | hdrCfgsh u => cases u <;> exact ⟨rfl, rfl, rfl, rfl⟩
  | _ => simp [carve, carveIdle, State.setFv]

theorem Completes.cur {c : CurSel} (hi : writesCur c i = false) : t.cur c = s.cur c := by
  have hother : ∀ {d}, writesCur d i = true → c ≠ d := by
    rintro d hd rfl
    exact Bool.noConfusion (hi.symm.trans hd)
  cases h with
  | wrote d m cu hm hd | got d cu v hr hd | gotValues d cu fv hf hd =>
    exact setCur_cur_other _ _ _ (hother hd)
  | gotBank u b d cu hb hd => rw [setCur_cur_other _ _ _ (hother hd), setBank_cur]
  | curAttach d => exact setCur_cur_other _ _ _ (hother (by simp [writesCur]))
  | hdrCfgsh u tcb ancb => rw [resetUnit_cur _ _ hi, setBank_cur]
  | asmBegin | asmBeginidle =>
    cases c with
    | aw => cases hi
    | xr | g2 | g3 => rfl
  | extOpen => rw [setCur_cur_other _ _ _ (hother rfl), setBank_cur]
  | setBank | asmFinalize | disFrombuf => exact setBank_cur _ _ _ _
  | nothing | replied | setValues | fldCfg | fldNfld | asmCfgidle | disTobuf => rfl

theorem Completes.bank {u : BankSel} (hi : writesBank u i = false) : t.bank u = s.bank u := by
  have hother : ∀ {v}, writesBank v i = true → u ≠ v := by
    rintro v hv rfl
    exact Bool.noConfusion (hi.symm.trans hv)
  cases h with
  | gotBank v b c cu hv => rw [setCur_bank, setBank_bank_other (hother hv)]
  | setBank v b hv => exact setBank_bank_other (hother hv)
  | hdrCfgsh v => rw [resetUnit_bank, setBank_bank_other (hother (by simp [writesBank]))]
  | asmBegin | asmBeginidle =>
    cases u with
    | a => cases hi
    | x | d => rfl
  | asmFinalize | disFrombuf => exact setBank_bank_other (hother rfl)
  | extOpen => rw [setCur_bank, setBank_bank_other (hother rfl)]
  | wrote | got | gotValues | curAttach => exact setCur_bank _ _ _ _
  | nothing | replied | setValues | fldCfg | fldNfld | asmCfgidle | disTobuf => rfl

theorem Completes.widths {u : BankSel} (hi : writesWidths u i = false) :
    (t.bank u).tcb = (s.bank u).tcb ∧ (t.bank u).ancb = (s.bank u).ancb := by
  cases h with
  | gotBank v b c cu hv hc ht ha => rw [setCur_bank]; exact setBank_widths ht ha u
  | setBank v b hv ht ha => exact setBank_widths ht ha u
  | asmFinalize b m ht ha => exact setBank_widths (s := { s with mem := m }) ht ha u
  | extOpen win b cu ht ha => rw [setCur_bank]; exact setBank_widths ht ha u
  | disFrombuf win b fv ht ha => exact setBank_widths (s := { s with fv := fv }) ht ha u
  | hdrCfgsh v =>
    have hne : u ≠ v := by
      rintro rfl
      simp [writesWidths] at hi
    rw [resetUnit_bank, setBank_bank_other hne]
    exact ⟨rfl, rfl⟩
  | asmBegin => cases u <;> exact ⟨rfl, rfl⟩
  | asmBeginidle =>
    cases u with
    | a => cases hi
    | x | d => exact ⟨rfl, rfl⟩
  | wrote | got | gotValues | curAttach => rw [setCur_bank]; exact ⟨rfl, rfl⟩
  | nothing | replied | setValues | fldCfg | fldNfld | asmCfgidle | disTobuf => exact ⟨rfl, rfl⟩

end

/-- Settles O15: a refused command writes `LAST` and `ESR` only; a completed one has made an update of
`Completes`, whose lemmas above are the rows of the tables. -/
theorem registerWriters : Obligations.RegisterWriters := by
  intro i s t h
  obtain ⟨st, -, rfl⟩ | ⟨t, ht, rfl⟩ := exec_cases h
  · exact ⟨fun _ => rfl, fun _ => rfl, fun _ => rfl, fun _ => rfl, fun _ => rfl,
      fun u _ => recordStatus_bank st s u, fun u _ => by simp only [recordStatus_bank, and_self],
      fun c _ => recordStatus_cur st s c, fun _ => rfl, fun _ => rfl, rfl, rfl, rfl, rfl⟩
  · refine ⟨ht.mem, fun hi => ht.dout (hi.resolve_right fun hlast => hlast rfl), ht.fv, ht.fd, ht.nfld,
      fun u hu => ?_, fun u hu => ?_, fun c hc => ?_, ht.asm, ht.idle, ht.ports⟩
    · rw [recordStatus_bank, ht.bank hu]
    · rw [recordStatus_bank]
      exact ht.widths hu
    · rw [recordStatus_cur, ht.cur hc]

end Sys2Proof.Machine
end

section
/-! A put and a get with room for their bits (R102, R106, R111, R112), and the window check of R70. -/

namespace Sys2Proof.Machine

/-- R107: a put or a get that is little-endian of whole octets only passes the check. -/
theorem leIllegal_eq_false {le : Bool} {w : Nat} (h : le = true → w % 8 = 0) : leIllegal le w = false := by
  cases le with
  | false => rfl
  | true => simp [leIllegal, h rfl]

/-- R88, R111: a put that passes the checks goes through its cursor. -/
theorem execCurPut_of_legal {sz : Size} {le : Bool} {w : BitVec 7} {c : CurSel} (v : Word) (s : State)
    (hrole : writable c = true) (hle : le = true → w.toNat % 8 = 0) :
    execCurPut sz le w c v s = throughWriter s c (putProc v w.toNat (sizeBits sz) le) := by
  simp [execCurPut, hrole, leIllegal_eq_false hle]

/-- R88, R112: a get that passes the checks goes through its cursor. -/
theorem execCurGet_of_legal {sz : Size} {le : Bool} {w : BitVec 7} {c : CurSel} (s : State)
    (hrole : readable c = true) (hle : le = true → w.toNat % 8 = 0) :
    execCurGet sz le w c s = completeWith (getProc s.mem w.toNat (sizeBits sz) le (s.cur c)) fun rc =>
      ({ s with dout := rc.1.getD s.dout } : State).setCur c rc.2 := by
  simp [execCurGet, hrole, leIllegal_eq_false hle]

/-- Settles O26: a put that passes the checks is `putProc` through the cursor, and with room for its bits
that writes them all (`putProc_writes`). -/
theorem putWritesBits : Obligations.PutWritesBits := by
  intro sz le w c v s hrole hle hw ⟨hgood, hwin, hroom⟩
  obtain ⟨m, hput, hwrote, -⟩ := putProc_writes v hgood hw (sizeBits_le sz) hle hwin hroom
  exact ⟨m, (execCurPut_of_legal v s hrole hle).trans (throughWriter_ok hput), hwrote⟩

/-- R106: the value that a get of `w` bits makes of the stream fits `w`, and its own stream is that one. -/
theorem streamValue_reads (m : Memory) (p : Nat) {w : Nat} {le : Bool} (hw : w ≤ 64)
    (hle : le = true → w % 8 = 0) : (streamValue (m.stream p w) le).toNat < 2 ^ w ∧
      wordStream (streamValue (m.stream p w) le) w le = m.stream p w := by
  have hlen := stream_length m p w
  constructor
  · exact lt_of_bits fun i hi => streamValue_bit (by rwa [hlen]) (by rwa [hlen]) i (by rwa [hlen])
  · have hstream := wordStream_streamValue (bits := m.stream p w) (le := le) (by rwa [hlen]) (by rwa [hlen])
    rwa [hlen] at hstream

/-- Settles O27: a get that passes the checks is `getProc` through the cursor, and with its bits in the
window that replies the value of their stream (`getProc_reads`). -/
theorem getReadsBits : Obligations.GetReadsBits := by
  intro sz le w c s hrole hle hw hne ⟨hgood, hwin, hroom⟩
  have hpos : w.toNat ≠ 0 := fun h => hne (BitVec.eq_of_toNat_eq h)
  have hget := getProc_reads (le := le) hgood hpos hw hwin hroom
  refine ⟨_, ?_, streamValue_reads s.mem (s.cur c).bitPos (Nat.le_trans hw (sizeBits_le sz)) hle⟩
  show execCurGet sz le w c s = _
  rw [execCurGet_of_legal s hrole hle, hget, completeWith_ok]
  cases c <;> rfl

/-- R70: a window that ends outside MEM fails the window check, whatever the rest of the command is. -/
theorem windowCheck_refuses {s : State} {win : Window} (r : Result)
    (h : s.mem.size < win.base.toNat + win.size.toNat) :
    (if !inMem s win then refuse .errRange s else r) = refusedRange s := by
  have hin : inMem s win = false := decide_eq_false (Nat.not_le_of_gt h)
  rw [hin]
  rfl

/-- Settles O47: the window check is the first of these commands but for the role of `CUR.ATTACH` and the
shape of the dissector, which the premises grant. -/
theorem windowOutsideRefused : Obligations.WindowOutsideRefused := by
  intro win s hout
  refine ⟨fun c hc => ?_, windowCheck_refuses _ hout, windowCheck_refuses _ hout,
    windowCheck_refuses _ hout, fun hcolw => ?_⟩
  · have hrole : ¬ (!attachable c) = true := by simp [hc]
    exact (if_neg hrole).trans (windowCheck_refuses _ hout)
  · have hok : s.shapeOk = true := by simpa [State.shapeOk] using hcolw
    have hshape : ¬ (!s.shapeOk) = true := by simp [hok]
    exact ⟨(if_neg hshape).trans (windowCheck_refuses _ hout),
      (if_neg hshape).trans (windowCheck_refuses _ hout)⟩

end Sys2Proof.Machine
end

section
/-! Every command ends (R60, R88, R260, R331): in a state that meets the invariants every access falls in
MEM, so that no procedure faults. -/

namespace Sys2Proof.Machine

/-! ### The procedures do not fault through a window in MEM (R60) -/

/-- R143: the puts of a legal field file. -/
theorem serFields_total {fd : Vector FieldDesc 16} {mc : Memory × Cursor} (fv : Vector Word 16)
    (l : List (Fin 16)) (hd : ∀ f : Fin 16, descOk fd[f])
    (hw : mc.2.base.toNat + mc.2.size.toNat ≤ mc.1.size) : ∃ mc', serFields fd fv l mc = .ok mc' := by
  rw [serFields_eq]
  refine putSeq_total (fun p hp => ?_) hw
  obtain ⟨f, -, rfl⟩ := List.mem_map.1 hp
  exact (fieldPut_legal fv (hd f)).1

/-- R162, R164: the puts of a header layout. -/
theorem serHeader_total {b : Bank} {l : List (HdrField × Nat × Nat)} {mc : Memory × Cursor}
    (hl : ∀ p ∈ l.map (headerPut b), p.legal) (hw : mc.2.base.toNat + mc.2.size.toNat ≤ mc.1.size) :
    ∃ mc', serHeader b l mc = .ok mc' := by
  rw [serHeader_eq]
  exact putSeq_total hl hw

/-- R194: the puts of the idle fill. -/
theorem fillIdle_total (idle : IdleCfg) (k j : Nat) {mc : Memory × Cursor}
    (hw : mc.2.base.toNat + mc.2.size.toNat ≤ mc.1.size) : ∃ mc', fillIdle idle k j mc = .ok mc' := by
  rw [fillIdle_eq]
  refine putSeq_total (fun p hp => ?_) hw
  obtain ⟨n, -, rfl⟩ := List.mem_map.1 hp
  exact (idlePut_legal idle n).1

/-- R113: the copy between two windows in MEM, onto a bad cursor or a good one. -/
theorem appendStream_total {src cu : Cursor} {m : Memory} (hsrc : cursorOk m.size src)
    (hcu : cursorOk m.size cu) : ∃ mc', appendStream src (m, cu) = .ok mc' := by
  have hs := sourceIn_of_ok hsrc
  by_cases hbad : cu.bad = true
  · exact ⟨_, appendStream_bad hbad hs⟩
  · obtain ⟨m', h, -⟩ := appendStream_spec (by simpa using hbad) hcu.1 hcu.2 hs
    exact ⟨_, h⟩

/-! ### Rules for the ways a command ends -/

/-- The command answers a next state. -/
def Answers (r : Result) : Prop := ∃ t, r = .next t

theorem answers_complete (s : State) : Answers (complete s) := ⟨_, rfl⟩

theorem answers_reply (v : Word) (s : State) : Answers (reply v s) := ⟨_, rfl⟩

/-- R88, R262: a check made before the rest of the command; a refusal is a next state. -/
theorem answers_guard {p : Prop} [Decidable p] {st : Status} {s : State} {r : Result}
    (h : ¬ p → Answers r) : Answers (if p then refuse st s else r) := by
  split
  next => exact ⟨_, rfl⟩
  next hp => exact h hp

theorem answers_completeWith {α : Type} {r : Except Fault α} {k : α → State} (h : ∃ x, r = .ok x) :
    Answers (completeWith r k) := by
  obtain ⟨x, rfl⟩ := h
  exact answers_complete (k x)

/-! ### The commands that access MEM -/

section
variable {s : State} (hs : s.Inv)
include hs

theorem answers_curAppend (dst src : CurSel) : Answers (execCurAppend dst src s) := by
  refine answers_guard fun _ => ?_
  split
  next => exact answers_complete _
  next => exact answers_completeWith (appendStream_total (hs.cursors src) (hs.cursors dst))

theorem answers_asmBeginidle (win : Window) : Answers (execAsmBeginidle win s) :=
  answers_guard fun hwin => answers_guard fun hroom =>
    have hcarved : (carveIdle win s).Inv :=
      inv_carve hs bankOk_idle (inMem_of_not hwin) (Nat.le_of_not_lt hroom)
    answers_completeWith (fillIdle_total _ _ _ (hcarved.window .aw))

theorem answers_asmFinalize : Answers (execAsmFinalize s) := by
  refine answers_guard fun hactive => answers_completeWith ?_
  obtain ⟨hwin, -, hsize⟩ := hs.asm (by simpa using hactive)
  have hroom : s.asm.base.toNat + 6 + s.bankA.secSize ≤ s.mem.size := by omega
  obtain ⟨m, h, -⟩ := hdrStore_spec
    (b := finalizedBank s.bankA (s.bankA.secSize + s.userBytes)) hroom
  exact ⟨m, h⟩

theorem answers_extOpen (win : Window) : Answers (execExtOpen win s) := by
  refine answers_guard fun hwin => answers_guard fun hroom => answers_completeWith ?_
  have hwin := inMem_of_not hwin
  unfold Config.phBytes at hroom
  obtain ⟨ht, ha, -⟩ := hs.banks .x
  obtain ⟨b, h, -⟩ := hdrLoad_spec (b := s.bankX) (base := win.base.toNat) (m := s.mem) (by omega) ht ha
  exact ⟨b, h⟩

theorem answers_disFrombuf (win : Window) : Answers (execDisFrombuf win s) := by
  refine answers_guard fun _ => answers_guard fun hwin => answers_guard fun hroom =>
    answers_completeWith ?_
  obtain ⟨hfit, hcu⟩ := dissector_room s (inMem_of_not hwin) hroom
  obtain ⟨ht, ha, -⟩ := hs.banks .d
  obtain ⟨b, hload, -⟩ := hdrLoad_spec hfit ht ha
  obtain ⟨vc, hdes⟩ := desFields_total (fd := s.fd) s.schema s.fv hcu
  exact ⟨_, bind_ok.2 ⟨b, hload, bind_ok.2 ⟨vc, hdes, rfl⟩⟩⟩

theorem answers_disTobuf (win : Window) : Answers (execDisTobuf win s) := by
  refine answers_guard fun _ => answers_guard fun hwin => answers_guard fun hroom =>
    answers_completeWith ?_
  obtain ⟨hfit, hcu⟩ := dissector_room s (inMem_of_not hwin) hroom
  obtain ⟨m, hstore, -, hsize, -⟩ := hdrStore_spec hfit
  obtain ⟨mc, hser⟩ := serFields_total (mc := (m, userCursor s win)) s.fv s.schema hs.descs
    (by rw [hsize]; exact hcu)
  exact ⟨mc, bind_ok.2 ⟨m, hstore, hser⟩⟩

/-- R60: no command faults in a state that meets the invariants. Those that do not access MEM cannot. -/
theorem exec_answers (i : Instr) : Answers (exec i s) := by
  cases i with
  | curPut sz le w c v =>
    exact answers_guard fun _ => answers_guard fun _ =>
      answers_completeWith (putProc_total _ _ _ _ (hs.window c))
  | curGet sz le w c =>
    exact answers_guard fun _ => answers_guard fun _ =>
      answers_completeWith (getProc_total _ _ _ (hs.window c))
  | curAppend dst src => exact answers_curAppend hs dst src
  | fldSer c f =>
    exact answers_guard fun _ => answers_guard fun _ =>
      answers_completeWith (putProc_total _ _ _ _ (hs.window c))
  | fldDes c f =>
    exact answers_guard fun _ => answers_guard fun _ =>
      answers_completeWith (getProc_total _ _ _ (hs.window c))
  | colSer c =>
    exact answers_guard fun _ => answers_completeWith (serFields_total _ _ hs.descs (hs.window c))
  | colDes c => exact answers_guard fun _ => answers_completeWith (desFields_total _ _ (hs.window c))
  | phSer u c =>
    exact answers_guard fun _ =>
      answers_completeWith (serHeader_total (fun p hp => (phLayout_legal _ p hp).1) (hs.window c))
  | shSer u c =>
    exact answers_guard fun _ =>
      answers_completeWith (serHeader_total (shLayout_legal _) (hs.window c))
  | phDes u c | shDes u c =>
    exact answers_guard fun _ => answers_completeWith (desHeader_total _ _ (hs.window c))
  | asmBeginidle win => exact answers_asmBeginidle hs win
  | asmFinalize => exact answers_asmFinalize hs
  | extOpen win => exact answers_extOpen hs win
  | disFrombuf win => exact answers_disFrombuf hs win
  | disTobuf win => exact answers_disTobuf hs win
  | curAttach | asmBegin | fldGetbit | fldSetbit =>
    exact answers_guard fun _ => answers_guard fun _ => ⟨_, rfl⟩
  | fldCfg | fldNfld | fldSet | fldGet | fldInc | fldDec | hdrCfgsh | hdrSetlenoct | disFinalize
  | disSize => exact answers_guard fun _ => ⟨_, rfl⟩
  | nop | hdrSet | asmCfgidle => exact answers_complete _
  | sysEsr | curPos | curBytes | curBad | curCap | fldWidth | colWidth | hdrGet | hdrLenoct | hdrIsidle
  | hdrIsvalid | asmSize | asmValid => exact answers_reply _ _

end

/-- R261, R263: a command that answers a next state leaves its status in `LAST`. -/
theorem exec_last {i : Instr} {s t : State} (h : exec i s = .next t) : ∃ st, t.last = statusCode st := by
  obtain ⟨st, -, rfl⟩ | ⟨u, -, rfl⟩ := exec_cases h
  · exact ⟨st, rfl⟩
  · exact ⟨.ok, rfl⟩

/-- Settles O10: no command faults (`exec_answers`), and each records its status (`exec_last`). -/
theorem everyCommandEnds : Obligations.EveryCommandEnds := by
  intro i s hs
  obtain ⟨t, h⟩ := exec_answers hs i
  obtain ⟨st, hst⟩ := exec_last h
  exact ⟨t, st, h, hst⟩

end Sys2Proof.Machine
end

section
/-! The footprint of a command in MEM (R60, R66): a sequence of puts writes no octet but those between two
positions of its cursor, and so none outside the cursor's window. -/

namespace Sys2Proof.Machine

/-! ### Sequences of puts -/

/-- R66: what a sequence of puts does not pass over reads as before. -/
theorem wentOn.octet_of_not_span {mc mc' : Memory × Cursor} {a : Nat} (h : wentOn mc mc')
    (ha : a ∉ cursorSpan mc.2 mc'.2) : mc'.1.octet a = mc.1.octet a := by
  unfold cursorSpan at ha
  split at ha
  next hstill => rw [h.still hstill]
  next =>
    refine h.octet a ?_
    have hle := h.cursor.le
    rw [List.mem_range'_1] at ha
    simp only [Cursor.addr, Cursor.sizeBytes, Cursor.bitPos, h.cursor.base, ceilDiv] at ha ⊢
    omega

/-- R24, R66: a sequence of puts leaves what is outside its cursor's window. -/
theorem wentOn.octet_outside {mc mc' : Memory × Cursor} {a : Nat} (h : wentOn mc mc')
    (hpos : mc.2.cursor.toNat ≤ 8 * mc.2.size.toNat)
    (ha : a < mc.2.base.toNat ∨ mc.2.base.toNat + mc.2.size.toNat ≤ a) :
    mc'.1.octet a = mc.1.octet a := by
  refine h.octet a ?_
  have hroom := h.cursor.room hpos
  simp only [Cursor.addr, Cursor.bitPos, h.cursor.base, ceilDiv]
  omega

/-! ### Commands that put through a cursor -/

/-- R66: the cursor that a command puts through, for the commands whose footprint is what it passes over. -/
def putsThrough : Instr → Option CurSel
  | .curPut _ _ _ c _ | .curAppend c _ | .fldSer c _ | .colSer c | .phSer _ c | .shSer _ c => some c
  | _ => none

theorem writtenOctets_of_putsThrough {i : Instr} {c : CurSel} {s t : State} (hi : putsThrough i = some c)
    (h0 : t.last = 0) : writtenOctets i s t = cursorSpan (s.cur c) (t.cur c) := by
  unfold writtenOctets
  rw [if_neg (Decidable.not_not.2 h0)]
  cases i with
  | curPut | curAppend | fldSer | colSer | phSer | shSer => cases hi; rfl
  | _ => cases hi

/-- R52, R86: such a command writes MEM and that cursor and nothing else. -/
theorem writers_of_putsThrough {i : Instr} {c : CurSel} (hi : putsThrough i = some c) :
    replies i = false ∧ writesFv i = false ∧ (∀ u, writesBank u i = false) ∧
      ∀ d, writesCur d i = true → d = c := by
  cases i with
  | curPut | curAppend | fldSer | colSer | phSer | shSer =>
    cases hi
    exact ⟨rfl, rfl, fun _ => rfl, fun d hd => (of_decide_eq_true hd).symm⟩
  | _ => cases hi

theorem Completes.wentOn {i : Instr} {c : CurSel} {s u : State} (h : Completes s i u) (hs : s.Inv)
    (hi : putsThrough i = some c) : wentOn (s.mem, s.cur c) (u.mem, u.cur c) := by
  obtain ⟨hreply, hfv, hbank, hcur⟩ := writers_of_putsThrough hi
  cases h with
  | wrote d m cu hm hd hw =>
    cases hcur d hd
    rw [setCur_mem, setCur_cur_same]
    exact hw hs
  | replied v hr | got d cu v hr => exact Bool.noConfusion (hreply.symm.trans hr)
  | gotValues d cu fv hf | setValues fv hf => exact Bool.noConfusion (hfv.symm.trans hf)
  | gotBank u b d cu hb | setBank u b hb => exact Bool.noConfusion ((hbank u).symm.trans hb)
  | _ => cases hi

/-! ### Headers in MEM (R165), and the dissector's window (R233, R234) -/

/-- R165: headers stored where there is room for them leave every other octet. -/
theorem hdrStore_octet {b : Bank} {base a : Nat} {m m' : Memory} (hroom : base + 6 + b.secSize ≤ m.size)
    (h : hdrStore b base m = .ok m') (ha : a < base ∨ base + (Config.phBytes + b.secSize) ≤ a) :
    m'.octet a = m.octet a := by
  obtain ⟨x, hx, -, -, hout, -⟩ := hdrStore_spec hroom
  rw [hx] at h
  cases h
  exact hout a (by unfold Config.phBytes at ha; omega)

/-- R233, R234: the cursor of the dissector over the user data is attached without wrap-around. -/
theorem userCursor_window {s : State} {win : Window} (hs : s.Inv)
    (hwin : win.base.toNat + win.size.toNat ≤ s.mem.size) (hroom : ¬ win.size.toNat < s.dsize) :
    (userCursor s win).base.toNat = win.base.toNat + Config.phBytes + s.bankD.secSize ∧
      (userCursor s win).size.toNat = s.colw / 8 := by
  obtain ⟨-, hmax⟩ := hs.memSize
  unfold Config.memBytesMax at hmax
  unfold State.dsize at hroom
  simp only [userCursor, attached, BitVec.toNat_ofNat]
  omega

/-! ### Commands that address MEM by a window (R194, R196, R234) -/

section
variable {s t : State} {a : Nat} (hs : s.Inv) (h0 : t.last = 0)
include hs h0

/-- R194: the fill goes through `AW`, whose window is the user data. -/
theorem asmBeginidle_octet {win : Window} (h : execAsmBeginidle win s = .next t)
    (ha : a < win.base.toNat + Config.phBytes ∨ win.base.toNat + win.size.toNat ≤ a) :
    t.mem.octet a = s.mem.octet a := by
  obtain ⟨hwin, h⟩ := guard_passed (by decide) h h0
  obtain ⟨hroom, h⟩ := guard_passed (by decide) h h0
  obtain ⟨m, cu, hfill, rfl⟩ := throughWriter_next.1 h
  have hcarved : (carveIdle win s).Inv :=
    inv_carve hs bankOk_idle (inMem_of_not hwin) (Nat.le_of_not_lt hroom)
  obtain ⟨-, hbase, hsize⟩ := hcarved.asm rfl
  have hbase : (carveIdle win s).aw.base.toNat = win.base.toNat + 6 := hbase
  have hsize : win.size.toNat = 6 + (carveIdle win s).aw.size.toNat := hsize
  unfold Config.phBytes at ha
  have hout : a < (carveIdle win s).aw.base.toNat ∨
      (carveIdle win s).aw.base.toNat + (carveIdle win s).aw.size.toNat ≤ a := by omega
  exact (fillIdle_wentOn hfill).octet_outside (hcarved.cursors .aw).2 hout

/-- R165, R196: the headers are stored at the start of the assembler's window. -/
theorem asmFinalize_octet (h : execAsmFinalize s = .next t)
    (ha : a < s.asm.base.toNat ∨ s.asm.base.toNat + (Config.phBytes + s.bankA.secSize) ≤ a) :
    t.mem.octet a = s.mem.octet a := by
  obtain ⟨hactive, h⟩ := guard_passed (by decide) h h0
  obtain ⟨hwin, -, hsize⟩ := hs.asm (by simpa using hactive)
  have hroom : s.asm.base.toNat + 6 + s.bankA.secSize ≤ s.mem.size := by omega
  obtain ⟨m, hstore, rfl⟩ := completeWith_next.1 h
  exact hdrStore_octet (b := finalizedBank s.bankA _) hroom hstore ha

/-- R165, R234: the headers are stored at the start of the window, and the fields go through the
dissector's cursor over the user data behind them. -/
theorem disTobuf_octet {win : Window} (h : execDisTobuf win s = .next t)
    (ha : a < win.base.toNat ∨ win.base.toNat + s.dsize ≤ a) : t.mem.octet a = s.mem.octet a := by
  obtain ⟨-, h⟩ := guard_passed (by decide) h h0
  obtain ⟨hwin, h⟩ := guard_passed (by decide) h h0
  obtain ⟨hroom, h⟩ := guard_passed (by decide) h h0
  obtain ⟨mc, hproc, rfl⟩ := completeWith_next.1 h
  obtain ⟨m, hstore, hser⟩ := bind_ok.1 hproc
  obtain ⟨hfit, -⟩ := dissector_room s (inMem_of_not hwin) hroom
  obtain ⟨hbase, hsize⟩ := userCursor_window hs (inMem_of_not hwin) hroom
  unfold State.dsize at ha
  have hout : a < (userCursor s win).base.toNat ∨
      (userCursor s win).base.toNat + (userCursor s win).size.toNat ≤ a := by omega
  have hfields : mc.1.octet a = m.octet a :=
    (serFields_wentOn hs.descs hser).octet_outside (Nat.zero_le _) hout
  exact hfields.trans (hdrStore_octet hfit hstore (by omega))

end

/-! ### Every command -/

/-- R261: every status but OK has a code other than 0. -/
theorem statusCode_ne {st : Status} (h : st ≠ .ok) : statusCode st ≠ 0 := by
  cases st with
  | ok => exact absurd rfl h
  | errIllegal | errRange | errShape | errState => decide

/-- R262: a refused command does not leave `LAST` at OK. -/
theorem refused_last_ne {s t : State} (h : Refused s t) : t.last ≠ 0 := by
  obtain ⟨st, hst, rfl⟩ := h
  exact statusCode_ne hst

/-- An update keeps the size of MEM. -/
theorem Completes.memSize {i : Instr} {s u : State} (h : Completes s i u) (hs : s.Inv) :
    u.mem.size = s.mem.size := by
  cases h with
  | wrote c m cu hm hc hw => rw [setCur_mem]; exact (hw hs).size
  | asmBeginidle win m cu hwin hroom hw => exact hw.size
  | asmFinalize b m ht ha hb hm => exact (hm hs).1
  | disTobuf win m hm => exact (hm hs).1
  | _ => simp [carve]

theorem exec_memSize {i : Instr} {s t : State} (hs : s.Inv) (h : exec i s = .next t) :
    t.mem.size = s.mem.size := by
  obtain ⟨st, -, rfl⟩ | ⟨u, hu, rfl⟩ := exec_cases h
  · rfl
  · exact hu.memSize hs

/-- R66: a command that completes leaves the octets outside its footprint. -/
theorem exec_octet_of_ok {i : Instr} {s t : State} {a : Nat} (hs : s.Inv) (h : exec i s = .next t)
    (h0 : t.last = 0) (ha : a ∉ writtenOctets i s t) : t.mem.octet a = s.mem.octet a := by
  obtain ⟨u, hu, rfl⟩ : ∃ u, Completes s i u ∧ t = recordStatus .ok u :=
    (exec_cases h).resolve_left fun hr => refused_last_ne hr h0
  cases hputs : putsThrough i with
  | some c =>
    rw [writtenOctets_of_putsThrough hputs h0, recordStatus_cur] at ha
    exact (hu.wentOn hs hputs).octet_of_not_span ha
  | none =>
    unfold writtenOctets at ha
    rw [if_neg (Decidable.not_not.2 h0)] at ha
    cases i with
    | asmBeginidle win =>
      exact asmBeginidle_octet hs h0 h (by rw [List.mem_range'_1] at ha; omega)
    | asmFinalize => exact asmFinalize_octet hs h0 h (by rw [List.mem_range'_1] at ha; omega)
    | disTobuf win => exact disTobuf_octet hs h0 h (by rw [List.mem_range'_1] at ha; omega)
    | curPut | curAppend | fldSer | colSer | phSer | shSer => cases hputs
    | _ => rw [recordStatus_mem, hu.mem rfl]

/-- Settles O14: a refused command does not write MEM (R262), and the octets of one that completes are
those of its footprint (`exec_octet_of_ok`), which lie in MEM (`writtenOctets_lt`). -/
theorem memoryFootprint : Obligations.MemoryFootprint := by
  refine fun i s t hs h => ⟨exec_memSize hs h, fun a => writtenOctets_lt hs h, fun a ha => ?_⟩
  by_cases h0 : t.last = 0
  · exact exec_octet_of_ok hs h h0 ha
  · obtain ⟨st, -, rfl⟩ | ⟨u, -, rfl⟩ := exec_cases h
    · rw [recordStatus_mem]
    · exact absurd rfl h0

end Sys2Proof.Machine
end

section
/-! The command encoding (R80 to R91): what the decoder makes of a command word, said once for each of the
twelve formats of R82 and used in both directions. -/

namespace Sys2Proof

open Sys2Proof.Laws Sys2Proof.Machine

/-- R88: a pair decodes to `i` when it passes the three checks. -/
theorem decode_eq_ok_iff {cw : CmdWord} {arg : Word} {i : Instr} : decode cw arg = .ok i ↔
    ∃ fmt, formatOf (unpackCmd cw).op = some fmt ∧ fmt.unusedZero (unpackCmd cw) = true ∧
      buildCmd (unpackCmd cw) arg = some i := by
  unfold decode
  cases formatOf (unpackCmd cw).op with
  | none => simp
  | some fmt =>
    cases hz : fmt.unusedZero (unpackCmd cw) with
    | false => simp [hz]
    | true => cases buildCmd (unpackCmd cw) arg <;> simp [hz]

/-- R82, R87: the mask of `legalCommand`, read field by field. -/
theorem legalCommand_iff {cw : CmdWord} : legalCommand cw ↔
    ∃ fmt, formatOf (unpackCmd cw).op = some fmt ∧ fmt.unusedZero (unpackCmd cw) = true ∧
      selectorsLegal fmt (unpackCmd cw) := by
  simp only [unusedZero_iff, packCmd_unpackCmd]
  rfl

/-! ### From an instruction to its word and back -/

/-- R82, R86: every instruction is encoded with a listed opcode and with 0 in the fields its format does not
use. -/
theorem encode_matches_table (i : Instr) : EncodeMatchesTable.Statement i := by
  open EncodeMatchesTable in
  cases i
  exacts [nop, sysEsr, curAttach _ _, curPut _ _ _ _ _, curGet _ _ _ _, curAppend _ _, curPos _,
    curBytes _, curBad _, curCap _, fldCfg _ _ _ _, fldNfld _, fldSet _ _, fldGet _, fldInc _, fldDec _,
    fldGetbit _ _, fldSetbit _ _ _, fldSer _ _, fldDes _ _, fldWidth _, colSer _, colDes _, colWidth,
    hdrCfgsh _ _ _, hdrSet _ _ _, hdrGet _ _, hdrLenoct _, hdrSetlenoct _ _, hdrIsidle _, hdrIsvalid _,
    phSer _ _, phDes _ _, shSer _ _, shDes _ _, asmBegin _, asmBeginidle _, asmCfgidle _ _, asmFinalize,
    asmSize, EncodeMatchesTable.asmValid, extOpen _, disFrombuf _, disTobuf _, disFinalize, disSize]

/-- R83, R84: the operands of a well-formed instruction are read back from the fields and from `arg`, by the
round trips of the selectors, the size and the window; the widths of `HDR.CFGSH` need the premise. -/
theorem buildCmd_encodeFields {i : Instr} (h : i.wellFormed = true) :
    buildCmd (encodeFields i) (encodeArg i) = some i := by
  cases i with
  | hdrCfgsh u tcb ancb =>
    have hrange : (tcbInRange tcb && ancbInRange ancb) = true := h
    simp [buildCmd, encodeFields, halves_low, halves_high, hrange]
  | fldSetbit b f bit => cases bit <;> simp [buildCmd, encodeFields, encodeArg]
  | nop | sysEsr | colWidth | asmFinalize | asmSize | asmValid | disFinalize | disSize => rfl
  | _ => simp [buildCmd, encodeFields, encodeArg]

/-- Settles O4: the word has the fields it was packed from, they pass the checks of the format, and the
operands are read back. -/
theorem decodeOfEncode : Obligations.DecodeOfEncode := by
  intro i hi
  obtain ⟨fmt, hfmt, hmask⟩ := encode_matches_table i
  refine decode_eq_ok_iff.2 ⟨fmt, ?_⟩
  simp only [encode, unpackCmd_packCmd] at hmask ⊢
  exact ⟨hfmt, (unusedZero_iff fmt _).2 hmask, buildCmd_encodeFields hi⟩

/-! ### From a word to its instruction -/

/-- The fields of a command word that its format uses, the others 0 (R82). -/
def Format.used : Format → CmdFields → CmdFields
  | .N, f => { op := f.op }
  | .C, f => { op := f.op, c := f.c }
  | .P, f => { op := f.op, sz := f.sz, le := f.le, w := f.w, c := f.c }
  | .CC, f => { op := f.op, c := f.c, s := f.s }
  | .F, f => { op := f.op, idx := f.idx }
  | .FP, f => { op := f.op, sz := f.sz, le := f.le, w := f.w, idx := f.idx }
  | .FB, f => { op := f.op, w := f.w, idx := f.idx }
  | .FC, f => { op := f.op, c := f.c, idx := f.idx }
  | .U, f => { op := f.op, s := f.s }
  | .UF, f => { op := f.op, s := f.s, idx := f.idx }
  | .UC, f => { op := f.op, c := f.c, s := f.s }
  | .S, f => { op := f.op, sz := f.sz }

theorem used_of_unusedZero {fmt : Format} {f : CmdFields} (h : fmt.unusedZero f = true) :
    fmt.used f = f := by
  obtain ⟨op, sz, le, w, c, s, idx⟩ := f
  cases fmt <;>
  · simp only [Format.unusedZero, Bool.and_eq_true, decide_eq_true_eq, and_assoc] at h
    simp only [Format.used, h]

/-- The opcodes of a format (R86). -/
def Format.lists : Format → BitVec 8 → Prop
  | .N, op => op = 0x01 ∨ op = 0x02 ∨ op = 0x2D ∨ op = 0x40 ∨ op = 0x41 ∨ op = 0x43 ∨ op = 0x44 ∨
      op = 0x45 ∨ op = 0x50 ∨ op = 0x60 ∨ op = 0x61 ∨ op = 0x62 ∨ op = 0x63
  | .C, op => op = 0x10 ∨ op = 0x14 ∨ op = 0x15 ∨ op = 0x16 ∨ op = 0x17 ∨ op = 0x2B ∨ op = 0x2C
  | .P, op => op = 0x11 ∨ op = 0x12
  | .CC, op => op = 0x13
  | .F, op => op = 0x21 ∨ op = 0x22 ∨ op = 0x23 ∨ op = 0x24 ∨ op = 0x25 ∨ op = 0x2A
  | .FP, op => op = 0x20
  | .FB, op => op = 0x26 ∨ op = 0x27
  | .FC, op => op = 0x28 ∨ op = 0x29
  | .U, op => op = 0x33 ∨ op = 0x34 ∨ op = 0x35 ∨ op = 0x36
  | .UF, op => op = 0x30 ∨ op = 0x31 ∨ op = 0x32
  | .UC, op => op = 0x37 ∨ op = 0x38 ∨ op = 0x39 ∨ op = 0x3A
  | .S, op => op = 0x42

theorem lists_of_formatOf {fmt : Format} {op : BitVec 8} (h : formatOf op = some fmt) :
    fmt.lists op := by
  unfold formatOf at h
  split at h
  case h_47 => cases h
  all_goals
    cases h
    simp [Format.lists, ← BitVec.toNat_inj, *]

/-- The selector check of R88 (3), as it should answer for a word with the fields `f`: with an instruction
exactly where the selectors are legal, and with a well-formed one whose encoding has these fields. -/
structure Accepts (f : CmdFields) (legal : Prop) (r : Option Instr) : Prop where
  isSome_iff : r.isSome = true ↔ legal
  encodes : ∀ i, r = some i → i.wellFormed = true ∧ encodeFields i = f

/-- A field that selects something (R84): the decoder answers for the legal values, and the encoder undoes
it. -/
structure Selector {n : Nat} {α : Type} (dec : BitVec n → Option α) (enc : α → BitVec n)
    (legal : BitVec n → Prop) : Prop where
  isSome_iff : ∀ x, (dec x).isSome = true ↔ legal x
  encodes : ∀ {x a}, dec x = some a → enc a = x

theorem selector_cur : Selector decodeCur encodeCur (·.toNat < 4) :=
  ⟨decodeCur_isSome, decodeCur_eq_some⟩

theorem selector_bank : Selector decodeBank encodeBank (·.toNat < 3) :=
  ⟨decodeBank_isSome, decodeBank_eq_some⟩

theorem selector_hdrField : Selector decodeHdrField encodeHdrField (·.toNat < 9) :=
  ⟨decodeHdrField_isSome, decodeHdrField_eq_some⟩

theorem selector_field : Selector decodeField (fun f => BitVec.ofNat 8 f) (·.toNat < 16) :=
  ⟨decodeField_isSome, decodeField_eq_some⟩

theorem selector_count : Selector decodeCount (fun n => BitVec.ofNat 8 n) (·.toNat < 17) :=
  ⟨decodeCount_isSome, decodeCount_eq_some⟩

section
variable {n : Nat} {α : Type} {dec : BitVec n → Option α} {enc : α → BitVec n} {legal : BitVec n → Prop}
variable {f : CmdFields} {x : BitVec n}

/-- A command without a selector. -/
theorem accepts_some {i : Instr} (hi : i.wellFormed = true ∧ encodeFields i = f) :
    Accepts f True (some i) where
  isSome_iff := by simp
  encodes := by rintro _ ⟨⟩; exact hi

/-- The last selector of a command. -/
theorem Selector.accepts_map (hsel : Selector dec enc legal) {g : α → Instr}
    (hg : ∀ a, enc a = x → (g a).wellFormed = true ∧ encodeFields (g a) = f) :
    Accepts f (legal x) ((dec x).map g) where
  isSome_iff := by rw [Option.isSome_map, hsel.isSome_iff]
  encodes i h := by
    obtain ⟨a, ha, rfl⟩ := Option.map_eq_some_iff.1 h
    exact hg a (hsel.encodes ha)

/-- A selector that others follow. -/
theorem Selector.accepts_bind (hsel : Selector dec enc legal) {k : α → Option Instr} {more : Prop}
    (hk : ∀ a, enc a = x → Accepts f more (k a)) : Accepts f (legal x ∧ more) ((dec x).bind k) where
  isSome_iff := by
    rw [← hsel.isSome_iff x]
    cases hx : dec x with
    | none => simp
    | some a => simpa using (hk a (hsel.encodes hx)).isSome_iff
  encodes i h := by
    obtain ⟨a, ha, hi⟩ := Option.bind_eq_some_iff.1 h
    exact (hk a (hsel.encodes ha)).encodes i hi

end

/-! The commands of each format of R82, by the opcodes of R86. -/

section
variable {op : BitVec 8} (arg : Word)

theorem buildCmd_N (h : formatOf op = some .N) : Accepts { op } True (buildCmd { op } arg) := by
  obtain rfl | rfl | rfl | rfl | rfl | rfl | rfl | rfl | rfl | rfl | rfl | rfl | rfl :=
    lists_of_formatOf h
  all_goals exact accepts_some ⟨rfl, rfl⟩

theorem buildCmd_C (c : BitVec 3) (h : formatOf op = some .C) :
    Accepts { op, c } (c.toNat < 4) (buildCmd { op, c } arg) := by
  obtain rfl | rfl | rfl | rfl | rfl | rfl | rfl := lists_of_formatOf h
  all_goals exact selector_cur.accepts_map fun _ hc => ⟨rfl, hc ▸ rfl⟩

theorem buildCmd_P (sz : BitVec 2) (le : BitVec 1) (w : BitVec 7) (c : BitVec 3)
    (h : formatOf op = some .P) :
    Accepts { op, sz, le, w, c } (c.toNat < 4) (buildCmd { op, sz, le, w, c } arg) := by
  obtain rfl | rfl := lists_of_formatOf h
  all_goals
    refine selector_cur.accepts_map fun _ hc => ⟨rfl, ?_⟩
    simp only [encodeFields, encodeSize_decodeSize, bitOf_decide, hc]

theorem buildCmd_CC (c s : BitVec 3) (h : formatOf op = some .CC) :
    Accepts { op, c, s } (c.toNat < 4 ∧ s.toNat < 4) (buildCmd { op, c, s } arg) := by
  obtain rfl := lists_of_formatOf h
  exact selector_cur.accepts_bind fun _ hc => selector_cur.accepts_map fun _ hs => ⟨rfl, hc ▸ hs ▸ rfl⟩

theorem buildCmd_F (idx : BitVec 8) (h : formatOf op = some .F) :
    Accepts { op, idx } (idx.toNat < if op = 0x21 then 17 else 16) (buildCmd { op, idx } arg) := by
  obtain rfl | hop := lists_of_formatOf h
  · exact selector_count.accepts_map fun _ hn => ⟨rfl, hn ▸ rfl⟩
  · obtain rfl | rfl | rfl | rfl | rfl := hop
    all_goals exact selector_field.accepts_map fun _ hf => ⟨rfl, hf ▸ rfl⟩

theorem buildCmd_FP (sz : BitVec 2) (le : BitVec 1) (w : BitVec 7) (idx : BitVec 8)
    (h : formatOf op = some .FP) :
    Accepts { op, sz, le, w, idx } (idx.toNat < 16) (buildCmd { op, sz, le, w, idx } arg) := by
  obtain rfl := lists_of_formatOf h
  refine selector_field.accepts_map fun _ hf => ⟨rfl, ?_⟩
  simp only [encodeFields, encodeSize_decodeSize, bitOf_decide, hf]

theorem buildCmd_FB (w : BitVec 7) (idx : BitVec 8) (h : formatOf op = some .FB) :
    Accepts { op, w, idx } (idx.toNat < 16) (buildCmd { op, w, idx } arg) := by
  obtain rfl | rfl := lists_of_formatOf h
  all_goals exact selector_field.accepts_map fun _ hf => ⟨rfl, hf ▸ rfl⟩

theorem buildCmd_FC (c : BitVec 3) (idx : BitVec 8) (h : formatOf op = some .FC) :
    Accepts { op, c, idx } (c.toNat < 4 ∧ idx.toNat < 16) (buildCmd { op, c, idx } arg) := by
  obtain rfl | rfl := lists_of_formatOf h
  all_goals
    exact selector_cur.accepts_bind fun _ hc => selector_field.accepts_map fun _ hf =>
      ⟨rfl, hc ▸ hf ▸ rfl⟩

theorem buildCmd_U (s : BitVec 3) (h : formatOf op = some .U) :
    Accepts { op, s } (s.toNat < 3) (buildCmd { op, s } arg) := by
  obtain rfl | rfl | rfl | rfl := lists_of_formatOf h
  all_goals exact selector_bank.accepts_map fun _ hu => ⟨rfl, hu ▸ rfl⟩

/-- R84, R166: the two widths of `HDR.CFGSH`, the one selector that is checked and not decoded. -/
theorem accepts_widths {s : BitVec 3} {u : BankSel} (idx : BitVec 8) (hu : encodeBank u = s) :
    Accepts { op := 0x30, s, idx } (idx.toNat % 16 ≤ 8 ∧ idx.toNat / 16 ≤ 8)
      (if tcbInRange (idx.extractLsb' 0 4) && ancbInRange (idx.extractLsb' 4 4) then
        some (.hdrCfgsh u (idx.extractLsb' 0 4) (idx.extractLsb' 4 4)) else none) where
  isSome_iff := by
    rw [← half_low_toNat, ← half_high_toNat]
    simp
  encodes i h := by
    obtain ⟨hrange, ⟨⟩⟩ := Option.ite_none_right_eq_some.1 h
    exact ⟨hrange, by simp only [encodeFields, idx_halves, hu]⟩

theorem buildCmd_UF (s : BitVec 3) (idx : BitVec 8) (h : formatOf op = some .UF) :
    Accepts { op, s, idx } (s.toNat < 3 ∧
        if op = 0x30 then idx.toNat % 16 ≤ 8 ∧ idx.toNat / 16 ≤ 8 else idx.toNat < 9)
      (buildCmd { op, s, idx } arg) := by
  obtain rfl | rfl | rfl := lists_of_formatOf h
  · exact selector_bank.accepts_bind fun _ hu => accepts_widths idx hu
  all_goals
    exact selector_bank.accepts_bind fun _ hu => selector_hdrField.accepts_map fun _ hf =>
      ⟨rfl, hu ▸ hf ▸ rfl⟩

theorem buildCmd_UC (c s : BitVec 3) (h : formatOf op = some .UC) :
    Accepts { op, c, s } (s.toNat < 3 ∧ c.toNat < 4) (buildCmd { op, c, s } arg) := by
  obtain rfl | rfl | rfl | rfl := lists_of_formatOf h
  all_goals
    exact selector_bank.accepts_bind fun _ hu => selector_cur.accepts_map fun _ hc =>
      ⟨rfl, hu ▸ hc ▸ rfl⟩

theorem buildCmd_S (sz : BitVec 2) (h : formatOf op = some .S) :
    Accepts { op, sz } True (buildCmd { op, sz } arg) := by
  obtain rfl := lists_of_formatOf h
  refine accepts_some ⟨rfl, ?_⟩
  simp only [encodeFields, encodeSize_decodeSize]

end

/-- R82, R84, R86: the selector check of a listed opcode, once the unused fields are known to be 0. -/
theorem buildCmd_accepts {fmt : Format} {f : CmdFields} (arg : Word) (hfmt : formatOf f.op = some fmt)
    (hz : fmt.unusedZero f = true) : Accepts f (selectorsLegal fmt f) (buildCmd f arg) := by
  rw [← used_of_unusedZero hz]
  cases fmt with
  | N => exact buildCmd_N arg hfmt
  | C => exact buildCmd_C arg f.c hfmt
  | P => exact buildCmd_P arg f.sz f.le f.w f.c hfmt
  | CC => exact buildCmd_CC arg f.c f.s hfmt
  | F => exact buildCmd_F arg f.idx hfmt
  | FP => exact buildCmd_FP arg f.sz f.le f.w f.idx hfmt
  | FB => exact buildCmd_FB arg f.w f.idx hfmt
  | FC => exact buildCmd_FC arg f.c f.idx hfmt
  | U => exact buildCmd_U arg f.s hfmt
  | UF => exact buildCmd_UF arg f.s f.idx hfmt
  | UC => exact buildCmd_UC arg f.c f.s hfmt
  | S => exact buildCmd_S arg f.sz hfmt

/-- Settles O5: the instruction's fields are those of the word, and a word is its fields. -/
theorem encodeOfDecode : Obligations.EncodeOfDecode := by
  intro cw arg i h
  obtain ⟨fmt, hfmt, hz, hi⟩ := decode_eq_ok_iff.1 h
  obtain ⟨hwf, hfields⟩ := (buildCmd_accepts arg hfmt hz).encodes i hi
  exact ⟨hwf, by rw [encode, hfields, packCmd_unpackCmd]⟩

/-- R86: the opcode map has a row for the listed opcodes only. -/
theorem formatOf_isSome_iff : ∀ op : BitVec 8, (formatOf op).isSome = true ↔ op ∈ listedOpcodes := by
  decide

/-- R87: the decoder accepts the legal command words, whatever `arg` is. -/
theorem decode_ok_iff_legal {cw : CmdWord} {arg : Word} :
    (∃ i, decode cw arg = .ok i) ↔ legalCommand cw := by
  simp only [decode_eq_ok_iff, legalCommand_iff]
  constructor
  · rintro ⟨i, fmt, hfmt, hz, hi⟩
    exact ⟨fmt, hfmt, hz, (buildCmd_accepts arg hfmt hz).isSome_iff.1 (Option.isSome_of_mem hi)⟩
  · rintro ⟨fmt, hfmt, hz, hsel⟩
    obtain ⟨i, hi⟩ := Option.isSome_iff_exists.1 ((buildCmd_accepts arg hfmt hz).isSome_iff.2 hsel)
    exact ⟨i, fmt, hfmt, hz, hi⟩

/-- R87, R262: a pair that is no command is refused with `ERR_ILLEGAL`. -/
theorem runCommand_of_illegal {cw : CmdWord} (h : ¬ legalCommand cw) (arg : Word) (s : State) :
    runCommand cw arg s = refuse .errIllegal s := by
  unfold runCommand
  cases hdec : decode cw arg with
  | ok i => exact absurd (decode_ok_iff_legal.1 ⟨i, hdec⟩) h
  | error e => rfl

/-- Settles O2: the checks of the decoder are those of `legalCommand`, and what fails them is refused and
answered as any command is. -/
theorem illegalCommandsRefused : Obligations.IllegalCommandsRefused := by
  refine ⟨formatOf_isSome_iff, fun cw arg => decode_ok_iff_legal, fun s cw arg rest hin hill => ?_⟩
  have hstep : step s = acceptCommand cw arg (takeMove rest s) := step_move hin
  rw [hstep, acceptCommand, runCommand_of_illegal hill]
  rfl

/-- Settles O3: each word is decoded by evaluation, with `arg` free where the command has a 64-bit operand
or none. -/
theorem workedEncodings : Obligations.WorkedEncodings :=
  ⟨fun _ => rfl, fun _ => rfl, fun _ => rfl, fun _ => rfl, fun _ => rfl, fun _ => rfl, fun _ => rfl,
    fun _ => rfl, fun _ => rfl, rfl⟩

end Sys2Proof
end

section
/-! A put or a get that moves no bit (R103 to R105): the commands that put or get through a bad cursor, of
zero bits, or against a precondition. -/

namespace Sys2Proof.Machine

/-! ### One put, one get -/

/-- R104, R105: a put on a bad cursor, or of no bits, does nothing. -/
theorem putProc_idle {W : Nat} {cu : Cursor} (h : cu.bad = true ∨ W = 0) (v : Word) (U : Nat) (le : Bool)
    (m : Memory) : putProc v W U le (m, cu) = .ok (m, cu) := by
  rcases h with hbad | hzero
  · simp [putProc, hbad]
  · simp [putProc, hzero]

/-- R104, R105: a get on a bad cursor, or of no bits, returns nothing. -/
theorem getProc_idle {W : Nat} {cu : Cursor} (h : cu.bad = true ∨ W = 0) (U : Nat) (le : Bool)
    (m : Memory) : getProc m W U le cu = .ok (none, cu) := by
  rcases h with hbad | hzero
  · simp [getProc, hbad]
  · simp [getProc, hzero]

section
variable {W U : Nat} {cu : Cursor} (hgood : cu.bad = false) (hW : W ≠ 0)
  (hviol : U < W ∨ 8 * cu.size.toNat < cu.cursor.toNat + W)
include hgood hW hviol

/-- R103: a put that violates a precondition sets `bad` and writes nothing. -/
theorem putProc_violation (v : Word) (le : Bool) (m : Memory) :
    putProc v W U le (m, cu) = .ok (m, cu.setBad) := by
  have hv : violates cu W U = true := by simpa [violates] using hviol
  simp [putProc, hgood, hW, hv]

/-- R103: a get that violates a precondition sets `bad` and returns nothing. -/
theorem getProc_violation (le : Bool) (m : Memory) : getProc m W U le cu = .ok (none, cu.setBad) := by
  have hv : violates cu W U = true := by simpa [violates] using hviol
  simp [getProc, hgood, hW, hv]

end

/-! ### Commands whose procedure changes nothing -/

/-- R265: a command that completes with the state it began in changes `LAST` only. -/
theorem completeWith_still {α : Type} {r : Except Fault α} {k : α → State} {x : α} {s : State}
    (hr : r = .ok x) (hk : k x = s) : completeWith r k = .next { s with last := 0 } := by
  rw [hr, completeWith_ok, hk]

/-- R105: a writer whose procedure leaves MEM and the cursor changes `LAST` only. -/
theorem throughWriter_still {s : State} {c : CurSel}
    {proc : Memory × Cursor → Except Fault (Memory × Cursor)}
    (h : proc (s.mem, s.cur c) = .ok (s.mem, s.cur c)) :
    throughWriter s c proc = .next { s with last := 0 } :=
  completeWith_still h (setCur_self s c)

/-- R88: a check that holds lets the command go on. -/
theorem check_passed {b : Bool} (h : b = true) (st : Status) (s : State) (r : Result) :
    (if !b then refuse st s else r) = r := by
  simp [h]

/-- R131: a configured field passes the check of its shape. -/
theorem shapeCheck_passed {s : State} {f : Fin 16} (h : s.fd[f].w ≠ 0) (r : Result) :
    (if unconfigured s f then refuse .errShape s else r) = r :=
  if_neg (by simpa [unconfigured] using h)

/-! ### A put or a get of zero bits, or on a bad cursor (R104, R105) -/

/-- R104, R105: `CUR.PUT` on a bad cursor, or of no bits. -/
theorem execCurPut_idle {sz : Size} {le : Bool} {w : BitVec 7} {c : CurSel} {s : State} (v : Word)
    (hrole : writable c = true) (hle : le = true → w.toNat % 8 = 0)
    (h : (s.cur c).bad = true ∨ w.toNat = 0) :
    exec (.curPut sz le w c v) s = .next { s with last := 0 } :=
  (execCurPut_of_legal v s hrole hle).trans (throughWriter_still (putProc_idle h _ _ _ _))

/-- R104, R105: `CUR.GET` on a bad cursor, or of no bits. -/
theorem execCurGet_idle {sz : Size} {le : Bool} {w : BitVec 7} {c : CurSel} {s : State}
    (hrole : readable c = true) (hle : le = true → w.toNat % 8 = 0)
    (h : (s.cur c).bad = true ∨ w.toNat = 0) :
    exec (.curGet sz le w c) s = .next { s with last := 0 } :=
  (execCurGet_of_legal s hrole hle).trans (completeWith_still (getProc_idle h _ _ _) (setCur_self s c))

section
variable {s : State} {c : CurSel} (hbad : (s.cur c).bad = true)
include hbad

/-- R105, R113: the procedures of the writers, on a bad cursor. -/
theorem writers_bad (hrole : writable c = true) :
    (∀ src, src ≠ c → cursorOk s.mem.size (s.cur src) →
      exec (.curAppend c src) s = .next { s with last := 0 }) ∧
    (∀ f : Fin 16, s.fd[f].w ≠ 0 → exec (.fldSer c f) s = .next { s with last := 0 }) ∧
    exec (.colSer c) s = .next { s with last := 0 } ∧
    ∀ u, exec (.phSer u c) s = .next { s with last := 0 } ∧
      exec (.shSer u c) s = .next { s with last := 0 } := by
  have hheader : ∀ u l, serHeader (s.bank u) l (s.mem, s.cur c) = .ok (s.mem, s.cur c) := fun u l =>
    (serHeader_eq _ _ _).trans (putSeq_bad _ hbad)
  refine ⟨fun src hne hsrc => ?_, fun f hf => ?_, ?_, fun u => ⟨?_, ?_⟩⟩
  · have hcopy := appendStream_bad hbad (sourceIn_of_ok hsrc)
    exact (check_passed hrole _ s _).trans ((if_neg hne.symm).trans (throughWriter_still hcopy))
  · have hput : putField s.fd[f] s.fv[f] (s.mem, s.cur c) = .ok (s.mem, s.cur c) :=
      putProc_idle (.inl hbad) _ _ _ _
    exact (check_passed hrole _ s _).trans ((shapeCheck_passed hf _).trans (throughWriter_still hput))
  · exact (check_passed hrole _ s _).trans
      (throughWriter_still ((serFields_eq _ _ _ _).trans (putSeq_bad _ hbad)))
  · exact (check_passed hrole _ s _).trans (throughWriter_still (hheader u _))
  · exact (check_passed hrole _ s _).trans (throughWriter_still (hheader u _))

/-- R105: the procedures of the readers, on a bad cursor. -/
theorem readers_bad (hrole : readable c = true) :
    (∀ f : Fin 16, s.fd[f].w ≠ 0 → exec (.fldDes c f) s = .next { s with last := 0 }) ∧
    exec (.colDes c) s = .next { s with last := 0 } ∧
    ∀ u, exec (.phDes u c) s = .next { s with last := 0 } ∧
      exec (.shDes u c) s = .next { s with last := 0 } := by
  have hbank : ∀ u, (s.setBank u (s.bank u)).setCur c (s.cur c) = s := fun u => by
    rw [setBank_self, setCur_self]
  refine ⟨fun f hf => ?_, ?_, fun u => ⟨?_, ?_⟩⟩
  · have hget : getField s.fd[f] s.mem (s.cur c) = .ok (none, s.cur c) := getProc_idle (.inl hbad) _ _ _
    have hself : (s.setFv f s.fv[f]).setCur c (s.cur c) = s := by rw [setFv_self, setCur_self]
    exact (check_passed hrole _ s _).trans ((shapeCheck_passed hf _).trans (completeWith_still hget hself))
  · exact (check_passed hrole _ s _).trans
      (completeWith_still (desFields_bad _ _ hbad) (setCur_self s c))
  · exact (check_passed hrole _ s _).trans (completeWith_still (desHeader_bad _ _ hbad) (hbank u))
  · exact (check_passed hrole _ s _).trans (completeWith_still (desHeader_bad _ _ hbad) (hbank u))

end

/-- Settles O25: every procedure of puts or gets on a bad cursor gives back what it was given, so that the
command completes with the state it began in. -/
theorem badCursorMovesNothing : Obligations.BadCursorMovesNothing := fun _ _ hbad =>
  ⟨fun hrole => ⟨fun _ _ _ v hle => execCurPut_idle v hrole hle (.inl hbad), writers_bad hbad hrole⟩,
    fun hrole => ⟨fun _ _ _ hle => execCurGet_idle hrole hle (.inl hbad), readers_bad hbad hrole⟩⟩

/-- Settles O23: the width is tested before the octet order and the room can matter. -/
theorem zeroBitsDoNothing : Obligations.ZeroBitsDoNothing := fun _ _ _ _ =>
  ⟨fun v hrole => execCurPut_idle v hrole (fun _ => rfl) (.inr rfl),
    fun hrole => execCurGet_idle hrole (fun _ => rfl) (.inr rfl)⟩

/-- Settles O24: the procedure sets `bad` before it moves a bit, and the command completes. -/
theorem violationSetsBad : Obligations.ViolationSetsBad := by
  intro sz le w c s hle hgood hw hviol
  have hpos : w.toNat ≠ 0 := fun h => hw (BitVec.eq_of_toNat_eq h)
  refine ⟨fun v hrole => ?_, fun hrole => ?_⟩
  · exact (execCurPut_of_legal v s hrole hle).trans
      (throughWriter_ok (putProc_violation hgood hpos hviol v le s.mem))
  · refine (execCurGet_of_legal s hrole hle).trans ?_
    rw [getProc_violation hgood hpos hviol le s.mem, completeWith_ok]
    rfl

end Sys2Proof.Machine
end

section
/-! The streams of several commands (R108, R109, R113): a value put is got back, a row of puts is one
stream, and `CUR.APPEND` copies a stream. -/

namespace Sys2Proof.Machine

/-! ### What was put is got back (R108) -/

/-- R61: a stream depends on the octets it runs through. -/
theorem stream_congr {m m' : Memory} {p n : Nat}
    (h : ∀ a, p / 8 ≤ a → a < ceilDiv (p + n) 8 → m'.octet a = m.octet a) :
    m'.stream p n = m.stream p n := by
  unfold Memory.stream Memory.bit
  refine List.map_congr_left fun k hk => ?_
  have hk : k < n := List.mem_range.1 hk
  rw [h ((p + k) / 8) (by omega) (by unfold ceilDiv; omega)]

/-- R62, R108: a value below `2^W` with the stream of `v` is the low `W` bits of `v`. -/
theorem eq_low_of_wordStream {r v : Word} {W : Nat} {le : Bool} (hle : le = true → W % 8 = 0)
    (hr : r.toNat < 2 ^ W) (h : wordStream r W le = wordStream v W le) :
    r = BitVec.ofNat 64 (v.toNat % 2 ^ W) := by
  apply BitVec.eq_of_getLsbD_eq
  intro i hi
  rw [BitVec.getLsbD_ofNat, Nat.testBit_mod_two_pow]
  by_cases hiW : i < W
  · rw [eq_of_wordStream hle h i hiW]
    simp [hi, hiW, BitVec.getLsbD]
  · simp [hiW, bits_of_lt hr i (Nat.le_of_not_lt hiW)]

/-- Settles O28: the put wrote the value's stream over clear bits (`putWritesBits`), the octets it reached
still hold it, and the get replies the value below `2^w` that has this stream (`getReadsBits`). -/
theorem putThenGet : Obligations.PutThenGet := by
  intro sz sz' le w c d v s t t' hwr hrd hle hw hsz hsz' hroom hclear hput hkept hroom' hpos
  obtain ⟨m, hexec, hwrote⟩ := putWritesBits sz le w c v s hwr hle hsz hroom
  have ht : t.mem = m := by
    cases hexec.symm.trans hput
    exact setCur_mem _ _ _
  have hlen := wordStream_length v w.toNat le
  have hstream : t'.mem.stream (s.cur c).bitPos w.toNat = wordStream v w.toNat le := calc
    t'.mem.stream (s.cur c).bitPos w.toNat = t.mem.stream (s.cur c).bitPos w.toNat := stream_congr hkept
    _ = m.stream (s.cur c).bitPos (wordStream v w.toNat le).length := by rw [ht, hlen]
    _ = wordStream v w.toNat le := hwrote.stream_eq hclear
  obtain ⟨r, hget, hlt, hread⟩ := getReadsBits sz' le w d t' hrd hle hsz' hw hroom'
  rw [hpos, hstream] at hread
  rw [hget, eq_low_of_wordStream hle hlt hread]

/-! ### A row of puts is one stream (R109) -/

/-- The operands of a `CUR.PUT`: container, octet order, width, value. -/
abbrev PutArgs := Size × Bool × BitVec 7 × Word

/-- The `CUR.PUT` of these operands. -/
def PutArgs.instr (c : CurSel) (p : PutArgs) : Instr := .curPut p.1 p.2.1 p.2.2.1 c p.2.2.2

/-- The put that `CUR.PUT` of these operands does (R111). -/
def PutArgs.put (p : PutArgs) : Put :=
  { v := p.2.2.2, W := p.2.2.1.toNat, U := sizeBits p.1, le := p.2.1 }

/-- R48, R111: a row of `CUR.PUT`s is the sequence of their puts through the one cursor. -/
theorem execAll_puts {c : CurSel} (hrole : writable c = true) : ∀ {ps : List PutArgs} {s : State}
    {m : Memory} {cu : Cursor}, (∀ p ∈ ps, p.put.legal) →
    putSeq (ps.map PutArgs.put) (s.mem, s.cur c) = .ok (m, cu) →
    ∃ t, execAll (ps.map (PutArgs.instr c)) s = .next t ∧ t.mem = m ∧ t.cur c = cu
  | [], s, _, _, _, h => by
    cases h
    exact ⟨s, rfl, rfl, rfl⟩
  | p :: ps, s, m, cu, hlegal, h => by
    obtain ⟨⟨m1, cu1⟩, hfirst, hrest⟩ := putSeq_cons.1 h
    obtain ⟨hp, hps⟩ := List.forall_mem_cons.1 hlegal
    have hexec : exec (p.instr c) s = .next { ({ s with mem := m1 } : State).setCur c cu1 with last := 0 } :=
      (execCurPut_of_legal _ s hrole hp.2).trans (throughWriter_ok hfirst)
    obtain ⟨t, ht, hmem, hcur⟩ := execAll_puts hrole hps
      (s := { ({ s with mem := m1 } : State).setCur c cu1 with last := 0 }) (m := m) (cu := cu)
      (by cases c <;> exact hrest)
    refine ⟨t, ?_, hmem, hcur⟩
    simp only [List.map_cons, execAll, hexec]
    exact ht

/-- R67, R109: two memories in which the same bits were put at the same place hold the same octets. -/
theorem wroteStream.octet_unique {m m1 m2 : Memory} {p : Nat} {bits : List Bool}
    (h1 : wroteStream m m1 p bits) (h2 : wroteStream m m2 p bits) (a : Nat) : m1.octet a = m2.octet a :=
  octet_eq_of_bits fun n _ => (h1.bit n).trans (h2.bit n).symm

/-- R109: a row of `CUR.PUT`s with room for its bits writes them and moves the cursor by as many. -/
theorem execAll_puts_write {c : CurSel} {s : State} {ps : List PutArgs} (hrole : writable c = true)
    (hlegal : ∀ p ∈ ps, p.put.legal ∧ p.put.W ≤ p.put.U)
    (hroom : hasRoom s (s.cur c) (putBitsOf (ps.map PutArgs.put)).length) :
    ∃ t, execAll (ps.map (PutArgs.instr c)) s = .next t ∧
      t.cur c = (s.cur c).moved (putBitsOf (ps.map PutArgs.put)).length ∧
      wroteStream s.mem t.mem (s.cur c).bitPos (putBitsOf (ps.map PutArgs.put)) := by
  obtain ⟨hgood, hwin, hfit⟩ := hroom
  obtain ⟨m, hseq, hwrote, -⟩ := putSeq_writes (List.forall_mem_map.2 hlegal) hgood hwin hfit
  obtain ⟨t, hexec, hmem, hcur⟩ := execAll_puts hrole (fun p hp => (hlegal p hp).1) hseq
  exact ⟨t, hexec, hcur, hmem ▸ hwrote⟩

/-- R109: the bits of two values joined, the second one the lower. -/
theorem joined_getLsbD (v1 v2 : Word) {W1 W2 i : Nat} (h : W1 + W2 ≤ 64) (hi : i < W1 + W2) :
    (((v1 &&& mask W1) <<< W2) ||| (v2 &&& mask W2)).getLsbD i =
      if i < W2 then v2.getLsbD i else v1.getLsbD (i - W2) := by
  have hi64 : i < 64 := by omega
  have hsub : i - W2 < 64 := by omega
  simp only [BitVec.getLsbD_or, BitVec.getLsbD_shiftLeft, BitVec.getLsbD_and, mask_getLsbD]
  by_cases hlow : i < W2
  · simp only [hi64, hlow, decide_true, Bool.not_true, Bool.and_false, Bool.false_and, Bool.false_or,
      Bool.and_true, if_true]
  · have hhigh : i - W2 < W1 := by omega
    simp only [hi64, hsub, hlow, hhigh, decide_true, decide_false, Bool.not_false, Bool.and_true,
      Bool.true_and, Bool.and_false, Bool.or_false, if_false]

/-- R61, R109: the bits of two big-endian values in a row are those of the two values joined. -/
theorem wordStream_append (v1 v2 : Word) {W1 W2 : Nat} (h : W1 + W2 ≤ 64) :
    wordStream v1 W1 false ++ wordStream v2 W2 false =
      wordStream (((v1 &&& mask W1) <<< W2) ||| (v2 &&& mask W2)) (W1 + W2) false := by
  simp only [wordStream, List.range_add, List.map_append, List.map_map, Bool.false_eq_true, if_false]
  congr 1
  · refine List.map_congr_left fun k hk => ?_
    have hk : k < W1 := List.mem_range.1 hk
    rw [joined_getLsbD v1 v2 h (by omega), if_neg (by omega)]
    congr 1
    omega
  · refine List.map_congr_left fun k hk => ?_
    have hk : k < W2 := List.mem_range.1 hk
    rw [Function.comp_apply, joined_getLsbD v1 v2 h (by omega), if_pos (by omega)]
    congr 1
    omega

/-- Settles O29: each row writes its own bits and moves by as many (`execAll_puts_write`), and the bits of
the two rows are the same. -/
theorem putsAreOneStream : Obligations.PutsAreOneStream := by
  refine ⟨fun c s ps qs hrole hlegal hroom hbits => ?_, fun v1 v2 W1 W2 h => wordStream_append v1 v2 h⟩
  have hputs : ∀ l : List PutArgs, putBitsOf (l.map PutArgs.put) =
      l.flatMap fun p => wordStream p.2.2.2 p.2.2.1.toNat p.2.1 := fun l => by
    rw [putBitsOf, List.flatMap_map]
    rfl
  have hsame : putBitsOf (ps.map PutArgs.put) = putBitsOf (qs.map PutArgs.put) := by
    rw [hputs, hputs, hbits]
  have hlen : (putBitsOf (ps.map PutArgs.put)).length = (ps.map fun p => p.2.2.1.toNat).sum := by
    rw [putBitsOf_length, List.map_map]
    rfl
  have hok : ∀ p ∈ ps ++ qs, (PutArgs.put p).legal ∧ (PutArgs.put p).W ≤ (PutArgs.put p).U := fun p hp =>
    ⟨⟨sizeBits_le p.1, (hlegal p hp).2⟩, (hlegal p hp).1⟩
  rw [← hlen] at hroom
  obtain ⟨t, hexec, hcur, hwrote⟩ := execAll_puts_write hrole
    (fun p hp => hok p (List.mem_append_left qs hp)) hroom
  obtain ⟨t', hexec', hcur', hwrote'⟩ := execAll_puts_write hrole
    (fun p hp => hok p (List.mem_append_right ps hp)) (hsame ▸ hroom)
  rw [← hsame] at hcur' hwrote'
  exact ⟨t, t', hexec, hexec', hcur.trans hcur'.symm, hwrote.octet_unique hwrote'⟩

/-! ### `CUR.APPEND` (R113) -/

/-- R113: the copy moves no more bits than there is room for. -/
theorem appendFit_le_room (n room : Nat) : appendFit n room ≤ room := by
  unfold appendFit
  split <;> omega

/-- R113: a self-append sets `bad` and copies nothing. -/
theorem execCurAppend_self {c : CurSel} (s : State) (hrole : writable c = true) :
    exec (.curAppend c c) s = .next { s.setCur c { s.cur c with bad := true } with last := 0 } :=
  (check_passed hrole _ s _).trans ((if_pos rfl).trans (complete_eq _))

/-- R88, R113: an append onto another cursor goes through the destination. -/
theorem execCurAppend_other {dst src : CurSel} (s : State) (hrole : writable dst = true) (hne : dst ≠ src) :
    exec (.curAppend dst src) s = throughWriter s dst (appendStream (s.cur src)) :=
  (check_passed hrole _ s _).trans (if_neg hne)

/-- Settles O30: the copy is `appendStream`, whose result `appendStream_spec` states; the octets outside
those reached are the ones any sequence of puts leaves alone (`appendStream_wentOn`). -/
theorem appendCopies : Obligations.AppendCopies := by
  refine ⟨fun c s hrole => execCurAppend_self s hrole, ?_⟩
  intro dst src s hrole hne hgood ⟨hwin, hpos⟩ hsrc
  obtain ⟨m, hcopy, -, hsize, hbits⟩ := appendStream_spec hgood hwin hpos (sourceIn_of_ok hsrc)
  refine ⟨m, (execCurAppend_other s hrole hne).trans (throughWriter_ok hcopy), hsize, ?_, hbits⟩
  have hfit := appendFit_le_room (s.cur src).cursor.toNat (s.cur dst).room
  have hend := moved_bitPos (s.cur dst) (room_lt
    (n := appendFit (s.cur src).cursor.toNat (s.cur dst).room) (by unfold Cursor.room at hfit ⊢; omega))
  exact fun a ha => (appendStream_wentOn hcopy).octet a (hend ▸ ha)

end Sys2Proof.Machine
end

section
/-! The bit cursor commands that move no bit: `CUR.ATTACH`, the replies, and the refusal of fractional
little-endian (R107, R110, R114 to R117). -/

namespace Sys2Proof.Machine

/-- R80 to R83: a word whose fields pass the checks of their format is the command `buildCmd` makes of
them. -/
theorem encodes_of_format {f : CmdFields} {i : Word → Instr} (fmt : Format)
    (hop : formatOf f.op = some fmt) (hzero : fmt.unusedZero f = true)
    (hbuild : ∀ arg, buildCmd f arg = some (i arg)) : encodes f i := fun arg =>
  decode_eq_ok_iff.2 ⟨fmt, by rwa [unpackCmd_packCmd], by rwa [unpackCmd_packCmd],
    by rw [unpackCmd_packCmd]; exact hbuild arg⟩

/-- R24, R110: the cursor attached to a window has the window's own registers. -/
theorem attached_window (win : Window) : attached win.base.toNat win.size.toNat =
    { base := win.base, size := win.size, cursor := 0, bad := false } := by
  simp [attached]

/-- Settles O19: the role and the window are checked in this order, and what passes both is attached. -/
theorem attachResult : Obligations.AttachResult := by
  refine ⟨fun c => encodes_of_format .C rfl rfl fun arg => ?_, fun win s => ⟨rfl, rfl, fun c hc => ?_⟩⟩
  · simp [buildCmd, windowOf]
  · have hrole : attachable c = true := by rcases hc with rfl | rfl <;> rfl
    refine ⟨fun hout => (check_passed hrole _ s _).trans (windowCheck_refuses _ hout), fun hin => ?_⟩
    have hmem : inMem s win = true := decide_eq_true hin
    refine (check_passed hrole _ s _).trans ((check_passed hmem _ s _).trans ?_)
    rw [complete_eq, attached_window]

/-- Settles O20: each command replies one register of its cursor, zero-extended to 64 bits. -/
theorem cursorReplies : Obligations.CursorReplies := by
  refine ⟨fun c => ⟨?_, ?_, ?_, ?_⟩, fun c s => ⟨?_, reply_eq _ s, reply_eq _ s, ?_⟩⟩
  · exact encodes_of_format .C rfl rfl fun arg => by simp [buildCmd]
  · exact encodes_of_format .C rfl rfl fun arg => by simp [buildCmd]
  · exact encodes_of_format .C rfl rfl fun arg => by simp [buildCmd]
  · exact encodes_of_format .C rfl rfl fun arg => by simp [buildCmd]
  · rw [BitVec.ofNat_toNat]
    exact reply_eq _ s
  · rw [BitVec.ofNat_toNat]
    exact reply_eq _ s

/-- Settles O22: the check of `CUR.PUT` and `CUR.GET` has the code of the role's, so that the cursor does not
matter; that of `FLD.CFG` is part of its shape. -/
theorem littleEndianRefused : Obligations.LittleEndianRefused := by
  intro sz w s hw
  have hle : leIllegal true w.toNat = true := by simp [leIllegal, hw]
  refine ⟨fun c v => ?_, fun c => ?_, fun f => ?_⟩
  · show execCurPut sz true w c v s = _
    rw [execCurPut, if_pos hle, ite_self]
    rfl
  · show execCurGet sz true w c s = _
    rw [execCurGet, if_pos hle, ite_self]
    rfl
  · have hshape : badShape sz true w = true := by simp [badShape, hle]
    exact if_pos hshape

end Sys2Proof.Machine
end

section
/-! The field file's commands as their checks leave them (R131 to R145): the shape check, the schema, masked
values, and one command's procedure after the checks. -/

namespace Sys2Proof.Machine

/-- R131: an unconfigured field fails the check of its shape, whatever the rest of the command is. -/
theorem shapeCheck_refuses {s : State} {f : Fin 16} (h : s.fd[f].w = 0) (r : Result) :
    (if unconfigured s f then refuse .errShape s else r) = refusedShape s :=
  if_pos (decide_eq_true h)

/-- R138, R139: an index at or above the width fails the check of the bit. -/
theorem bitCheck_refuses {s : State} {b w : Nat} (h : w ≤ b) (r : Result) :
    (if w ≤ b then refuse .errIllegal s else r) = refusedIllegal s :=
  if_pos h

/-- R36: the indices below a count, in order. -/
theorem take_finRange (k : Nat) : ∀ n : Nat,
    (List.finRange n).take k = (List.finRange n).filter fun f => f.val < k
  | 0 => by simp
  | n + 1 => by
    cases k with
    | zero => simp
    | succ k =>
      rw [List.finRange_succ, List.take_succ_cons, ← List.map_take, take_finRange k n,
        List.filter_cons_of_pos (by simp), List.filter_map]
      simp [Function.comp_def]

/-- R133: the fields that a count takes in are those below it. -/
theorem mem_take_finRange {n k : Nat} {f : Fin n} : f ∈ (List.finRange n).take k ↔ f.val < k := by
  simp [take_finRange]

theorem schema_nodup (s : State) : s.schema.Nodup :=
  (List.nodup_finRange 16).sublist (List.take_sublist _ _)

/-- R11: a mask of `w` bits keeps a number modulo `2^w`, also where `w` is above 64. -/
theorem ofNat_and_mask (n w : Nat) :
    BitVec.ofNat 64 n &&& mask w = BitVec.ofNat 64 (n % 2 ^ w) := by
  apply BitVec.eq_of_getLsbD_eq
  intro i hi
  simp only [BitVec.getLsbD_and, BitVec.getLsbD_ofNat, mask_getLsbD, Nat.testBit_mod_two_pow, hi,
    decide_true, Bool.true_and, Bool.and_comm]

/-! ### The commands that put or get, after their checks (R140, R141, R143, R144) -/

section
variable {c : CurSel} {s : State}

theorem execFldSer_of_configured {f : Fin 16} (hrole : writable c = true) (hf : s.fd[f].w ≠ 0) :
    exec (.fldSer c f) s = throughWriter s c (putField s.fd[f] s.fv[f]) :=
  (check_passed hrole _ s _).trans (shapeCheck_passed hf _)

theorem execFldDes_of_configured {f : Fin 16} (hrole : readable c = true) (hf : s.fd[f].w ≠ 0) :
    exec (.fldDes c f) s = completeWith (getField s.fd[f] s.mem (s.cur c)) fun rc =>
      (s.setFv f (rc.1.getD s.fv[f])).setCur c rc.2 :=
  (check_passed hrole _ s _).trans (shapeCheck_passed hf _)

theorem execColSer_of_writable (hrole : writable c = true) :
    exec (.colSer c) s = throughWriter s c (serFields s.fd s.fv s.schema) :=
  check_passed hrole _ s _

theorem execColDes_of_readable (hrole : readable c = true) :
    exec (.colDes c) s = completeWith (desFields s.fd s.mem s.schema (s.fv, s.cur c)) fun vc =>
      ({ s with fv := vc.1 } : State).setCur c vc.2 :=
  check_passed hrole _ s _

end

end Sys2Proof.Machine
end

section
/-! The field commands that move no bit of a stream (R131 to R139, R142, R145). -/

namespace Sys2Proof.Machine

/-- Settles O31: the shape is checked before everything but a cursor's role; `FLD.WIDTH` checks nothing. -/
theorem unconfiguredRefused : Obligations.UnconfiguredRefused := by
  intro f s h
  have refuses := fun r => shapeCheck_refuses h r
  refine ⟨fun _ => refuses _, refuses _, refuses _, refuses _, fun _ => refuses _, fun _ _ => refuses _,
    fun c hc => ?_, fun c hc => ?_, ?_⟩
  · exact (check_passed hc _ s _).trans (refuses _)
  · exact (check_passed hc _ s _).trans (refuses _)
  · show execFldWidth f s = _
    rw [execFldWidth, h]
    exact reply_eq _ s

/-- R132: the shapes refused are those with no bit, with more bits than the type, and the fractional
little-endian ones. -/
theorem badShape_iff {sz : Size} {le : Bool} {w : BitVec 7} : badShape sz le w = true ↔
    w = 0 ∨ sizeBits sz < w.toNat ∨ (le = true ∧ w.toNat % 8 ≠ 0) := by
  simp [badShape, leIllegal, or_assoc]

/-- R133: a count is refused exactly if it takes in an unconfigured field. -/
theorem anyUnconfigured_iff {s : State} {n : Nat} :
    ((List.finRange 16).take n).any (unconfigured s) = true ↔
      ∃ f : Fin 16, f.val < n ∧ s.fd[f].w = 0 := by
  simp only [List.any_eq_true, mem_take_finRange, unconfigured, decide_eq_true_eq]

/-- Settles O32: each command is one check and one update. -/
theorem fieldShapes : Obligations.FieldShapes := by
  refine ⟨fun sz le w f => ?_, fun n => ?_, fun sz le w f s => ⟨fun hbad => ?_, fun hw hsz hle => ?_⟩,
    fun n s => ⟨fun hnone => ?_, fun hall => ?_⟩⟩
  · exact encodes_of_format .FP rfl rfl fun arg => by simp [buildCmd]
  · exact encodes_of_format .F rfl rfl fun arg => by simp [buildCmd]
  · exact if_pos (badShape_iff.2 hbad)
  · have hshape : ¬ badShape sz le w = true := by
      rw [badShape_iff]
      rintro (h | h | ⟨h, hfrac⟩)
      · exact hw h
      · omega
      · exact hfrac (hle h)
    exact (if_neg hshape).trans (complete_eq _)
  · exact if_pos (anyUnconfigured_iff.2 hnone)
  · have hcfg : ¬ ((List.finRange 16).take n).any (unconfigured s) = true := by
      rw [anyUnconfigured_iff]
      exact fun ⟨f, hlt, hzero⟩ => hall f hlt hzero
    exact (if_neg hcfg).trans (complete_eq _)

/-- R134, R136, R137: a value computed as `n` and masked to its field's width is `n` modulo `2^w`. -/
theorem complete_setFv_masked (s : State) (f : Fin 16) (n w : Nat) :
    complete (s.setFv f (BitVec.ofNat 64 n &&& mask w)) =
      .next { s with fv := s.fv.set f (BitVec.ofNat 64 (n % 2 ^ w)), last := 0 } := by
  rw [ofNat_and_mask, complete_eq]
  rfl

/-- Settles O33: a value is masked when it is set, and replied as it is; the widths are replied as they
stand in the descriptors. -/
theorem fieldRegisters : Obligations.FieldRegisters := by
  refine ⟨fun f => ⟨?_, ?_, ?_⟩, ?_, fun s => ?_,
    fun f s => ⟨?_, fun hzero => ?_, fun hcfg => ⟨fun v => ?_, ?_⟩⟩⟩
  · exact encodes_of_format .F rfl rfl fun arg => by simp [buildCmd]
  · exact encodes_of_format .F rfl rfl fun arg => by simp [buildCmd]
  · exact encodes_of_format .F rfl rfl fun arg => by simp [buildCmd]
  · exact encodes_of_format .N rfl rfl fun arg => rfl
  · rw [← take_finRange]
    exact reply_eq _ s
  · rw [BitVec.ofNat_toNat]
    exact reply_eq _ s
  · exact ⟨fun _ => shapeCheck_refuses hzero _, shapeCheck_refuses hzero _⟩
  · refine (shapeCheck_passed hcfg _).trans ?_
    have hset := complete_setFv_masked s f v.toNat s.fd[f].w.toNat
    rwa [BitVec.ofNat_toNat, BitVec.setWidth_eq] at hset
  · exact (shapeCheck_passed hcfg _).trans (reply_eq _ s)

/-- R136: adding 1 to a word, as a number before the mask. -/
theorem succ_eq_ofNat (v : Word) : v + 1 = BitVec.ofNat 64 (v.toNat + 1) := by
  rw [BitVec.ofNat_add, BitVec.ofNat_toNat, BitVec.setWidth_eq]
  rfl

/-- R137: adding `2^w - 1` to a word, as a number before the mask. -/
theorem add_mask_eq_ofNat (v : Word) (w : Nat) : v + mask w = BitVec.ofNat 64 (v.toNat + 2 ^ w - 1) := by
  rw [Nat.add_sub_assoc Nat.one_le_two_pow, BitVec.ofNat_add, BitVec.ofNat_toNat, BitVec.setWidth_eq]
  rfl

/-- R139: every bit of a value one bit of which was replaced. -/
theorem setBit_getLsbD (v : Word) (b : Nat) (bit : Bool) {k : Nat} (hk : k < 64) :
    ((v &&& ~~~((1 : Word) <<< b)) ||| (boolWord bit <<< b)).getLsbD k =
      if k = b then bit else v.getLsbD k := by
  have hword : ∀ j, (boolWord bit).getLsbD j = (decide (j = 0) && bit) := fun j => by
    cases bit <;> simp [boolWord]
  have hone : ∀ j, (1 : Word).getLsbD j = decide (j = 0) := fun j => by simp
  simp only [BitVec.getLsbD_or, BitVec.getLsbD_and, BitVec.getLsbD_not, BitVec.getLsbD_shiftLeft, hword,
    hone, hk, decide_true, Bool.true_and]
  by_cases hlt : k < b
  · simp [hlt, Nat.ne_of_lt hlt]
  · by_cases heq : k = b
    · simp [heq]
    · simp [hlt, heq, show k - b ≠ 0 by omega]

/-- Settles O34: the sum is masked, and one bit is replied or replaced once both checks have passed. -/
theorem fieldArithmetic : Obligations.FieldArithmetic := by
  refine ⟨fun f => ⟨?_, ?_, fun b => ⟨?_, ?_⟩⟩, fun f s => ⟨fun hzero => ?_, fun hcfg => ⟨?_, ?_⟩⟩,
    fun b f bit s => ⟨fun hzero => ?_, fun hcfg hout => ?_, fun hin => ?_⟩⟩
  · exact encodes_of_format .F rfl rfl fun arg => by simp [buildCmd]
  · exact encodes_of_format .F rfl rfl fun arg => by simp [buildCmd]
  · exact encodes_of_format .FB rfl rfl fun arg => by simp [buildCmd]
  · exact encodes_of_format .FB rfl rfl fun arg => by simp [buildCmd]
  · exact ⟨shapeCheck_refuses hzero _, shapeCheck_refuses hzero _⟩
  · refine (shapeCheck_passed hcfg _).trans ?_
    rw [succ_eq_ofNat, complete_setFv_masked]
  · refine (shapeCheck_passed hcfg _).trans ?_
    rw [add_mask_eq_ofNat, complete_setFv_masked]
  · exact ⟨shapeCheck_refuses hzero _, shapeCheck_refuses hzero _⟩
  · exact ⟨(shapeCheck_passed hcfg _).trans (bitCheck_refuses hout _),
      (shapeCheck_passed hcfg _).trans (bitCheck_refuses hout _)⟩
  · have hcfg : s.fd[f].w ≠ 0 := fun h => by
      rw [h] at hin
      exact Nat.not_lt_zero _ hin
    have hbit : ¬ s.fd[f].w.toNat ≤ b.toNat := Nat.not_le_of_gt hin
    refine ⟨(shapeCheck_passed hcfg _).trans ((if_neg hbit).trans (reply_eq _ s)),
      (s.fv[f] &&& ~~~((1 : Word) <<< b.toNat)) ||| (boolWord bit <<< b.toNat), ?_,
      fun k hk => setBit_getLsbD _ _ _ hk⟩
    exact (shapeCheck_passed hcfg _).trans ((if_neg hbit).trans (complete_eq _))

end Sys2Proof.Machine
end

section
/-! Fields and collections through a cursor (R140, R141, R143, R144). -/

namespace Sys2Proof.Machine

/-! ### Through a writer -/

theorem putSeq_singleton (p : Put) (mc : Memory × Cursor) :
    putSeq [p] mc = putProc p.v p.W p.U p.le mc := by
  rw [putSeq]
  cases putProc p.v p.W p.U p.le mc <;> rfl

/-- R140: the bits of the puts of fields are the bits of the fields. -/
theorem putBitsOf_fieldPut (fd : Vector FieldDesc 16) (fv : Vector Word 16) (l : List (Fin 16)) :
    putBitsOf (l.map (fieldPut fd fv)) = fieldsStream fd fv l := by
  rw [putBitsOf, List.flatMap_map]
  rfl

/-- R103, R105, R143: the puts of fields through a good cursor write the bits of the leading ones that
fit. -/
theorem fieldPuts_fit {fd : Vector FieldDesc 16} (fv : Vector Word 16) {l : List (Fin 16)} {m : Memory}
    {cu : Cursor} (hdescs : ∀ f ∈ l, descOk fd[f]) (hgood : cu.bad = false) (hok : cursorOk m.size cu) :
    ∃ m', putSeq (l.map (fieldPut fd fv)) (m, cu) = .ok (m', cu.after (l.map fun f => fd[f].w.toNat)) ∧
      wroteStream m m' cu.bitPos
        ((fieldsStream fd fv l).take (fitBits (l.map fun f => fd[f].w.toNat) cu.room)) := by
  have hlegal : ∀ p ∈ l.map (fieldPut fd fv), p.legal ∧ p.W ≤ p.U :=
    List.forall_mem_map.2 fun f hf => fieldPut_legal fv (hdescs f hf)
  obtain ⟨m', hput, hwrote, -⟩ := putSeq_fits hlegal hgood hok.1 hok.2
  rw [List.map_map] at hput hwrote
  rw [putBitsOf_fieldPut] at hwrote
  exact ⟨m', hput, hwrote⟩

/-- Settles O35: one put is the row of puts of one field. -/
theorem fieldSerializes : Obligations.FieldSerializes := by
  intro c f s hrole hcfg hdesc hgood hok
  obtain ⟨m, hput, hwrote⟩ := fieldPuts_fit (l := [f]) s.fv (List.forall_mem_singleton.2 hdesc) hgood hok
  rw [List.map_singleton, putSeq_singleton] at hput
  have hbits : fieldsStream s.fd s.fv [f] = fieldStream s f := List.flatMap_singleton _ _
  rw [hbits] at hwrote
  exact ⟨m, (execFldSer_of_configured hrole hcfg).trans (throughWriter_ok hput), hwrote⟩

/-- Settles O37: the puts of a collection are the row of its fields' puts. -/
theorem collectionSerializes : Obligations.CollectionSerializes := by
  intro c s hrole hdescs hgood hok
  obtain ⟨m, hput, hwrote⟩ := fieldPuts_fit s.fv hdescs hgood hok
  rw [← serFields_eq] at hput
  exact ⟨m, (execColSer_of_writable hrole).trans (throughWriter_ok hput), hwrote⟩

/-! ### Through a reader -/

/-- Settles O36: the bits are in the window or they are not. -/
theorem fieldDeserializes : Obligations.FieldDeserializes := by
  intro c f s hrole hcfg hdesc hgood ⟨hwin, hpos⟩
  have hw : s.fd[f].w.toNat ≠ 0 := fun h => hcfg (BitVec.eq_of_toNat_eq h)
  rw [execFldDes_of_configured hrole hcfg, getField]
  by_cases hfit : s.fd[f].w.toNat ≤ (s.cur c).room
  · have hroom : (s.cur c).cursor.toNat + s.fd[f].w.toNat ≤ 8 * (s.cur c).size.toNat := by
      unfold Cursor.room at hfit
      omega
    have hafter : (s.cur c).after [s.fd[f].w.toNat] = (s.cur c).moved s.fd[f].w.toNat :=
      after_all hgood hroom
    have hvalue := streamValue_reads s.mem (s.cur c).bitPos
      (Nat.le_trans hdesc.1 (sizeBits_le s.fd[f].sz)) hdesc.2
    rw [getProc_reads hgood hw hdesc.1 hwin hroom, completeWith_ok, hafter]
    exact ⟨_, rfl, fun _ => hvalue, fun h => absurd hfit (Nat.not_le_of_gt h)⟩
  · have hshort : (s.cur c).room < s.fd[f].w.toNat := Nat.lt_of_not_le hfit
    have hviol : 8 * (s.cur c).size.toNat < (s.cur c).cursor.toNat + s.fd[f].w.toNat := by
      unfold Cursor.room at hshort
      omega
    rw [getProc_violation hgood hw (.inr hviol), completeWith_ok, after_short hshort]
    exact ⟨_, rfl, fun h => absurd h hfit, fun _ => rfl⟩

/-- Settles O38: `desFields_fits` gives the stream of the schema's fields, `desFields_keeps` the other
fields and the bounds. -/
theorem collectionDeserializes : Obligations.CollectionDeserializes := by
  intro c s hrole hdescs hvalues hgood ⟨hwin, hpos⟩
  obtain ⟨fv, hget, hstream⟩ := desFields_fits (fv := s.fv) (schema_nodup s) hdescs hgood hwin hpos
  obtain ⟨-, hkept, hbounds⟩ := desFields_keeps hwin hget
  refine ⟨fv, ?_, hstream, hkept, hbounds hdescs hvalues⟩
  rw [execColDes_of_readable hrole, hget, completeWith_ok]
  rfl

end Sys2Proof.Machine
end

section
/-! A collection command is its fields' commands in a row (R143, R144). -/

namespace Sys2Proof.Machine

/-- The status of a command does not depend on the `LAST` before it (R263). -/
theorem completeWith_congr {α : Type} {k k' : α → State} (r : Except Fault α)
    (h : ∀ x, { k x with last := 0 } = { k' x with last := 0 }) : completeWith r k = completeWith r k' := by
  cases r with
  | ok x => rw [completeWith_ok, completeWith_ok, h x]
  | error e => rfl

/-- A procedure followed by a pure step, seen in the state it ends in. -/
theorem completeWith_bind_ok {α β : Type} (r : Except Fault α) (g : α → β) (k : β → State) :
    completeWith (r >>= fun x => .ok (g x)) k = completeWith r fun x => k (g x) := by
  cases r <;> rfl

/-- R48: commands that each do one turn of a loop, seen in states that differ in the loop's data only, do
the whole loop when they come in a row. -/
theorem execAll_foldlM {α β : Type} {k : α → State} {turn : α → β → Except Fault α} {cmd : β → Instr} :
    ∀ {l : List β}, (∀ b ∈ l, ∀ a, exec (cmd b) { k a with last := 0 } = completeWith (turn a b) k) →
      ∀ a, execAll (l.map cmd) { k a with last := 0 } = completeWith (l.foldlM turn a) k
  | [], _, a => (completeWith_ok a k).symm
  | b :: l, h, a => by
    obtain ⟨hb, hl⟩ := List.forall_mem_cons.1 h
    rw [List.map_cons, execAll, hb a, List.foldlM_cons]
    cases turn a b with
    | ok a' => rw [completeWith_ok, ok_bind]; exact execAll_foldlM hl a'
    | error e => rfl

/-- R143: `COL.SER` puts field by field. -/
theorem serFields_eq_foldlM (fd : Vector FieldDesc 16) (fv : Vector Word 16) :
    ∀ (l : List (Fin 16)) (mc : Memory × Cursor),
      serFields fd fv l mc = l.foldlM (fun mc f => putField fd[f] fv[f] mc) mc
  | [], _ => rfl
  | f :: l, mc => congrArg (putField fd[f] fv[f] mc >>= ·) (funext (serFields_eq_foldlM fd fv l))

/-- R144: the get of one field, which keeps the value when it returns nothing. -/
def desField (fd : Vector FieldDesc 16) (m : Memory) (vc : Vector Word 16 × Cursor) (f : Fin 16) :
    Except Fault (Vector Word 16 × Cursor) :=
  getField fd[f] m vc.2 >>= fun rc => .ok (vc.1.set f (rc.1.getD vc.1[f]), rc.2)

/-- R144: `COL.DES` gets field by field. -/
theorem desFields_eq_foldlM (fd : Vector FieldDesc 16) (m : Memory) :
    ∀ (l : List (Fin 16)) (vc : Vector Word 16 × Cursor),
      desFields fd m l vc = l.foldlM (desField fd m) vc
  | [], _ => rfl
  | f :: l, vc => by
    rw [desFields, List.foldlM_cons, desField]
    cases getField fd[f] m vc.2 with
    | error e => rfl
    | ok rc =>
      obtain ⟨r, cu⟩ := rc
      cases r with
      | none => simp [desFields_eq_foldlM fd m l]
      | some v => simp [desFields_eq_foldlM fd m l]

/-- Settles O39: `FLD.SER` and `FLD.DES` are one turn of the loops of `COL.SER` and `COL.DES`
(`execAll_foldlM`). -/
theorem collectionIsItsFields : Obligations.CollectionIsItsFields := by
  intro c s hcfg
  refine ⟨fun hrole => ?_, fun hrole => ?_⟩
  · have hturn : ∀ f ∈ s.schema, ∀ mc : Memory × Cursor,
        exec (.fldSer c f) { ({ s with mem := mc.1 } : State).setCur c mc.2 with last := 0 } =
          completeWith (putField s.fd[f] s.fv[f] mc) fun mc =>
            ({ s with mem := mc.1 } : State).setCur c mc.2 := fun f hf mc => by
      rw [execFldSer_of_configured hrole (by simpa using hcfg f hf), throughWriter]
      cases c <;> exact completeWith_congr _ fun _ => rfl
    have hrow := execAll_foldlM hturn (s.mem, s.cur c)
    rw [← serFields_eq_foldlM, setCur_self] at hrow
    exact (execColSer_of_writable hrole).trans hrow.symm
  · have hturn : ∀ f ∈ s.schema, ∀ vc : Vector Word 16 × Cursor,
        exec (.fldDes c f) { ({ s with fv := vc.1 } : State).setCur c vc.2 with last := 0 } =
          completeWith (desField s.fd s.mem vc f) fun vc =>
            ({ s with fv := vc.1 } : State).setCur c vc.2 := fun f hf vc => by
      rw [execFldDes_of_configured hrole (by simpa using hcfg f hf), desField, completeWith_bind_ok]
      cases c <;> exact completeWith_congr _ fun _ => rfl
    have hrow := execAll_foldlM hturn (s.fv, s.cur c)
    rw [← desFields_eq_foldlM, setCur_self] at hrow
    exact (execColDes_of_readable hrole).trans hrow.symm

end Sys2Proof.Machine
end

section
/-! The header commands that move no bit of a stream, and the layout of the primary header (R161, R166 to
R172). -/

namespace Sys2Proof.Machine

/-! ### The layout (R161) -/

/-- R10: a slice of a slice is a slice. -/
theorem extractLsb'_slice {n : Nat} (x : BitVec n) {start len i k : Nat} (h : i + k ≤ len) :
    (x.extractLsb' start len).extractLsb' i k = x.extractLsb' (start + i) k := by
  apply BitVec.eq_of_getLsbD_eq
  intro j hj
  have hlen : i + j < len := by omega
  simp only [BitVec.getLsbD_extractLsb', hj, hlen, decide_true, Bool.true_and, Nat.add_assoc]

/-- Settles O40: `unpack48` gives the seven slices of `pack48` back, and the octets join slices that are
next to each other. -/
theorem primaryHeaderLayout : Obligations.PrimaryHeaderLayout := by
  intro b p
  have hfields := unpack_pack48 b
  have hversion : (pack48 b).extractLsb' 45 3 = b.version := congrArg Bank.version hfields
  have htype : (pack48 b).extractLsb' 44 1 = b.type := congrArg Bank.type hfields
  have hshf : (pack48 b).extractLsb' 43 1 = b.shf := congrArg Bank.shf hfields
  have hapid : (pack48 b).extractLsb' 32 11 = b.apid := congrArg Bank.apid hfields
  have hseqflags : (pack48 b).extractLsb' 30 2 = b.seqflags := congrArg Bank.seqflags hfields
  have hseqcount : (pack48 b).extractLsb' 16 14 = b.seqcount := congrArg Bank.seqcount hfields
  have hlength : (pack48 b).extractLsb' 0 16 = b.length := congrArg Bank.length hfields
  have join := @BitVec.extractLsb'_append_extractLsb'_eq_extractLsb'
  refine ⟨hversion, htype, hshf, hapid, hseqflags, hseqcount, hlength, ?_, ?_, ?_, ?_, ?_, ?_,
    pack_unpack48 b p, hfields⟩
  · rw [← hversion, ← htype, ← hshf, ← hapid, extractLsb'_slice _ (by decide),
      join (show 45 = 44 + 1 from rfl), join (show 44 = 43 + 1 from rfl), join (show 43 = 40 + 3 from rfl)]
  · rw [← hapid, extractLsb'_slice _ (by decide)]
  · rw [← hseqflags, ← hseqcount, extractLsb'_slice _ (by decide), join (show 30 = 24 + 6 from rfl)]
  · rw [← hseqcount, extractLsb'_slice _ (by decide)]
  · rw [← hlength, extractLsb'_slice _ (by decide)]
  · rw [← hlength, extractLsb'_slice _ (by decide)]

/-! ### `HDR.CFGSH` (R166) -/

/-- Settles O41: one check of the two widths, and the update of `resetUnit` bank by bank. -/
theorem secondaryConfigures : Obligations.SecondaryConfigures := by
  refine ⟨fun u tcb ancb ht ha => ?_, fun u tcb ancb s => ⟨fun hout => ?_, fun ht ha => ?_⟩⟩
  · refine encodes_of_format .UF rfl rfl fun arg => ?_
    have hrange : (tcbInRange tcb && ancbInRange ancb) = true := by simp [ht, ha]
    simp only [buildCmd, decodeBank_encodeBank, halves_low, halves_high, hrange]
    rfl
  · exact if_pos (by simpa using hout)
  · have hrange : ¬ (decide (8 < tcb.toNat) || decide (8 < ancb.toNat)) = true := by simp [ht, ha]
    refine (if_neg hrange).trans ((complete_eq _).trans ?_)
    cases u <;> rfl

/-! ### `HDR.SET` and `HDR.SETLENOCT` (R167, R170) -/

/-- R167: a value masked to the width of a field fits the field's register, also where the bank's widths
are above 8. -/
theorem masked_lt_registerWidth (b : Bank) (fld : HdrField) (v : Word) :
    (v &&& mask (hdrWidth b fld)).toNat < 2 ^ registerWidth fld := by
  cases fld with
  | tc | anc => exact BitVec.isLt _
  | version | type | shf | apid | seqflags | seqcount | length => exact toNat_and_mask_lt v _

/-- R11: a mask of `w` bits keeps a word modulo `2^w`. -/
theorem and_mask_eq_ofNat (v : Word) (w : Nat) : v &&& mask w = BitVec.ofNat 64 (v.toNat % 2 ^ w) := by
  have hmask := ofNat_and_mask v.toNat w
  rwa [BitVec.ofNat_toNat, BitVec.setWidth_eq] at hmask

/-- R170: an octet count above 0, less one, reduced to 16 bits. -/
theorem setWidth_sub_one {v : Word} (h : v ≠ 0) : (v - 1).setWidth 16 = BitVec.ofNat 16 (v.toNat - 1) := by
  have hone : 1 ≤ v := by bv_omega
  rw [← BitVec.ofNat_toNat, BitVec.toNat_sub_of_le hone]
  rfl

/-- Settles O42: the masked value fits its register, and `Bank.put` writes that register only. -/
theorem headerWrites : Obligations.HeaderWrites := by
  refine ⟨fun u fld => ?_, fun u => ?_, fun u fld v s => ?_, fun u n s => ⟨fun hzero => ?_, fun hn => ?_⟩⟩
  · exact encodes_of_format .UF rfl rfl fun arg => by simp [buildCmd]
  · exact encodes_of_format .U rfl rfl fun arg => by simp [buildCmd]
  · refine ⟨_, complete_eq _, ?_, fun g hg => put_get_other _ _ hg, put_tcb _ _ _, put_ancb _ _ _⟩
    rw [put_get_same _ _ _ (masked_lt_registerWidth _ fld v), and_mask_eq_ofNat]
  · exact if_pos hzero
  · refine (if_neg hn).trans ((complete_eq _).trans ?_)
    rw [setWidth_sub_one hn]

/-! ### The replies (R168, R169, R171, R172) -/

/-- R169: the length and one, which 64 bits hold. -/
theorem setWidth_add_one (x : BitVec 16) : x.setWidth 64 + 1 = BitVec.ofNat 64 (x.toNat + 1) := by
  rw [BitVec.ofNat_add, BitVec.ofNat_toNat]
  rfl

/-- R171: an idle packet is one of the idle APID. -/
theorem isIdle_iff {b : Bank} : b.isIdle = true ↔ b.apid = 0x7FF := decide_eq_true_iff

/-- R172: a primary header is invalid exactly if it is idle and has a secondary header. -/
theorem isValid_iff {b : Bank} : b.isValid = true ↔ ¬ (b.apid = 0x7FF ∧ b.shf = 1) := by
  rw [← isIdle_iff]
  simp [Bank.isValid, imp_iff_not_or]

/-- Settles O43: each command replies a register of the bank, zero-extended, or a value made of one or
two. -/
theorem headerReplies : Obligations.HeaderReplies := by
  refine ⟨fun u => ⟨fun fld => ?_, ?_, ?_, ?_⟩, fun u s => ?_⟩
  · exact encodes_of_format .UF rfl rfl fun arg => by simp [buildCmd]
  · exact encodes_of_format .U rfl rfl fun arg => by simp [buildCmd]
  · exact encodes_of_format .U rfl rfl fun arg => by simp [buildCmd]
  · exact encodes_of_format .U rfl rfl fun arg => by simp [buildCmd]
  · have hget : ∀ fld, exec (.hdrGet u fld) s = .next { s with dout := (s.bank u).get fld, last := 0 } :=
      fun fld => reply_eq _ s
    simp only [BitVec.ofNat_toNat]
    refine ⟨hget .version, hget .type, hget .shf, hget .apid, hget .seqflags, hget .seqcount, hget .length,
      hget .tc, hget .anc, ?_, ?_, ?_⟩
    · rw [← setWidth_add_one]
      exact reply_eq _ s
    · simp only [← isIdle_iff]
      exact reply_eq _ s
    · rw [← ite_not]
      simp only [← isValid_iff]
      exact reply_eq _ s

end Sys2Proof.Machine
end

section
/-! The headers through a cursor (R162 to R164, R173 to R176), and a serializing header command as its puts
in a row. -/

namespace Sys2Proof.Machine

/-! ### The commands after the check of the cursor's role -/

section
variable {u : BankSel} {c : CurSel} {s : State}

theorem execPhSer_of_writable (hrole : writable c = true) :
    exec (.phSer u c) s = throughWriter s c (serHeader (s.bank u) phLayout) :=
  check_passed hrole _ s _

theorem execShSer_of_writable (hrole : writable c = true) :
    exec (.shSer u c) s = throughWriter s c (serHeader (s.bank u) (shLayout (s.bank u))) :=
  check_passed hrole _ s _

theorem execPhDes_of_readable (hrole : readable c = true) :
    exec (.phDes u c) s = completeWith (desHeader s.mem phLayout (s.bank u, s.cur c)) fun bc =>
      (s.setBank u bc.1).setCur c bc.2 :=
  check_passed hrole _ s _

theorem execShDes_of_readable (hrole : readable c = true) :
    exec (.shDes u c) s = completeWith (desHeader s.mem (shLayout (s.bank u)) (s.bank u, s.cur c)) fun bc =>
      (s.setBank u bc.1).setCur c bc.2 :=
  check_passed hrole _ s _

end

/-! ### Through a writer (R162, R164) -/

/-- Settles O44: each command is the row of the puts of its layout (`serHeader_eq`), of which those that
fit are done (`putSeq_fits`). -/
theorem headerSerializes : Obligations.HeaderSerializes := by
  intro u c s hrole hbank hgood ⟨hwin, hpos⟩
  constructor
  · obtain ⟨m, hput, hwrote, -⟩ := putSeq_fits (phLayout_legal (s.bank u)) hgood hwin hpos
    rw [← serHeader_eq] at hput
    rw [putBitsOf_ph] at hwrote
    exact ⟨m, (execPhSer_of_writable hrole).trans (throughWriter_ok hput), hwrote⟩
  · obtain ⟨m, hput, hwrote, -⟩ := putSeq_fits (shLayout_fits hbank) hgood hwin hpos
    rw [← serHeader_eq] at hput
    rw [putBitsOf_sh] at hwrote
    exact ⟨m, (execShSer_of_writable hrole).trans (throughWriter_ok hput), hwrote⟩

/-! ### Through a reader (R163, R164) -/

/-- R162: the seven puts and gets of the primary header are of seven registers, each as wide as its
field. -/
theorem phLayout_registers :
    (phLayout.map Prod.fst).Nodup ∧ ∀ e ∈ phLayout, e.2.1 ≤ e.2.2 ∧ e.2.2 ≤ 64 ∧ e.2.1 ≤ registerWidth e.1 := by
  decide

/-- R164: the two of a legal secondary header are of two registers that hold them. -/
theorem shLayout_registers {b : Bank} (h : bankOk b) : ((shLayout b).map Prod.fst).Nodup ∧
    ∀ e ∈ shLayout b, e.2.1 ≤ e.2.2 ∧ e.2.2 ≤ 64 ∧ e.2.1 ≤ registerWidth e.1 := by
  have hwidth := hdrWidth_le_registerWidth h
  simpa [shLayout] using And.intro ⟨hwidth .tc, hwidth .tc⟩ ⟨hwidth .anc, hwidth .anc⟩

/-- R164: the secondary header's layout depends on the bank's two widths only. -/
theorem shLayout_congr {b b' : Bank} (ht : b'.tcb = b.tcb) (ha : b'.ancb = b.ancb) :
    shLayout b' = shLayout b := by
  simp only [shLayout, hdrWidth_congr ht ha]

/-- R161: `pack48` reads neither the widths nor the two values of the secondary header. -/
theorem pack48_congr {b b' : Bank} (ht : b'.tcb = b.tcb) (ha : b'.ancb = b.ancb)
    (h : ∀ fld, fld ≠ .tc → fld ≠ .anc → b'.get fld = b.get fld) : pack48 b' = pack48 b := by
  have hbank : b' = { b with tc := b'.tc, anc := b'.anc } := bank_ext ht ha fun fld => by
    cases fld with
    | tc | anc => rfl
    | version | type | shf | apid | seqflags | seqcount | length =>
      exact h _ HdrField.noConfusion HdrField.noConfusion
  rw [hbank]
  rfl

/-- Settles O45: `desHeader_fits` gives the stream of the fields got, `desHeader_keeps` the widths and the
fields of the other header. -/
theorem headerDeserializes : Obligations.HeaderDeserializes := by
  intro u c s hrole hbank hgood ⟨hwin, hpos⟩
  constructor
  · obtain ⟨hnodup, hfit⟩ := phLayout_registers
    obtain ⟨b, hget, hstream⟩ := desHeader_fits (b := s.bank u) hnodup hfit hgood hwin hpos
    obtain ⟨-, htcb, hancb, hkept, -⟩ := desHeader_keeps hwin hget
    rw [← primaryStream_eq, ← primaryStream_eq] at hstream
    refine ⟨b, ?_, hstream, htcb, hancb, hkept .tc (by decide), hkept .anc (by decide)⟩
    rw [execPhDes_of_readable hrole, hget, completeWith_ok]
    rfl
  · obtain ⟨hnodup, hfit⟩ := shLayout_registers hbank
    obtain ⟨b, hget, hstream⟩ := desHeader_fits (b := s.bank u) hnodup hfit hgood hwin hpos
    obtain ⟨-, htcb, hancb, hkept, -⟩ := desHeader_keeps hwin hget
    rw [← shLayout_congr htcb hancb, ← secondaryStream_eq, shLayout_congr htcb hancb,
      ← secondaryStream_eq] at hstream
    refine ⟨b, ?_, hstream, htcb, hancb, pack48_congr htcb hancb fun fld h1 h2 => hkept fld ?_,
      bankOk_desHeader (shLayout_widths (s.bank u)) hbank hwin hget⟩
    · rw [execShDes_of_readable hrole, hget, completeWith_ok]
      rfl
    · simp [shLayout, h1, h2]

/-! ### A header as its puts (R162, R164) -/

/-- R109: a sequence of puts does one put after the other. -/
theorem putSeq_eq_foldlM : ∀ (ps : List Put) (mc : Memory × Cursor),
    putSeq ps mc = ps.foldlM (fun mc p => putProc p.v p.W p.U p.le mc) mc
  | [], _ => rfl
  | p :: ps, mc => congrArg (putProc p.v p.W p.U p.le mc >>= ·) (funext (putSeq_eq_foldlM ps))

/-- R48, R111: `CUR.PUT`s in a row, at least one of them, are the sequence of their puts through the one
cursor, from every state. -/
theorem execAll_puts_eq {c : CurSel} {ps : List PutArgs} (s : State) (hrole : writable c = true)
    (hne : ps ≠ []) (hlegal : ∀ q ∈ ps, q.put.legal) :
    execAll (ps.map (PutArgs.instr c)) s = throughWriter s c (putSeq (ps.map PutArgs.put)) := by
  have hexec : ∀ q ∈ ps, ∀ t, exec (q.instr c) t =
      throughWriter t c (putProc q.put.v q.put.W q.put.U q.put.le) := fun q hq t =>
    execCurPut_of_legal _ t hrole (hlegal q hq).2
  have hturn : ∀ q ∈ ps, ∀ mc : Memory × Cursor,
      exec (q.instr c) { ({ s with mem := mc.1 } : State).setCur c mc.2 with last := 0 } =
        completeWith (putProc q.put.v q.put.W q.put.U q.put.le mc) fun mc =>
          ({ s with mem := mc.1 } : State).setCur c mc.2 := fun q hq mc => by
    rw [hexec q hq, throughWriter]
    cases c <;> exact completeWith_congr _ fun _ => rfl
  have hlast : execAll (ps.map (PutArgs.instr c)) s =
      execAll (ps.map (PutArgs.instr c)) { s with last := 0 } := by
    obtain ⟨p, rest, rfl⟩ := List.exists_cons_of_ne_nil hne
    have hfirst : exec (p.instr c) s = exec (p.instr c) { s with last := 0 } := by
      rw [hexec p List.mem_cons_self, hexec p List.mem_cons_self]
      cases c <;> exact completeWith_congr _ fun _ => rfl
    rw [List.map_cons, execAll, execAll, hfirst]
  have hrow := execAll_foldlM hturn (s.mem, s.cur c)
  rw [setCur_self] at hrow
  rw [hlast, throughWriter, putSeq_eq_foldlM, List.foldlM_map]
  exact hrow

/-- R162, R164: a header command whose layout has the puts of a row of `CUR.PUT`s is that row. -/
theorem serHeader_eq_execAll {b : Bank} {l : List (HdrField × Nat × Nat)} {c : CurSel} {ps : List PutArgs}
    (s : State) (hrole : writable c = true) (hne : ps ≠ []) (hlegal : ∀ p ∈ l.map (headerPut b), p.legal)
    (hputs : l.map (headerPut b) = ps.map PutArgs.put) :
    throughWriter s c (serHeader b l) = execAll (ps.map (PutArgs.instr c)) s := by
  rw [hputs] at hlegal
  rw [funext (serHeader_eq b l), hputs, execAll_puts_eq s hrole hne (List.forall_mem_map.1 hlegal)]

/-- R162: the operands of the seven puts of the primary header. -/
def primaryPuts (b : Bank) : List PutArgs :=
  [(.b, false, 3, b.get .version), (.b, false, 1, b.get .type), (.b, false, 1, b.get .shf),
   (.h, false, 11, b.get .apid), (.b, false, 2, b.get .seqflags), (.h, false, 14, b.get .seqcount),
   (.h, false, 16, b.get .length)]

/-- R164: the operands of the two puts of the secondary header. -/
def secondaryPuts (b : Bank) : List PutArgs :=
  [(.d, false, BitVec.ofNat 7 (8 * b.tcb.toNat), b.get .tc),
   (.d, false, BitVec.ofNat 7 (8 * b.ancb.toNat), b.get .anc)]

theorem primaryPuts_put (b : Bank) : phLayout.map (headerPut b) = (primaryPuts b).map PutArgs.put := rfl

/-- The width of a field of up to 15 octets stands in seven bits (R28, R81). -/
theorem secondaryPuts_put (b : Bank) :
    (shLayout b).map (headerPut b) = (secondaryPuts b).map PutArgs.put := by
  have hwidth : ∀ x : BitVec 4, (BitVec.ofNat 7 (8 * x.toNat)).toNat = 8 * x.toNat := fun x => by bv_omega
  simp only [secondaryPuts, PutArgs.put, List.map_cons, List.map_nil, hwidth]
  rfl

/-- Settles O46: each layout has the puts of its row of `CUR.PUT`s. -/
theorem headerIsItsPuts : Obligations.HeaderIsItsPuts := by
  intro u c s hrole
  constructor
  · exact (execPhSer_of_writable hrole).trans (serHeader_eq_execAll s hrole (List.cons_ne_nil _ _)
      (fun p hp => (phLayout_legal _ p hp).1) (primaryPuts_put (s.bank u)))
  · exact (execShSer_of_writable hrole).trans (serHeader_eq_execAll s hrole (List.cons_ne_nil _ _)
      (shLayout_legal _) (secondaryPuts_put (s.bank u)))

end Sys2Proof.Machine
end

section
/-! The assembler's windows (R70, R192, R194) and the idle fill (R194): the checks of a command that takes a
window, octets put in a row, and the commands that begin a packet. -/

namespace Sys2Proof.Machine

/-! ### The checks of a window and of its size (R70, R192, R194) -/

section
variable {s : State} {win : Window} {need : Nat} (r : Result)

/-- R192, R194: a window outside MEM or below the size needed is refused, whatever the rest of the command
is. -/
theorem windowChecks_refuse (h : s.mem.size < win.base.toNat + win.size.toNat ∨ win.size.toNat < need) :
    (if !inMem s win then refuse .errRange s else if win.size.toNat < need then refuse .errRange s else r) =
      refusedRange s := by
  by_cases hout : s.mem.size < win.base.toNat + win.size.toNat
  · exact windowCheck_refuses _ hout
  · have hmem : inMem s win = true := decide_eq_true (Nat.le_of_not_lt hout)
    exact (check_passed hmem _ s _).trans (if_pos (h.resolve_left hout))

/-- R192, R194: a window of MEM of the size needed lets the command go on. -/
theorem windowChecks_pass (hin : win.base.toNat + win.size.toNat ≤ s.mem.size)
    (hroom : need ≤ win.size.toNat) :
    (if !inMem s win then refuse .errRange s else if win.size.toNat < need then refuse .errRange s else r) =
      r :=
  have hmem : inMem s win = true := decide_eq_true hin
  (check_passed hmem _ s _).trans (if_neg (Nat.not_lt.2 hroom))

end

/-! ### Octets put in a row (R194) -/

/-- R61: the octet whose eight bits are those of a value is the value's low octet. -/
theorem octet_of_stream {m : Memory} {a : Nat} {v : Word} (h : m.stream (8 * a) 8 = wordStream v 8 false) :
    m.octet a = v.setWidth 8 := by
  have hbits := (wordStream_octet m a 8 (by decide)).trans h
  apply BitVec.eq_of_getLsbD_eq
  intro i hi
  have hbit := eq_of_wordStream (by decide) hbits i hi
  rw [BitVec.getLsbD_setWidth, BitVec.getLsbD_ushiftRight, Nat.sub_self, Nat.zero_add] at hbit
  rw [BitVec.getLsbD_setWidth, ← hbit]
  simp [hi, show i < 64 by omega]

/-- R61: octets in a row whose bits are those of values in a row are the values' low octets. -/
theorem octets_of_stream {m : Memory} : ∀ {vs : List Word} {a : Nat},
    m.stream (8 * a) (8 * vs.length) = vs.flatMap (wordStream · 8 false) →
      ∀ j (hj : j < vs.length), m.octet (a + j) = vs[j].setWidth 8
  | [], _, _, _, hj => absurd hj (Nat.not_lt_zero _)
  | v :: vs, a, h, j, hj => by
    have hsplit : 8 * (v :: vs).length = 8 + 8 * vs.length := by rw [List.length_cons]; omega
    rw [hsplit, stream_add, List.flatMap_cons] at h
    obtain ⟨hfirst, hrest⟩ := List.append_inj h (by rw [stream_length, wordStream_length])
    cases j with
    | zero => exact octet_of_stream hfirst
    | succ j =>
      have hmem := octets_of_stream (a := a + 1) hrest j (Nat.lt_of_succ_lt_succ hj)
      rwa [Nat.add_assoc, Nat.add_comm 1 j] at hmem

/-- R194: the bits of the idle fill are those of its octets in a row. -/
theorem putBitsOf_idle (idle : IdleCfg) (l : List Nat) :
    putBitsOf (l.map (idlePut idle)) = (l.map (idleOctet idle)).flatMap (wordStream · 8 false) := by
  rw [putBitsOf, List.flatMap_map, List.flatMap_map]
  rfl

/-- R194: the low octet of the 64-bit value that the loop puts. -/
theorem idleOctet_low (idle : IdleCfg) (j : Nat) : (idleOctet idle j).setWidth 8 =
    (idle.pat >>> (8 * (sizeOctets idle.ps - 1 - j % sizeOctets idle.ps))).setWidth 8 := by
  have hmask : (0xFF : Word).setWidth 8 = BitVec.allOnes 8 := by decide
  rw [idleOctet, BitVec.setWidth_and, hmask, BitVec.and_allOnes]

/-- R194: the fill from the start of a window writes the octets of the pattern and no other. -/
theorem fillIdle_writes (idle : IdleCfg) {k : Nat} {m : Memory} {cu : Cursor} (hgood : cu.bad = false)
    (hstart : cu.cursor = 0) (hwin : cu.base.toNat + cu.size.toNat ≤ m.size) (hroom : k ≤ cu.size.toNat) :
    ∃ m', fillIdle idle k 0 (m, cu) = .ok (m', cu.moved (8 * k)) ∧ m'.size = m.size ∧
      (∀ j, j < k → m'.octet (cu.base.toNat + j) = (idleOctet idle j).setWidth 8) ∧
      ∀ a, a < cu.base.toNat ∨ cu.base.toNat + k ≤ a → m'.octet a = m.octet a := by
  have hlen : (putBitsOf ((List.range' 0 k).map (idlePut idle))).length = 8 * k := by
    rw [putBitsOf_idle_length, List.length_range']
  have hpos : cu.cursor.toNat = 0 := by rw [hstart]; rfl
  have hbit : cu.bitPos = 8 * cu.base.toNat := by rw [Cursor.bitPos, hpos, Nat.add_zero]
  obtain ⟨m', hput, hwrote, -⟩ := putSeq_writes (ps := (List.range' 0 k).map (idlePut idle))
    (List.forall_mem_map.2 fun j _ => idlePut_legal idle j) hgood hwin (by omega)
  rw [hlen] at hput
  rw [hbit] at hwrote
  refine ⟨m', (fillIdle_eq idle k 0 _).trans hput, hwrote.size, fun j hj => ?_, fun a ha => ?_⟩
  · have hstream := hwrote.stream_eq fun h => absurd (Nat.mul_mod_right 8 _) h
    rw [hlen, putBitsOf_idle] at hstream
    have hoctet := octets_of_stream (vs := (List.range' 0 k).map (idleOctet idle))
      (by rw [List.length_map, List.length_range']; exact hstream) j (by simpa using hj)
    simpa using hoctet
  · refine hwrote.octet a ?_
    rw [hlen, ceilDiv]
    omega

/-! ### `ASM.BEGIN`, `ASM.CFGIDLE` and `ASM.BEGINIDLE` (R192 to R194) -/

/-- Settles O48: a window that passes both checks is carved, and the pattern is masked. -/
theorem assemblerBegins : Obligations.AssemblerBegins := by
  refine ⟨?_, fun sz => ?_, fun sz v s => ?_, fun win s => ⟨windowChecks_refuse _, fun hin hroom => ?_⟩⟩
  · exact encodes_of_format .N rfl rfl fun arg => by simp [buildCmd, windowOf]
  · exact encodes_of_format .S rfl rfl fun arg => by simp [buildCmd]
  · rw [← and_mask_eq_ofNat]
    exact complete_eq _
  · exact (windowChecks_pass _ hin hroom).trans (complete_eq _)

/-- Settles O49: the fill begins at the start of the carved user data (`fillIdle_writes`), where no address
wraps around, and ends at its end. -/
theorem idlePacketBegins : Obligations.IdlePacketBegins := by
  refine ⟨encodes_of_format .N rfl rfl fun arg => by simp [buildCmd, windowOf],
    fun win s => ⟨windowChecks_refuse _, fun hmax hin hroom => ?_⟩⟩
  unfold Config.memBytesMax at hmax
  have hbase : (carveIdle win s).aw.base.toNat = win.base.toNat + 6 :=
    Nat.mod_eq_of_lt (by omega : win.base.toNat + 6 < 2 ^ 32)
  have hsize : (carveIdle win s).aw.size.toNat = win.size.toNat - 6 :=
    Nat.mod_eq_of_lt (by omega : win.size.toNat - 6 < 2 ^ 32)
  obtain ⟨m, hfill, hmsize, hinside, houtside⟩ := fillIdle_writes s.idle (k := win.size.toNat - 6)
    (m := s.mem) (cu := (carveIdle win s).aw) rfl rfl (by omega) (by omega)
  rw [hbase] at hinside houtside
  refine ⟨m, ?_, hmsize, fun j hj => (hinside j hj).trans (idleOctet_low _ j),
    fun a ha => houtside a (by omega)⟩
  have hmoved : (carveIdle win s).aw.moved (8 * (win.size.toNat - 6)) =
      { (carveIdle win s).aw with cursor := BitVec.ofNat 35 (8 * (win.size.toNat - 6)) } := by
    rw [Cursor.moved, show (carveIdle win s).aw.cursor = 0#35 from rfl, BitVec.zero_add]
  rw [hmoved] at hfill
  exact (windowChecks_pass _ hin hroom).trans (throughWriter_ok (s := carveIdle win s) (c := .aw) hfill)

end Sys2Proof.Machine
end

section
/-! `ASM.FINALIZE` (R196 to R198), its packet in an extractor (R221), and the replies of the assembler (R199,
R200). -/

namespace Sys2Proof.Machine

/-! ### The finalized bank (R196) -/

/-- R196: the two registers that a finalize assigns, -1 being `0xFFFF` in 16 bits. -/
theorem finalizedBank_eq (b : Bank) (n : Nat) : finalizedBank b n =
    { b with shf := if 0 < b.secSize then 1 else 0, length := BitVec.ofNat 16 (n + 0xFFFF) } := by
  have hlength : BitVec.ofNat 16 n - 1 = BitVec.ofNat 16 (n + 0xFFFF) := by
    rw [BitVec.ofNat_add, BitVec.sub_eq_add_neg]
    rfl
  simp only [finalizedBank, bitOf, hlength, decide_eq_true_eq]

/-- R197: the length field of 1 to 65536 octets is one below their number. -/
theorem finalizedBank_length {b : Bank} {n : Nat} (hlow : 1 ≤ n) (hhigh : n ≤ 65536) :
    (finalizedBank b n).length.toNat + 1 = n := by
  show (BitVec.ofNat 16 n - 1).toNat + 1 = n
  bv_omega

/-- R196: the header bank that a finalize leaves. -/
def State.finalBank (s : State) : Bank := finalizedBank s.bankA (s.bankA.secSize + s.userBytes)

/-- R28: a finalize changes neither the widths nor the values of the secondary header. -/
theorem bankOk_finalBank {s : State} (h : bankOk s.bankA) : bankOk s.finalBank := h

/-! ### `ASM.FINALIZE` -/

/-- R196: a finalize with a packet in progress, after the check. -/
theorem execAsmFinalize_of_active {s : State} (h : s.asm.active = true) :
    exec .asmFinalize s = completeWith (hdrStore s.finalBank s.asm.base.toNat s.mem) fun m =>
      { s with bankA := s.finalBank, mem := m } :=
  check_passed h _ s _

/-- R165, R196: a finalize with room for the headers stores them at the start of the window. -/
theorem asmFinalize_stores {s : State} (hactive : s.asm.active = true)
    (hroom : s.asm.base.toNat + 6 + s.bankA.secSize ≤ s.mem.size) :
    ∃ m, exec .asmFinalize s = .next { s with bankA := s.finalBank, mem := m, last := 0 } ∧
      headerAt m s.finalBank s.asm.base.toNat ∧ m.size = s.mem.size ∧
      ∀ a, a < s.asm.base.toNat ∨ s.asm.base.toNat + 6 + s.bankA.secSize ≤ a →
        m.octet a = s.mem.octet a := by
  obtain ⟨m, hstore, hheader, hsize, houtside, -⟩ := hdrStore_spec (b := s.finalBank) hroom
  refine ⟨m, ?_, hheader, hsize, houtside⟩
  rw [execAsmFinalize_of_active hactive, hstore, completeWith_ok]

/-- R31: the window of a packet in progress has room for the headers. -/
theorem asm_room {s : State} (hs : s.Inv) (hactive : s.asm.active = true) :
    s.asm.base.toNat + 6 + s.bankA.secSize ≤ s.mem.size := by
  obtain ⟨hwin, -, hsize⟩ := hs.asm hactive
  omega

/-- Settles O50: the command is the store of the finalized bank (`asmFinalize_stores`). -/
theorem assemblerFinalizes : Obligations.AssemblerFinalizes := by
  refine ⟨encodes_of_format .N rfl rfl fun arg => by simp [buildCmd],
    fun s => ⟨fun hidle => ?_, fun hactive hroom => ?_⟩⟩
  · exact if_pos (by rw [hidle]; rfl)
  · have hbank := finalizedBank_eq s.bankA (s.bankA.secSize + s.userBytes)
    have hstored := asmFinalize_stores hactive hroom
    rw [State.finalBank, hbank] at hstored
    exact hstored

/-- Settles O51: what `HDR.LENOCT` replies is the length field and one (`finalizedBank_length`). -/
theorem lengthLaw : Obligations.LengthLaw := by
  intro s hs hactive hlow hhigh
  obtain ⟨m, hfinal, -⟩ := asmFinalize_stores hactive (asm_room hs hactive)
  refine ⟨_, hfinal, ?_⟩
  rw [← finalizedBank_length (b := s.bankA) hlow hhigh, ← setWidth_add_one]
  exact reply_eq _ _

/-- Settles O52: the second finalize computes the same bank and stores octets that stand in MEM already
(`memWriteList_again`). -/
theorem finalizeIdempotent : Obligations.FinalizeIdempotent := by
  intro s t hs hactive hfinal
  rw [execAsmFinalize_of_active hactive] at hfinal
  obtain ⟨m, hstore, rfl⟩ := completeWith_next.1 hfinal
  have hagain : hdrStore s.finalBank s.asm.base.toNat m = .ok m := memWriteList_again hs.memWf hstore
  refine (execAsmFinalize_of_active ?_).trans (completeWith_next.2 ⟨m, hagain, rfl⟩)
  exact hactive

/-! ### What was finalized is opened (R221) -/

/-- R165: headers that stand in MEM are loaded into a bank of their widths. -/
theorem hdrLoad_of_headerAt {b c : Bank} {base : Nat} {m : Memory} (h : headerAt m c base) (hc : bankOk c)
    (ht : b.tcb = c.tcb) (ha : b.ancb = c.ancb) (hroom : base + 6 + c.secSize ≤ m.size) :
    hdrLoad b base m = .ok c := by
  have hsec : b.secSize = c.secSize := by rw [Bank.secSize, ht, ha]; rfl
  have ⟨htc, hanc, _, _⟩ := hc
  obtain ⟨b', hload, ht', ha', hat, hok⟩ := hdrLoad_spec (b := b) (hsec ▸ hroom) (ht ▸ htc) (ha ▸ hanc)
  rw [hload, h.unique hat hc hok (ht'.trans ht) (ha'.trans ha)]

/-- R31: the user data of the window of a packet in progress are the octets that `AW` is over. -/
theorem attached_userData {s : State} (hs : s.Inv) (hactive : s.asm.active = true) :
    attached (s.asm.base.toNat + Config.phBytes + s.bankA.secSize)
      (s.asm.size.toNat - Config.phBytes - s.bankA.secSize) = { s.aw with cursor := 0, bad := false } := by
  obtain ⟨-, hbase, hsize⟩ := hs.asm hactive
  have huser : s.asm.size.toNat - 6 - s.bankA.secSize = s.aw.size.toNat := by omega
  unfold Config.phBytes
  rw [← hbase, huser, attached, BitVec.ofNat_toNat, BitVec.ofNat_toNat, BitVec.setWidth_eq,
    BitVec.setWidth_eq]

/-- R221: `EXT.OPEN` of a window at whose start the headers of a legal bank stand, of bank X's widths. -/
theorem execExtOpen_of_headerAt {s : State} {win : Window} {c : Bank}
    (hin : win.base.toNat + win.size.toNat ≤ s.mem.size)
    (hroom : Config.phBytes + c.secSize ≤ win.size.toNat) (h : headerAt s.mem c win.base.toNat)
    (hc : bankOk c) (ht : s.bankX.tcb = c.tcb) (ha : s.bankX.ancb = c.ancb) :
    exec (.extOpen win) s = .next { s with
      bankX := c
      xr := attached (win.base.toNat + Config.phBytes + c.secSize)
        (win.size.toNat - Config.phBytes - c.secSize)
      last := 0 } := by
  have hsec : s.bankX.secSize = c.secSize := by rw [Bank.secSize, ht, ha]; rfl
  have hload : hdrLoad s.bankX win.base.toNat s.mem = .ok c :=
    hdrLoad_of_headerAt h hc ht ha (by unfold Config.phBytes at hroom; omega)
  refine (windowChecks_pass _ hin (hsec ▸ hroom)).trans ?_
  rw [hload, completeWith_ok, hsec]

/-- Settles O55: the finalized headers stand at the start of the window, and are loaded back from there
(`execExtOpen_of_headerAt`). -/
theorem assembleThenExtract : Obligations.AssembleThenExtract := by
  intro s hs hactive ht ha
  obtain ⟨m, hfinal, hheader, hsize, -⟩ := asmFinalize_stores hactive (asm_room hs hactive)
  obtain ⟨hwin, -, hcarved⟩ := hs.asm hactive
  refine ⟨_, hfinal, ?_⟩
  rw [← attached_userData hs hactive]
  exact execExtOpen_of_headerAt (by rw [hsize]; exact hwin)
    (by rw [hcarved]; exact Nat.le_add_right _ _) hheader (bankOk_finalBank (hs.banks .a)) ht ha

/-! ### The replies (R199, R200) -/

/-- R200: the seven conditions, each as a statement of its own. -/
theorem asmValid_iff {s : State} : asmValid s = true ↔
    (0 < s.bankA.secSize ∨ 0 < s.userBits) ∧ s.userBits % 8 = 0 ∧
      (7 ≤ s.asmTotal ∧ s.asmTotal ≤ 65542) ∧ (s.bankA.shf = 1 ↔ 0 < s.bankA.secSize) ∧
      ¬ (s.bankA.apid = 0x7FF ∧ 0 < s.bankA.secSize) ∧
      s.bankA.length.toNat + 1 = s.bankA.secSize + s.userBytes ∧
      ¬ (s.bankA.apid = 0x7FF ∧ s.bankA.shf = 1) := by
  rw [← isIdle_iff]
  simp only [asmValid, Bool.and_eq_true, Bool.or_eq_true, Bool.not_eq_true', ← Bool.not_eq_true,
    decide_eq_true_eq, decide_eq_decide, and_assoc]
  rfl

/-- Settles O53: the replies are `asmTotal` and whether the seven conditions hold (`asmValid_iff`). -/
theorem assemblerReplies : Obligations.AssemblerReplies := by
  refine ⟨encodes_of_format .N rfl rfl fun arg => by simp [buildCmd],
    encodes_of_format .N rfl rfl fun arg => by simp [buildCmd], fun s => ⟨reply_eq _ s, ?_⟩⟩
  refine (reply_eq _ s).trans ?_
  have hvalid := asmValid_iff (s := s)
  rw [boolWord]
  simp only [hvalid]
  rfl

end Sys2Proof.Machine
end

section
/-! The extractor's `EXT.OPEN` (R221). -/

namespace Sys2Proof.Machine

/-- Settles O54: a window that passes both checks holds the headers, which are loaded into bank X
(`hdrLoad_spec`); the cursor attached behind them is `XR`. -/
theorem extractorOpens : Obligations.ExtractorOpens := by
  refine ⟨encodes_of_format .N rfl rfl fun arg => by simp [buildCmd, windowOf],
    fun win s => ⟨windowChecks_refuse _, fun hin hroom hbank => ?_⟩⟩
  have hfit : win.base.toNat + 6 + s.bankX.secSize ≤ s.mem.size := by
    unfold Bank.secSize
    omega
  obtain ⟨htcb, hancb, -⟩ := hbank
  obtain ⟨b, hload, hheaders⟩ := hdrLoad_spec hfit htcb hancb
  refine ⟨b, (windowChecks_pass _ hin hroom).trans ?_, hheaders⟩
  rw [hload, completeWith_ok]
  rfl

end Sys2Proof.Machine
end

section
/-! The dissector (R231 to R237): its shape check, the user data of its window as one stream, and what its
commands read and write. -/

namespace Sys2Proof.Machine

/-! ### The shape check (R231) -/

/-- R231: a schema of whole octets, and something to carry. -/
theorem shapeOk_iff {s : State} :
    s.shapeOk = true ↔ s.colw % 8 = 0 ∧ (0 < s.colw ∨ 0 < s.bankD.secSize) := by
  simp [State.shapeOk]

/-- R231: a shape that is not legal is refused, whatever the rest of the command is. -/
theorem dissectorShape_refuses {s : State}
    (h : s.colw % 8 ≠ 0 ∨ (s.colw = 0 ∧ s.bankD.secSize = 0)) (r : Result) :
    (if !s.shapeOk then refuse .errShape s else r) = refusedShape s := by
  have hshape : s.shapeOk ≠ true := fun hok => by
    obtain ⟨hcol, hcarry⟩ := shapeOk_iff.1 hok
    omega
  exact if_pos (by simpa using hshape)

/-! ### `DIS.FINALIZE` and `DIS.SIZE` (R235, R236) -/

/-- R235: of a packet that carries something the length field is one below the number of its octets. -/
theorem finalizedBank_of_pos {b : Bank} {n : Nat} (hn : 0 < n) : finalizedBank b n =
    { b with shf := if 0 < b.secSize then 1 else 0, length := BitVec.ofNat 16 (n - 1) } := by
  have hlength : BitVec.ofNat 16 (n + 0xFFFF) = BitVec.ofNat 16 (n - 1) := by
    apply BitVec.eq_of_toNat_eq
    rw [BitVec.toNat_ofNat, BitVec.toNat_ofNat]
    omega
  rw [finalizedBank_eq, hlength]

/-- Settles O56: the shape check stands first in all four commands (`dissectorShape_refuses`); behind it
stand the finalized bank and `dsize`. -/
theorem dissectorShapeAndSize : Obligations.DissectorShapeAndSize := by
  refine ⟨encodes_of_format .N rfl rfl fun arg => by simp [buildCmd],
    encodes_of_format .N rfl rfl fun arg => by simp [buildCmd],
    fun s => ⟨fun hbad => ?_, fun hcol hcarry => ?_⟩⟩
  · exact ⟨fun win => ⟨dissectorShape_refuses hbad _, dissectorShape_refuses hbad _⟩,
      dissectorShape_refuses hbad _, dissectorShape_refuses hbad _⟩
  · have hshape : s.shapeOk = true := shapeOk_iff.2 ⟨hcol, hcarry⟩
    have hbank := finalizedBank_of_pos (b := s.bankD) (n := s.bankD.secSize + s.colw / 8)
      (by unfold Bank.secSize; omega)
    refine ⟨(check_passed hshape _ s _).trans ?_, (check_passed hshape _ s _).trans (reply_eq _ s)⟩
    rw [hbank]
    exact complete_eq _

/-! ### The user data of the window (R232) -/

section
variable {s : State} {win : Window} (hs : s.Inv) (hin : win.base.toNat + win.size.toNat ≤ s.mem.size)
  (hroom : s.dsize ≤ win.size.toNat)
include hs hin hroom

/-- R61, R232: the user data begin behind the headers, at the first bit of an octet. -/
theorem userCursor_bitPos :
    (userCursor s win).bitPos = 8 * (win.base.toNat + 6 + s.bankD.secSize) := by
  obtain ⟨hbase, -⟩ := userCursor_window hs hin (Nat.not_lt.2 hroom)
  exact congrArg (8 * ·) hbase

/-- R231, R232: the fields of a schema of whole octets fit into the user data, all of them. -/
theorem userCursor_fits (hcol : s.colw % 8 = 0) :
    fitBits (s.schema.map fun f => s.fd[f].w.toNat) (userCursor s win).room = s.colw := by
  obtain ⟨-, hsize⟩ := userCursor_window hs hin (Nat.not_lt.2 hroom)
  refine fitBits_all _ _ (?_ : s.colw ≤ 8 * (userCursor s win).size.toNat)
  omega

end

/-- R36: the bits of a schema's fields are as many as the widths say. -/
theorem schemaStream_length (s : State) (fv : Vector Word 16) :
    (fieldsStream s.fd fv s.schema).length = s.colw :=
  fieldsStream_length s.fd fv s.schema

/-! ### `DIS.FROMBUF` and `DIS.TOBUF` (R233, R234) -/

/-- Settles O57: `hdrLoad_spec` gives the bank, `desFields_fits` the stream of the schema's values, which
fill the user data, and `desFields_keeps` the other values and the bounds. -/
theorem dissectorReads : Obligations.DissectorReads := by
  intro win s hs hcol hcarry
  have hshape : s.shapeOk = true := shapeOk_iff.2 ⟨hcol, hcarry⟩
  refine ⟨fun hout => (check_passed hshape _ s _).trans (windowChecks_refuse _ hout), fun hin hroom => ?_⟩
  obtain ⟨hfit, hwin⟩ := dissector_room s hin (Nat.not_lt.2 hroom)
  obtain ⟨htcb, hancb, -⟩ := hs.banks .d
  obtain ⟨b, hload, htcb', hancb', hheader, hbank⟩ := hdrLoad_spec hfit htcb hancb
  obtain ⟨fv, hdes, hstream⟩ := desFields_fits (fv := s.fv) (schema_nodup s) (fun f _ => hs.descs f)
    (rfl : (userCursor s win).bad = false) hwin (Nat.zero_le _)
  obtain ⟨-, hkept, hbounds⟩ := desFields_keeps hwin hdes
  rw [userCursor_fits hs hin hroom hcol, userCursor_bitPos hs hin hroom,
    List.drop_of_length_le (Nat.le_of_eq (schemaStream_length s s.fv)), List.append_nil] at hstream
  refine ⟨b, fv, ?_, htcb', hancb', hheader, hbank, hstream, hkept,
    hbounds (fun f _ => hs.descs f) hs.values⟩
  refine (check_passed hshape _ s _).trans ((windowChecks_pass _ hin hroom).trans ?_)
  rw [hload, ok_bind, hdes, ok_bind, pure_eq_ok, completeWith_ok]

/-- Settles O58: `hdrStore_spec` gives the headers, which stay when the fields are put behind them, and
`fieldPuts_fit` the stream of the fields; `disTobuf_octet` is the frame. -/
theorem dissectorWrites : Obligations.DissectorWrites := by
  intro win s hs hcol hcarry
  have hshape : s.shapeOk = true := shapeOk_iff.2 ⟨hcol, hcarry⟩
  refine ⟨fun hout => (check_passed hshape _ s _).trans (windowChecks_refuse _ hout), fun hin hroom => ?_⟩
  obtain ⟨hfit, hwin⟩ := dissector_room s hin (Nat.not_lt.2 hroom)
  obtain ⟨m, hstore, hheader, hsize, -⟩ := hdrStore_spec hfit
  obtain ⟨m', hser, hwrote⟩ := fieldPuts_fit s.fv (l := s.schema) (fun f _ => hs.descs f)
    (rfl : (userCursor s win).bad = false) (⟨hsize ▸ hwin, Nat.zero_le _⟩ : cursorOk m.size _)
  rw [userCursor_fits hs hin hroom hcol, userCursor_bitPos hs hin hroom,
    List.take_of_length_le (Nat.le_of_eq (schemaStream_length s s.fv))] at hwrote
  have hstream := hwrote.stream_eq fun h => absurd (Nat.mul_mod_right 8 _) h
  rw [schemaStream_length] at hstream
  have hexec : exec (.disTobuf win) s = .next { s with mem := m', last := 0 } := by
    rw [← serFields_eq] at hser
    refine (check_passed hshape _ s _).trans ((windowChecks_pass _ hin hroom).trans ?_)
    rw [hstore, ok_bind, hser, completeWith_ok]
  refine ⟨m', hexec, hheader.congr fun a _ ha => hwrote.octet a (.inl (by omega)), hstream,
    hwrote.size.trans hsize, fun a ha => disTobuf_octet hs rfl hexec ?_⟩
  unfold State.dsize Config.phBytes
  omega

end Sys2Proof.Machine
end

section
/-! The dissector's round trip (R237): MEM holds one bank and one row of values at a place, and a bank and a
row of values make the same octets at every place. -/

namespace Sys2Proof.Machine

/-! ### What MEM holds is one row of values -/

/-- R108: a value that fits its width is what its stream says. -/
theorem eq_of_wordStream_of_lt {v v' : Word} {W : Nat} {le : Bool} (hle : le = true → W % 8 = 0)
    (hv : v.toNat < 2 ^ W) (hv' : v'.toNat < 2 ^ W) (h : wordStream v W le = wordStream v' W le) :
    v = v' := by
  rw [eq_low_of_wordStream hle hv h, Nat.mod_eq_of_lt hv', BitVec.ofNat_toNat, BitVec.setWidth_eq]

/-- R144: the stream of fields in a row is made of the streams of the fields. -/
theorem wordStream_of_fieldsStream {fd : Vector FieldDesc 16} {fv fv' : Vector Word 16} :
    ∀ {l : List (Fin 16)}, fieldsStream fd fv l = fieldsStream fd fv' l →
      ∀ f ∈ l, wordStream fv[f] fd[f].w.toNat fd[f].le = wordStream fv'[f] fd[f].w.toNat fd[f].le
  | [], _, _, hf => absurd hf List.not_mem_nil
  | g :: l, h, f, hf => by
    obtain ⟨hfirst, hrest⟩ := List.append_inj h (by rw [wordStream_length, wordStream_length])
    rcases List.mem_cons.1 hf with rfl | hf
    · exact hfirst
    · exact wordStream_of_fieldsStream hrest f hf

/-- R237: two rows of legal values with the same bits in the schema and the same values outside it are
one. -/
theorem values_unique {s : State} {fv fv' : Vector Word 16} (hdescs : ∀ f : Fin 16, descOk s.fd[f])
    (hv : ∀ f : Fin 16, fv[f].toNat < 2 ^ s.fd[f].w.toNat)
    (hv' : ∀ f : Fin 16, fv'[f].toNat < 2 ^ s.fd[f].w.toNat)
    (hin : valuesStream s fv = valuesStream s fv')
    (hout : ∀ f : Fin 16, f ∉ s.schema → fv[f] = fv'[f]) : fv = fv' := by
  have hall : ∀ f : Fin 16, fv[f] = fv'[f] := fun f => by
    by_cases hf : f ∈ s.schema
    · exact eq_of_wordStream_of_lt (hdescs f).2 (hv f) (hv' f) (wordStream_of_fieldsStream hin f hf)
    · exact hout f hf
  exact Vector.ext fun i hi => hall ⟨i, hi⟩

/-! ### The same octets at two places -/

/-- R165: the headers of a bank are the same octets wherever they stand. -/
theorem headerAt.octet_eq {m m' : Memory} {b : Bank} {base base' k : Nat} (h : headerAt m b base)
    (h' : headerAt m' b base') (hk : k < 6 + b.secSize) : m'.octet (base' + k) = m.octet (base + k) := by
  unfold Bank.secSize at hk
  by_cases hprimary : k < 6
  · rw [h.primary k hprimary, h'.primary k hprimary]
  · obtain ⟨j, rfl⟩ : ∃ j, k = 6 + j := ⟨k - 6, by omega⟩
    by_cases htc : j < b.tcb.toNat
    · rw [← Nat.add_assoc, ← Nat.add_assoc, h.tc j htc, h'.tc j htc]
    · obtain ⟨i, rfl⟩ : ∃ i, j = b.tcb.toNat + i := ⟨j - b.tcb.toNat, by omega⟩
      have hanc : i < b.ancb.toNat := by omega
      simp only [← Nat.add_assoc]
      rw [h.anc i hanc, h'.anc i hanc]

/-- R61: whole octets with the same bits are the same octets, wherever they stand. -/
theorem octet_eq_of_stream {m m' : Memory} {a a' n k : Nat} (h : m'.stream (8 * a') n = m.stream (8 * a) n)
    (hk : 8 * k + 8 ≤ n) : m'.octet (a' + k) = m.octet (a + k) := by
  apply BitVec.eq_of_getLsbD_eq
  intro i hi
  have hbit := congrArg (fun l => l[8 * k + (7 - i)]?) h
  simp only [Memory.stream, Memory.bit, List.getElem?_map] at hbit
  rw [List.getElem?_range (by omega), Option.map_some, Option.map_some, Option.some.injEq] at hbit
  rwa [show (8 * a' + (8 * k + (7 - i))) / 8 = a' + k by omega,
    show (8 * a + (8 * k + (7 - i))) / 8 = a + k by omega,
    show 7 - (8 * a' + (8 * k + (7 - i))) % 8 = i by omega,
    show 7 - (8 * a + (8 * k + (7 - i))) % 8 = i by omega] at hbit

/-- R232, R237: the `dsize` octets of two windows that hold the same headers and the same user data. -/
theorem dissected_octet_eq {m m' : Memory} {b : Bank} {base base' colw k : Nat} (hcol : colw % 8 = 0)
    (h : headerAt m b base) (h' : headerAt m' b base')
    (hstream : m'.stream (8 * (base' + 6 + b.secSize)) colw = m.stream (8 * (base + 6 + b.secSize)) colw)
    (hk : k < 6 + b.secSize + colw / 8) : m'.octet (base' + k) = m.octet (base + k) := by
  by_cases hheader : k < 6 + b.secSize
  · exact h.octet_eq h' hheader
  · obtain ⟨j, rfl⟩ : ∃ j, k = 6 + b.secSize + j := ⟨k - (6 + b.secSize), by omega⟩
    have huser := octet_eq_of_stream (k := j) hstream (by omega)
    simpa only [Nat.add_assoc] using huser

/-! ### The commands in a row (R237) -/

/-- R231 to R234: what a `DIS.TOBUF` that was not refused has checked. -/
theorem disTobuf_checked {s t : State} {win : Window} (h : exec (.disTobuf win) s = .next t)
    (h0 : t.last = 0) : s.shapeOk = true ∧ win.base.toNat + win.size.toNat ≤ s.mem.size ∧
      s.dsize ≤ win.size.toNat := by
  obtain ⟨hshape, h⟩ := guard_passed (by decide) h h0
  obtain ⟨hin, h⟩ := guard_passed (by decide) h h0
  obtain ⟨hroom, -⟩ := guard_passed (by decide) h h0
  exact ⟨by simpa using hshape, inMem_of_not hin, Nat.le_of_not_lt hroom⟩

theorem schema_congr {s s' : State} (hn : s'.nfld = s.nfld) : s'.schema = s.schema := by
  rw [State.schema, hn, State.schema]

theorem colw_congr {s s' : State} (hd : s'.fd = s.fd) (hn : s'.nfld = s.nfld) : s'.colw = s.colw := by
  rw [State.colw, hd, schema_congr hn, State.colw]

theorem valuesStream_congr {s s' : State} (hd : s'.fd = s.fd) (hn : s'.nfld = s.nfld)
    (fv : Vector Word 16) : valuesStream s' fv = valuesStream s fv := by
  rw [valuesStream, hd, schema_congr hn, valuesStream]

/-- R237: `DIS.FROMBUF` of a window that holds the headers and the values of a legal state `s`, into a state
with the widths and the schema of `s`, restores both. -/
theorem disFrombuf_restores {s s' : State} {win : Window} (hs : s.Inv) (hs' : s'.Inv)
    (hshape : s.shapeOk = true) (hfd : s'.fd = s.fd) (hnfld : s'.nfld = s.nfld)
    (htcb : s'.bankD.tcb = s.bankD.tcb) (hancb : s'.bankD.ancb = s.bankD.ancb)
    (hkept : ∀ f : Fin 16, f ∉ s.schema → s'.fv[f] = s.fv[f])
    (hin : win.base.toNat + win.size.toNat ≤ s'.mem.size) (hroom : s.dsize ≤ win.size.toNat)
    (hheader : headerAt s'.mem s.bankD win.base.toNat)
    (hstream : s'.mem.stream (8 * (win.base.toNat + 6 + s.bankD.secSize)) s.colw = valuesStream s s.fv) :
    exec (.disFrombuf win) s' = .next { s' with bankD := s.bankD, fv := s.fv, last := 0 } := by
  obtain ⟨hcol, hcarry⟩ := shapeOk_iff.1 hshape
  have hsec : s'.bankD.secSize = s.bankD.secSize := by rw [Bank.secSize, htcb, hancb]; rfl
  have hcolw : s'.colw = s.colw := colw_congr hfd hnfld
  obtain ⟨b, fv, hexec, hbtcb, hbancb, hat, hbank, hread, hother, hbounds⟩ :=
    (dissectorReads win s' hs' (hcolw ▸ hcol) (by rwa [hcolw, hsec])).2 hin (by rwa [hcolw, hsec])
  have hb : b = s.bankD :=
    hheader.unique hat (hs.banks .d) hbank (hbtcb.trans htcb) (hbancb.trans hancb)
  rw [valuesStream_congr hfd hnfld, hsec, hcolw, hstream] at hread
  rw [hfd] at hbounds
  have hfv : fv = s.fv := values_unique hs.descs hbounds hs.values hread fun f hf =>
    (hother f (by rwa [schema_congr hnfld])).trans (hkept f hf)
  rw [hexec, hb, hfv]

/-- R237: `DIS.TOBUF` from a state with the bank D, the values and the schema of `s` writes the headers and
the values of `s`. -/
theorem disTobuf_writes_same {s t : State} {win : Window} (ht : t.Inv) (hshape : s.shapeOk = true)
    (hfd : t.fd = s.fd) (hnfld : t.nfld = s.nfld) (hbank : t.bankD = s.bankD) (hfv : t.fv = s.fv)
    (hin : win.base.toNat + win.size.toNat ≤ t.mem.size) (hroom : s.dsize ≤ win.size.toNat) :
    ∃ u, exec (.disTobuf win) t = .next u ∧ headerAt u.mem s.bankD win.base.toNat ∧
      u.mem.stream (8 * (win.base.toNat + 6 + s.bankD.secSize)) s.colw = valuesStream s s.fv := by
  obtain ⟨hcol, hcarry⟩ := shapeOk_iff.1 hshape
  have hcolw : t.colw = s.colw := colw_congr hfd hnfld
  obtain ⟨m, hexec, hheader, hstream, -⟩ :=
    (dissectorWrites win t ht (hcolw ▸ hcol) (by rwa [hcolw, hbank])).2 hin (by rwa [hcolw, hbank])
  rw [hbank] at hheader
  rw [valuesStream_congr hfd hnfld, hbank, hcolw, hfv] at hstream
  exact ⟨_, hexec, hheader, hstream⟩

/-- Settles O59: the window holds the headers and the values, which are read back (`disFrombuf_restores`),
so that the second `DIS.TOBUF` writes the same headers and the same bits (`disTobuf_writes_same`). -/
theorem dissectorRoundTrip : Obligations.DissectorRoundTrip := by
  intro win win' s t s' hs hwrite hlast hs' hmem hfd hnfld htcb hancb hkept hin' hroom'
  obtain ⟨hshape, hin, hroom⟩ := disTobuf_checked hwrite hlast
  obtain ⟨hcol, -⟩ := shapeOk_iff.1 hshape
  obtain ⟨t₀, hexec, hheader, hstream⟩ := disTobuf_writes_same hs hshape rfl rfl rfl rfl hin hroom
  cases hwrite.symm.trans hexec
  have hsize : s'.mem.size = s.mem.size := by rw [hmem]; exact exec_memSize hs hwrite
  have hread := disFrombuf_restores hs hs' hshape hfd hnfld htcb hancb hkept (hsize ▸ hin) hroom
    (hmem ▸ hheader) (hmem ▸ hstream)
  obtain ⟨u, hexec', hheader', hstream'⟩ :=
    disTobuf_writes_same (exec_inv hs' hread) hshape hfd hnfld rfl rfl (hsize ▸ hin') hroom'
  exact ⟨_, u, hread, rfl, rfl, hexec', fun k hk =>
    dissected_octet_eq hcol hheader hheader' (hstream'.trans hstream.symm) hk⟩

end Sys2Proof.Machine
end

section
/-! The system commands `NOP` and `SYS.ESR` (R250, R251). -/

namespace Sys2Proof.Machine

/-- R250: the first of the worked encodings of R91. -/
theorem decode_nop (arg : Word) : decode 0x01000000 arg = .ok .nop := by
  obtain ⟨hnop, -⟩ := workedEncodings
  exact hnop arg

/-- R82, R251: the word of `SYS.ESR` uses no field but the opcode, and `arg` is ignored. -/
theorem decode_sysEsr (arg : Word) : decode 0x02000000 arg = .ok .sysEsr :=
  decode_eq_ok_iff.2 ⟨.N, rfl, rfl, rfl⟩

theorem exec_nop (s : State) : exec .nop s = .next { s with last := 0 } := complete_eq s

/-- R251: the reply is `LAST` in bits 7 to 4 and `ESR` in bits 3 to 0, below 56 zeros. -/
theorem setWidth_last_esr (last esr : BitVec 4) :
    (last ++ esr).setWidth 64 = 0#56 ++ last ++ esr := by
  calc (last ++ esr).setWidth 64
      = 0#56 ++ (last ++ esr) := BitVec.setWidth_eq_append (by decide)
    _ = 0#56 ++ last ++ esr := (BitVec.append_assoc (x₁ := 0#56)).symm

/-- R251: both registers are read before the command completes. -/
theorem exec_sysEsr (s : State) :
    exec .sysEsr s = .next { s with dout := 0#56 ++ s.last ++ s.esr, last := 0 } := by
  rw [← setWidth_last_esr]
  exact reply_eq _ s

/-- Settles O18: the words decode whatever `arg` is, the two commands are `complete` and `reply`, and what the
host sees of a `NOP` is `stepRunsDecodedCommand` at `exec_nop`. -/
theorem systemCommands : Obligations.SystemCommands := by
  refine ⟨fun arg => ⟨decode_nop arg, decode_sysEsr arg⟩, fun s => ⟨exec_nop s, exec_sysEsr s⟩,
    fun s arg rest hin => ?_⟩
  rw [stepRunsDecodedCommand s _ arg rest .nop hin (decode_nop arg), exec_nop]

end Sys2Proof.Machine
end

section
/-! How a command ends (R261 to R263). -/

namespace Sys2Proof.Machine

/-- R263: no update of a command that completes writes `ESR`. -/
theorem Completes.esr {s u : State} {i : Instr} (h : Completes s i u) : u.esr = s.esr := by
  cases h with
  | hdrCfgsh w => cases w <;> rfl
  | asmBegin | asmBeginidle => rfl
  | _ => simp

/-- Settles O12: a refused command has recorded its status and nothing else; a completed one has made an
update, which leaves `ESR` alone, and OK has no bit there. -/
theorem howCommandsEnd : Obligations.HowCommandsEnd := by
  intro i s t h
  obtain ⟨st, -, rfl⟩ | ⟨u, hu, rfl⟩ := exec_cases h
  · exact ⟨st, rfl, rfl, fun _ => rfl⟩
  · refine ⟨.ok, rfl, ?_, fun hne => absurd rfl hne⟩
    rw [recordStatus_esr, hu.esr]

end Sys2Proof.Machine
end

section
/-! A command that reset cuts short (R45, R300). -/

namespace Sys2Proof.Machine

/-- U5: the octets that take no free value read as before. -/
theorem scramble_octet_of_not_mem : ∀ (octets : List Nat) (n : Nat) (m : Memory) {a : Nat}, a ∉ octets →
    (scramble octets n m).octet a = m.octet a
  | [], _, _, _, _ => rfl
  | b :: rest, n, m, a, ha => by
    obtain ⟨hne, hrest⟩ := List.ne_and_not_mem_of_not_mem_cons ha
    calc (scramble rest (n + 1) (m.set b (Config.cutOctet n))).octet a
        = (m.set b (Config.cutOctet n)).octet a := scramble_octet_of_not_mem rest _ _ hrest
      _ = m.octet a := octet_set_other m _ hne

/-- The octets that the pair on the port writes in a run to its end from `s`: those of its command (R66),
and none if it is no command (R87). -/
def runOctets (cw : CmdWord) (arg : Word) (s : State) (a : Nat) : Prop :=
  ∃ i u, decode cw arg = .ok i ∧ exec i s = .next u ∧ a ∈ writtenOctets i s u

theorem runOctets_lt {cw : CmdWord} {arg : Word} {s : State} {a : Nat} (hs : s.Inv)
    (ha : runOctets cw arg s a) : a < s.mem.size := by
  obtain ⟨i, u, -, hexec, hmem⟩ := ha
  exact writtenOctets_lt hs hexec hmem

/-- R60, R88: whatever pair stands on the port, the engine answers a next state. -/
theorem runCommand_answers {s : State} (hs : s.Inv) (cw : CmdWord) (arg : Word) :
    Answers (runCommand cw arg s) := by
  unfold runCommand
  split
  next i _ => exact exec_answers hs i
  next => exact ⟨_, rfl⟩

/-- R300, U5: reset during a command answers, with the registers at reset and free values in octets of a run
to its end. -/
theorem cutByReset_eq {s : State} (hs : s.Inv) (cw : CmdWord) (arg : Word) :
    ∃ octets : List Nat, (∀ a ∈ octets, runOctets cw arg s a) ∧
      cutByReset cw arg s = .next (State.afterReset (scramble octets s.freeNext s.mem) s.input (s.pos + 1)
        s.rsp (s.freeNext + octets.length)) := by
  obtain ⟨u, hrun⟩ := runCommand_answers hs cw arg
  unfold cutByReset
  rw [hrun]
  refine ⟨_, fun a ha => ?_, rfl⟩
  split at ha
  next i hdec => exact ⟨i, u, hdec, runCommand_of_decode hdec s ▸ hrun, ha⟩
  next => simp at ha

/-- R48: a pending move taken off the port is not a change that the invariants see. -/
theorem inv_takeMove {s : State} (hs : s.Inv) (rest : List HostMove) : (takeMove rest s).Inv :=
  inv_unconstrained hs s.dout rest s.pos s.rsp s.freeNext

/-- Settles O17: the next state is that of `cutByReset_eq`; the octets with free values are octets of MEM
(`runOctets_lt`), and every other octet is left (`scramble_octet_of_not_mem`). -/
theorem resetCutsCommand : Obligations.ResetCutsCommand := by
  intro s cw arg rest hs hin
  have htaken := inv_takeMove hs rest
  obtain ⟨octets, hwritten, hcut⟩ := cutByReset_eq htaken cw arg
  obtain ⟨hsize, -⟩ := scramble_keeps octets s.freeNext (m := s.mem)
    fun a ha => runOctets_lt (s := takeMove rest s) htaken (hwritten a ha)
  refine ⟨_, (step_move hin).trans hcut, resetRegisters_afterReset _ _ _ _ _, rfl, rfl, hsize,
    fun a hnot => scramble_octet_of_not_mem _ _ _ fun ha => ?_⟩
  obtain ⟨i, u, hdec, hexec, hmem⟩ := hwritten a ha
  exact hnot i u hdec hexec hmem

end Sys2Proof.Machine
end

section
/-! Runs (R260, R327, R331): with the host's writes inside MEM every move of the host is performed, and it
leaves the moves behind it and the size of MEM as they are. -/

namespace Sys2Proof.Machine

/-! ### One move -/

/-- R48: the invariants do not speak of the position in the command stream. -/
theorem inv_countCommand {s : State} (hs : s.Inv) : (countCommand s).Inv :=
  inv_unconstrained hs s.dout s.input (s.pos + 1) s.rsp s.freeNext

/-- R60, R72: no move is answered with a fault, if a write of the host is one inside MEM. -/
theorem hostMove_answers {s : State} {mv : HostMove} (hs : s.Inv)
    (hpoke : ∀ a v, mv = .poke a v → a.toNat < s.mem.size) : Answers (hostMove mv s) := by
  cases mv with
  | command cw arg =>
    obtain ⟨u, hrun⟩ := runCommand_answers (inv_countCommand hs) cw arg
    refine ⟨respond u, ?_⟩
    show acceptCommand cw arg s = _
    rw [acceptCommand, hrun]
  | poke addr v => exact ⟨_, hostPoke_of_lt v (hpoke addr v rfl)⟩
  | reset => exact ⟨_, rfl⟩
  | resetDuring cw arg =>
    obtain ⟨_, -, hcut⟩ := cutByReset_eq hs cw arg
    exact ⟨_, hcut⟩

/-- R48: a command leaves the moves behind it, and the size of MEM. -/
theorem runCommand_keeps {cw : CmdWord} {arg : Word} {s t : State} (hs : s.Inv)
    (h : runCommand cw arg s = .next t) : t.input = s.input ∧ t.mem.size = s.mem.size := by
  unfold runCommand at h
  split at h
  next i _ =>
    obtain ⟨-, -, -, -, -, -, -, -, -, -, hinput, -⟩ := registerWriters i s t h
    exact ⟨hinput, exec_memSize hs h⟩
  next => cases h; exact ⟨rfl, rfl⟩

/-- R45, R48: a move leaves the moves behind it, and the size of MEM. -/
theorem hostMove_keeps {mv : HostMove} {s t : State} (hs : s.Inv) (h : hostMove mv s = .next t) :
    t.input = s.input ∧ t.mem.size = s.mem.size := by
  cases mv with
  | command cw arg =>
    obtain ⟨u, hrun, rfl⟩ := acceptCommand_next h
    have hkept := runCommand_keeps (inv_countCommand hs) hrun
    exact hkept
  | poke addr v =>
    change hostPoke _ _ _ = _ at h
    unfold hostPoke at h
    split at h
    next m hm =>
      cases h
      obtain ⟨-, rfl⟩ := memWrite_ok.1 hm
      exact ⟨rfl, set_size _ _ _⟩
    next => cases h
  | reset => cases h; exact ⟨rfl, rfl⟩
  | resetDuring cw arg =>
    obtain ⟨octets, hlt, rfl⟩ := cutByReset_next hs h
    obtain ⟨hsize, -⟩ := scramble_keeps octets s.freeNext hlt
    exact ⟨rfl, hsize⟩

/-! ### One step, and a run -/

/-- R260, R327: a step goes on, and keeps what the next one needs. -/
theorem step_goes_on {s : State} (hs : s.Inv) (hin : hostInMem s) :
    ∃ t, step s = .next t ∧ t.Inv ∧ hostInMem t := by
  cases hmoves : s.input with
  | nil => exact ⟨s, by simp only [step, hmoves], hs, hin⟩
  | cons mv rest =>
    have htaken := inv_takeMove hs rest
    obtain ⟨t, hmove⟩ := hostMove_answers (mv := mv) htaken
      fun a v hmv => hin a v (by rw [hmoves, hmv]; exact List.mem_cons_self)
    obtain ⟨hinput, hsize⟩ := hostMove_keeps htaken hmove
    refine ⟨t, (step_move hmoves).trans hmove, hostMove_inv htaken hmove, fun a v hmem => ?_⟩
    rw [hsize]
    rw [hinput] at hmem
    exact hin a v (by rw [hmoves]; exact List.mem_cons_of_mem mv hmem)

/-- A run goes on with the state that its first step leaves. -/
theorem run_of_step {s t : State} (h : step s = .next t) (k : Nat) :
    Host.Core.run core (k + 1) s = Host.Core.run core k t := by
  have hstep : core.step s = .next t := h
  simp only [Host.Core.run, hstep]

/-- Settles O11: by induction on the length of the run, with `step_goes_on` for its first step. -/
theorem runsNeverStop : Obligations.RunsNeverStop := by
  intro k
  induction k with
  | zero => exact fun s hs hin => ⟨s, rfl, hs, hin⟩
  | succ k ih =>
    intro s hs hin
    obtain ⟨t, hstep, ht, htin⟩ := step_goes_on hs hin
    rw [run_of_step hstep]
    exact ih t ht htin

end Sys2Proof.Machine
end

section
/-! What a just-reset engine answers (R302). -/

namespace Sys2Proof.Machine

section
variable {s : State} (h : resetRegisters s)
include h

/-- R43: no bank has a secondary header. -/
theorem resetRegisters.secSize (u : BankSel) : (s.bank u).secSize = 0 := by
  rw [h.banks u]
  rfl

/-- R36, R44: the schema is empty. -/
theorem resetRegisters.colw : s.colw = 0 := by
  have hschema : s.schema = [] := by
    rw [State.schema, h.count]
    rfl
  rw [State.colw, hschema]
  rfl

/-- R42, R191: there is no user data. -/
theorem resetRegisters.userBits : s.userBits = 0 := by
  have haw : s.aw = { base := 0, size := 0, cursor := 0, bad := false } := h.cursors .aw
  rw [State.userBits, haw]
  rfl

/-- R191: a packet would be its primary header alone. -/
theorem resetRegisters.asmTotal : s.asmTotal = 6 := by
  have hsec : s.bankA.secSize = 0 := h.secSize .a
  rw [State.asmTotal, hsec, State.userBytes, h.userBits]
  rfl

/-- R200: the first condition fails, since there is nothing to carry. -/
theorem resetRegisters.asmValid : asmValid s = false := by
  have hsec : s.bankA.secSize = 0 := h.secSize .a
  have hbits := h.userBits
  refine Bool.eq_false_iff.2 fun hvalid => ?_
  obtain ⟨hcarry, -⟩ := asmValid_iff.1 hvalid
  omega

end

/-- Settles O7: each reply is one of the quantities above, and the two refusals are those of an empty shape
(R231) and of no packet in progress (R196). -/
theorem resetAnswers : Obligations.ResetAnswers := by
  intro s h
  obtain ⟨-, hfinal⟩ := assemblerFinalizes
  obtain ⟨hidle, -⟩ := hfinal s
  refine ⟨?_, ?_, ?_, fun c => ?_, ?_, hidle (by rw [h.asm])⟩
  · refine (reply_eq _ s).trans ?_
    rw [h.asmTotal]
    rfl
  · refine (reply_eq _ s).trans ?_
    rw [h.asmValid]
    rfl
  · refine (reply_eq _ s).trans ?_
    rw [h.colw]
    rfl
  · refine (reply_eq _ s).trans ?_
    rw [h.cursors c]
    rfl
  · exact dissectorShape_refuses (.inr ⟨h.colw, h.secSize .d⟩) _

end Sys2Proof.Machine
end
